-- ==== Sys2Proof/Word.lean ====
section
/-! DEFINITION. The words of the block: bytes of the streams and planes, and the 32-bit word of the command and
register interface (`spec/30_encoding.md` R60, `spec/10_state.md` R16). -/

namespace Sys2Proof

/-- One byte of `IN`, `PLANE`, `FULL` or `OUT`, or one 8-bit field of a command word. -/
abbrev Byte := BitVec 8

/-- One 32-bit register or command word. -/
abbrev Word := BitVec 32

/-- A block buffer: 64 entries (`spec/10_state.md` R11). -/
abbrev Block (α : Type) := Vector α 64

end Sys2Proof
end

