-- ==== Sys2Proof/Config.lean ====
section
/-! DEFINITION. The free values: what the spec leaves unspecified. None of them has a body, so no proof can
see a value. `epoch` numbers the resets (the draw made at each reset), `draw` numbers the single draws. -/

namespace Sys2Proof.Config

/-- `COEF` after reset number `epoch` (`spec/10_state.md` R26: "unspecified"). -/
opaque resetCoef : (epoch : Nat) → Fin 64 → BitVec 16

/-- `DEQ` after a reset (R26). -/
opaque resetDeq : (epoch : Nat) → Fin 64 → Word

/-- `NAT` after a reset (R26). -/
opaque resetNat : (epoch : Nat) → Fin 64 → Word

/-- `ACC` after a reset (R26). -/
opaque resetAcc : (epoch : Nat) → Fin 64 → BitVec 64

/-- `TILE` after a reset (R26). -/
opaque resetTile : (epoch : Nat) → Fin 64 → Byte

/-- A byte of `PLANE[c]` that nothing has written since reset number `epoch` (R26). -/
opaque resetPlane : (epoch : Nat) → Fin 4 → (addr : Nat) → Byte

/-- A byte of `FULL[c]` that nothing has written since a reset (R26). -/
opaque resetFull : (epoch : Nat) → Fin 4 → (addr : Nat) → Byte

/-- A byte of `OUT` that nothing has written since a reset (R26). -/
opaque resetOut : (epoch : Nat) → (addr : Nat) → Byte

/-- A byte of `IN` that the state does not list: the buffer is a parameter of a run (R10). -/
opaque inputByte : (addr : Nat) → Byte

/-- A byte of `IN` as the block reads it after the host has changed `IN` under a stream (`spec/20_memory.md` R56,
`spec/93_implementation_defined.md` U13: not defined). `draw` numbers the change. -/
opaque changedByte : (draw addr : Nat) → Byte

/-- What a read of a register other than `STATUS`, `ERR`, `ERRPOS` returns while faulted (R18, R225). -/
opaque faultedRead : (draw : Nat) → Word

/-- `RESULT` after a command that faults (R20: "leaves `RESULT` unspecified"). -/
opaque faultedResult : (draw : Nat) → Word

/-- What a host read of `PLANE`, `FULL` or `OUT` returns before the time the spec lets the host read it
(`spec/20_memory.md` R40), and while faulted (`spec/60_exceptions.md` R225). -/
opaque earlyMemoryRead : (draw : Nat) → Byte

end Sys2Proof.Config
end

