-- ==== Sys2Proof/Machine/State.lean ====
section
/-! DEFINITION. The state of the block as plain data (`spec/10_state.md` R10 to R27, `spec/20_memory.md` R40), the
ways a step can stop, and the state after reset (R26, `spec/70_reset_and_hazards.md` R250). -/

namespace Sys2Proof.Machine

/-- A byte memory: the written bytes only, as (address, byte) pairs. An address that is not listed holds no
written byte. -/
abbrev Memory := List Host.Cell

/-- The canonical form: addresses strictly rising. An unlisted address reads as no byte, so no entry can equal
what an unlisted address reads as. -/
abbrev Memory.wf (m : Memory) : Prop := m.Pairwise (fun a b => a.1 < b.1)

/-- The fault kinds of `spec/60_exceptions.md` R220. The block latches them (R224); none stops the machine. -/
inductive FaultKind where
  /-- Raised by the host only (R211). -/
  | notAJpeg
  | unsupportedCodingProcess
  | malformedSegment
  | undefinedTableReference
  | invalidHuffmanCode
  | blockOverflow
  | restartSyncError
  | unexpectedEndOfStream
  | unsupportedComponentLayout
  | rangeFault
  | protocolFault
  deriving DecidableEq, Repr

/-- The flags of `STATUS` that are not bit-reader state (R15); `MARKF` and `BRV` are in `Stream`. -/
structure Status where
  /-- `FAULT`, bit 0. -/
  fault : Bool
  /-- `SCAN`, bit 3. -/
  scan : Bool
  /-- `DONE`, bit 4. -/
  done : Bool
  /-- `OUTV`, bit 5. -/
  outv : Bool
  /-- `FULLV[c]`, bit 8 + c. -/
  fullv : Vector Bool 4
  deriving DecidableEq, Repr

/-- The bit reader (R13, R14). -/
structure Stream where
  /-- `POS`, the next byte of `IN` not yet fetched. -/
  pos : Word
  /-- `CUR`, the data byte being delivered. -/
  cur : Byte
  /-- `CNT`, 0..8: how many low-order bits of `CUR` are still to be delivered. -/
  cnt : Fin 9
  /-- `MARKF`. -/
  markf : Bool
  /-- `MARKC`. -/
  markc : Byte
  /-- `BRV`. -/
  brv : Bool
  deriving DecidableEq, Repr

/-- `COMP[c]` (R16, R17). -/
structure CompCfg where
  /-- `V[3:0]`. -/
  v : BitVec 4
  /-- `H[7:4]`. -/
  h : BitVec 4
  /-- `TQ[11:8]`. -/
  tq : BitVec 4
  /-- `TD[15:12]`. -/
  td : BitVec 4
  /-- `TA[19:16]`. -/
  ta : BitVec 4
  deriving DecidableEq, Repr

/-- The configuration registers (R16, R17, R19). -/
structure Setup where
  /-- `IN_LEN`. -/
  inLen : Word
  /-- `PROC[7:0]`. -/
  proc : Byte
  /-- `FRAME.WIDTH`. -/
  width : BitVec 16
  /-- `FRAME.HEIGHT`. -/
  height : BitVec 16
  /-- `NCOMP[7:0]`. -/
  ncomp : Byte
  /-- `RI[15:0]`. -/
  ri : BitVec 16
  /-- `COMP[0..3]`. -/
  comp : Vector CompCfg 4
  deriving DecidableEq, Repr

/-- The DC predictors (R12) and the scan counters (R24). -/
structure Walk where
  /-- `PRED[0..3]`, signed 16-bit. -/
  pred : Vector (BitVec 16) 4
  /-- `MCUCNT`. -/
  mcucnt : Word
  /-- `RSTEXP`. -/
  rstexp : BitVec 3
  /-- `MCUIDX`. -/
  mcuidx : Word
  deriving DecidableEq, Repr

/-- The block buffers (R11). -/
structure Buffers where
  /-- `COEF[0..63]`, signed 16-bit, zigzag order. -/
  coef : Block (BitVec 16)
  /-- `DEQ[0..63]`, signed 32-bit, zigzag order. -/
  deq : Block Word
  /-- `NAT[0..63]`, signed 32-bit, index `8·v + u`. -/
  nat : Block Word
  /-- `ACC[0..63]`, signed 64-bit, scaled by 2^26, index `8·y + x`. -/
  acc : Block (BitVec 64)
  /-- `TILE[0..63]`, unsigned 8-bit, index `8·y + x`. -/
  tile : Block Byte
  deriving DecidableEq, Repr

/-- The fields of a Huffman slot with `VALID = 1` (R21). Position `l - 1` of a vector is the entry for
length `l`. -/
structure HuffTable where
  /-- `L[1..16]`, 0..255 each. -/
  counts : Vector Byte 16
  /-- `NSYM`, 0..256. -/
  nsym : Nat
  /-- `SYM[0..NSYM-1]`. -/
  sym : List Byte
  /-- `FIRST[1..16]`, 0..65536 each. -/
  first : Vector Nat 16
  /-- `OFFSET[1..16]`, 0..256 each. -/
  offset : Vector Nat 16
  deriving DecidableEq, Repr

/-- The table slots (R21, R22): `none` is `VALID = 0`. -/
structure Tables where
  /-- `HT[cl][id]`, `cl` 0 = DC, 1 = AC. -/
  ht : Vector (Vector (Option HuffTable) 16) 2
  /-- `QT[id]`; a loaded slot is `Q[0..63]`, unsigned 16-bit. -/
  qt : Vector (Option (Block (BitVec 16))) 16
  deriving DecidableEq, Repr

/-- The memories the block writes (`spec/20_memory.md` R40). -/
structure Planes where
  /-- `PLANE[c]`. -/
  plane : Vector Memory 4
  /-- `FULL[c]`. -/
  full : Vector Memory 4
  /-- `OUT`. -/
  out : Memory
  deriving DecidableEq, Repr

/-- A memory space a host can read (`spec/20_memory.md` R40). -/
inductive Space where
  | input
  | plane (c : Fin 4)
  | full (c : Fin 4)
  | out
  deriving DecidableEq, Repr

/-- One access the host makes (`spec/45_control_and_host.md` section 2, `spec/20_memory.md` R40). -/
inductive HostAccess where
  /-- A 32-bit register write at a byte offset from `CSR_BASE`; offset 0 is `CMD`. -/
  | write (offset value : Word)
  /-- A 32-bit register read. -/
  | read (offset : Word)
  /-- A register access narrower than 32 bits (R18). -/
  | narrow (offset : Word)
  /-- The host stores one byte of its input buffer `IN`. -/
  | storeInput (addr : Word) (value : Byte)
  /-- The host reads one byte of a memory space. -/
  | readMemory (space : Space) (addr : Nat)
  /-- The platform's hardware reset (R250). -/
  | hardReset
  deriving DecidableEq, Repr

/-- The model's own record of what R56 asks of the host (`spec/20_memory.md`; log 13): whether `IN` has been changed under
a stream. -/
structure InputWatch where
  /-- The number of the last change of `IN` since the last BR.INIT or SCAN.START; `none` is no change. -/
  changed : Option Nat
  /-- SCAN.END has ended the decode since then. -/
  ended : Bool
  deriving DecidableEq, Repr

/-- The state of the block, its input buffer and parameters, and the accesses the host has yet to make. -/
structure State where
  /-- `STATUS` but for `MARKF` and `BRV`. -/
  status : Status
  /-- `ERR[7:0]`. -/
  err : Byte
  /-- `ERRPOS`. -/
  errpos : Word
  /-- `RESULT`. -/
  result : Word
  /-- `ARG`. -/
  arg : Word
  /-- `IN_LEN`, `PROC`, `FRAME`, `NCOMP`, `RI`, `COMP[0..3]`. -/
  setup : Setup
  /-- `POS`, `CUR`, `CNT`, `MARKF`, `MARKC`, `BRV`. -/
  stream : Stream
  /-- `PRED[0..3]`, `MCUCNT`, `RSTEXP`, `MCUIDX`. -/
  walk : Walk
  /-- `COEF`, `DEQ`, `NAT`, `ACC`, `TILE`. -/
  buf : Buffers
  /-- `HT`, `QT`. -/
  tables : Tables
  /-- `PLANE`, `FULL`, `OUT`. -/
  mem : Planes
  /-- `IN`: the bytes the host has stored. Not reset (R26). -/
  input : Memory
  /-- The model's own field: changes of `IN` under a stream. -/
  watch : InputWatch
  /-- `MEM_CAP`, a platform parameter; `none` is no bound (R44). No step changes it. -/
  memCap : Option Nat
  /-- The model's own field: the accesses the host has yet to make, the next one first. -/
  bus : List HostAccess
  /-- The model's own field: the value the host's last read returned. -/
  rdata : Word
  /-- The model's own field: how many free values have been drawn. -/
  draws : Nat
  /-- The model's own field: how many resets there have been; it numbers the unspecified contents. -/
  epoch : Nat
  deriving DecidableEq, Repr

/-- Why a step stops the machine. The block itself never stops (R263): its faults are latched. -/
inductive Fault where
  /-- Raised by a host access (`hostRead`, `hostWrite`, `hostReadMemory`) to an address the spec says does not
  exist: a register offset from 0x1000 on, or an address past the end of a memory space (`spec/20_memory.md`
  R40, R41). Safe: hardware may do anything there. -/
  | outsideSpace
  deriving DecidableEq, Repr

/-- Why a step has no meaning. -/
inductive Refusal where
  /-- Raised by an arm of `exec` whose command has no meaning yet. Safe. No arm is left. -/
  | notModelled (mnemonic : String)
  deriving DecidableEq, Repr

/-- The registers after reset (R26). -/
def Setup.reset : Setup :=
  { inLen := 0, proc := 0xFF, width := 0, height := 0, ncomp := 0, ri := 0,
    comp := Vector.replicate 4 { v := 0, h := 0, tq := 0, td := 0, ta := 0 } }

/-- The bit reader after reset (R26). -/
def Stream.reset : Stream := { pos := 0, cur := 0, cnt := 0, markf := false, markc := 0, brv := false }

/-- The predictors and counters after reset (R26). -/
def Walk.reset : Walk := { pred := Vector.replicate 4 0, mcucnt := 0, rstexp := 0, mcuidx := 0 }

/-- The block buffers after reset number `epoch`: unspecified (R26), so free values. -/
def Buffers.reset (epoch : Nat) : Buffers :=
  { coef := Vector.ofFn (Config.resetCoef epoch), deq := Vector.ofFn (Config.resetDeq epoch)
    nat := Vector.ofFn (Config.resetNat epoch), acc := Vector.ofFn (Config.resetAcc epoch)
    tile := Vector.ofFn (Config.resetTile epoch) }

/-- Every slot has `VALID = 0` (R26). -/
def Tables.reset : Tables :=
  { ht := Vector.replicate 2 (Vector.replicate 16 none), qt := Vector.replicate 16 none }

/-- Nothing written (R26: the contents are unspecified). -/
def Planes.reset : Planes :=
  { plane := Vector.replicate 4 [], full := Vector.replicate 4 [], out := [] }

/-- No stream has been started, so no change of `IN` is under one. -/
def InputWatch.reset : InputWatch := { changed := none, ended := false }

/-- All flags 0 (R26). -/
def Status.reset : Status :=
  { fault := false, scan := false, done := false, outv := false, fullv := Vector.replicate 4 false }

/-- The machine right after the first reset: R26, with no byte of `IN` stored, no bound on memory and no host
access pending. -/
def State.reset : State :=
  { status := Status.reset, err := 0, errpos := 0, result := 0, arg := 0
    setup := Setup.reset, stream := Stream.reset, walk := Walk.reset
    buf := Buffers.reset 0, tables := Tables.reset, mem := Planes.reset
    input := [], watch := InputWatch.reset, memCap := none, bus := [], rdata := 0, draws := 0, epoch := 0 }

end Sys2Proof.Machine
end

