-- ==== Sys2Proof/Machine/Ops.lean ====
section
/-! DEFINITION. The shared operations: memory reads and writes, a run that a fault can end, raising a fault
(`spec/60_exceptions.md` R224) and the reset that is the only return from it (R226), and the frame every command
stands in (`spec/30_encoding.md` R65). -/

namespace Sys2Proof.Machine

/-- The byte written last at an address, if any. -/
def Memory.read : Memory → Nat → Option Byte
  | [], _ => none
  | (k, b) :: m, a => if k = a then some b else Memory.read m a

/-- Write one byte, keeping the addresses strictly rising. -/
def Memory.write : Memory → Nat → Byte → Memory
  | [], a, b => [(a, b)]
  | (k, c) :: m, a, b =>
    if a < k then (a, b) :: (k, c) :: m
    else if a = k then (a, b) :: m
    else (k, c) :: Memory.write m a b

/-- Writes in order, the first of the list first. -/
def Memory.writeAll (m : Memory) (cells : List Host.Cell) : Memory :=
  cells.foldl (fun m c => m.write c.1 c.2) m

/-- A byte of `IN` as the host holds it: one the state does not list is the run's parameter `Config.inputByte` (R10). -/
def storedByte (m : Memory) (a : Nat) : Byte := (m.read a).getD (Config.inputByte a)

/-- The input buffer as the block reads it: its length and its bytes (`spec/20_memory.md` R41), and the number of the
change, if the host has changed it where R56 forbids it. -/
structure Input where
  len : Nat
  bytes : Memory
  changed : Option Nat
  deriving DecidableEq, Repr

/-- `MemRead(IN, a, 1)`: the byte the host holds; after a change that R56 forbids, any value. -/
def Input.byte (b : Input) (a : Nat) : Byte :=
  match b.changed with
  | none => storedByte b.bytes a
  | some n => Config.changedByte n a

/-- `MemRead(IN, a, 2)`: the byte at the lower address is the high byte (`spec/20_memory.md` R46). -/
def Input.word16 (b : Input) (a : Nat) : BitVec 16 := b.byte a ++ b.byte (a + 1)

/-- `IN` as the commands that read the stream see it: of length `IN_LEN`, and not to be changed since the stream was
started (R56). -/
def State.inBuf (s : State) : Input :=
  { len := s.setup.inLen.toNat, bytes := s.input, changed := s.watch.changed }

/-- `IN` as the table loads see it: once SCAN.END has ended the decode the host may change it (log 13). -/
def State.tableBuf (s : State) : Input :=
  { s.inBuf with changed := if s.watch.ended then none else s.watch.changed }

/-- A byte of `PLANE[c]`; unspecified if nothing has written it since reset (`spec/10_state.md` R26). -/
def State.planeByte (s : State) (c : Fin 4) (a : Nat) : Byte :=
  (s.mem.plane[c].read a).getD (Config.resetPlane s.epoch c a)

/-- A byte of `FULL[c]`; unspecified if nothing has written it since reset (R26). -/
def State.fullByte (s : State) (c : Fin 4) (a : Nat) : Byte :=
  (s.mem.full[c].read a).getD (Config.resetFull s.epoch c a)

/-- A byte of `OUT`; unspecified if nothing has written it since reset (R26). -/
def State.outByte (s : State) (a : Nat) : Byte := (s.mem.out.read a).getD (Config.resetOut s.epoch a)

/-- What a piece of pseudocode does: it ends with a value, or a `raise` ends it (R224); either way it leaves the
state as far as it got (R228). -/
inductive Res (σ α : Type) where
  | ok (value : α) (state : σ)
  | raised (kind : FaultKind) (state : σ)
  deriving DecidableEq, Repr

/-- Go on with the value and the state, unless a fault was raised. -/
def Res.bind {σ α β : Type} (r : Res σ α) (f : α → σ → Res σ β) : Res σ β :=
  match r with
  | .ok a s => f a s
  | .raised k s => .raised k s

/-- Change the value only. -/
def Res.map {σ α β : Type} (f : α → β) (r : Res σ α) : Res σ β :=
  match r with
  | .ok a s => .ok (f a) s
  | .raised k s => .raised k s

/-- Run a piece of pseudocode that touches the bit reader only. -/
def Res.onStream {α : Type} (s : State) (r : Res Stream α) : Res State α :=
  match r with
  | .ok a t => .ok a { s with stream := t }
  | .raised k t => .raised k { s with stream := t }

/-- The value of `ERR` for a fault kind (R220). -/
def FaultKind.code : FaultKind → Byte
  | .notAJpeg => 1
  | .unsupportedCodingProcess => 2
  | .malformedSegment => 3
  | .undefinedTableReference => 4
  | .invalidHuffmanCode => 5
  | .blockOverflow => 6
  | .restartSyncError => 7
  | .unexpectedEndOfStream => 8
  | .unsupportedComponentLayout => 9
  | .rangeFault => 10
  | .protocolFault => 11

/-- `raise Fault(kind)`: latch the cursor and the kind and enter the faulted state (R224). -/
def raiseFault (k : FaultKind) (s : State) : State :=
  { s with errpos := s.stream.pos, err := k.code, status := { s.status with fault := true } }

/-- A command that faults: R224, and `RESULT` is left unspecified (`spec/10_state.md` R20). -/
def faultCommand (k : FaultKind) (s : State) : State :=
  { raiseFault k s with result := Config.faultedResult s.draws, draws := s.draws + 1 }

/-- Reset, hardware or soft, the only way out of the faulted state (R226, `spec/70_reset_and_hazards.md` R250): the
state of R26, the contents of the buffers and memories drawn afresh, and no stream started. `IN`, the platform parameter `MEM_CAP` (R252)
and the host's own side (pending accesses, last value read, draws) stay. -/
def resetBlock (s : State) : State :=
  { State.reset with
    buf := Buffers.reset (s.epoch + 1), input := s.input, memCap := s.memCap
    bus := s.bus, rdata := s.rdata, draws := s.draws, epoch := s.epoch + 1 }

/-- `RESULT <- v`. -/
def setResult (v : Word) (s : State) : State := { s with result := v }

/-- A command in the check order of R65: (1) ignored while faulted, (2)–(4) `ok` or `ProtocolFault` before any state
changes, (5) the pseudocode. -/
def command (ok : State → Bool) (body : State → Res State Unit) (s : State) :
    Host.Outcome State Fault Refusal :=
  if s.status.fault then .next s
  else if ok s then
    match body s with
    | .ok () t => .next t
    | .raised k t => .next (faultCommand k t)
  else .next (faultCommand .protocolFault s)

/-- A word that is no command: ignored while faulted, else `ProtocolFault` (R63, R65). -/
def rejectWord (s : State) : State :=
  if s.status.fault then s else faultCommand .protocolFault s

end Sys2Proof.Machine
end

