-- ==== Sys2Proof/Machine/Flags.lean ====
section
/-! DEFINITION. The `STATUS` register and the flag changes several operations share (`spec/10_state.md` R15, R19). -/

namespace Sys2Proof.Machine

/-- A word with one flag at a bit position. -/
def flagBit (position : Nat) (flag : Bool) : Word := if flag then 1#32 <<< position else 0#32

/-- `STATUS` as the host reads it (R15); every other bit is 0. -/
def State.statusWord (s : State) : Word :=
  flagBit 0 s.status.fault ||| flagBit 1 s.stream.markf ||| flagBit 2 s.stream.brv ||| flagBit 3 s.status.scan
    ||| flagBit 4 s.status.done ||| flagBit 5 s.status.outv
    ||| flagBit 8 s.status.fullv[0] ||| flagBit 9 s.status.fullv[1]
    ||| flagBit 10 s.status.fullv[2] ||| flagBit 11 s.status.fullv[3]

/-- Clear `DONE`, `OUTV` and `FULLV[0..3]` (R19, R144 step 10). -/
def Status.clearDecode (f : Status) : Status :=
  { f with done := false, outv := false, fullv := Vector.replicate 4 false }

/-- Manual mode: `STATUS.SCAN = 0` (`spec/30_encoding.md` R64). -/
def State.manual (s : State) : Bool := !s.status.scan

/-- Manual mode with a cursor set: the mode and precondition of the commands that need bits. -/
def State.manualStream (s : State) : Bool := s.manual && s.stream.brv

end Sys2Proof.Machine
end

