-- ==== Sys2Proof/Syntax.lean ====
section
/-! DEFINITION. The 26 commands of the block (`spec/30_encoding.md` R62, `spec/opcode_table.json`), one
constructor per row, each operand the whole 8-bit field that carries it. -/

namespace Sys2Proof

/-- A command. `n` bit count, `cl` Huffman class, `id` table id, `prec` quantizer precision, `s` magnitude
category, `comp` component index (R61). -/
inductive Instr where
  /-- `NOP`, R200. -/
  | nop
  /-- `RESET`, R201. -/
  | reset
  /-- `BR.INIT`, R97. -/
  | brInit
  /-- `BR.BIT`, R98. -/
  | brBit
  /-- `BR.BITS n`, R99. -/
  | brBits (n : Byte)
  /-- `BR.ALIGN`, R100. -/
  | brAlign
  /-- `HT.LOAD cl, id`, R114. -/
  | htLoad (cl id : Byte)
  /-- `HT.DEC cl, id`, R117. -/
  | htDec (cl id : Byte)
  /-- `QT.LOAD prec, id`, R160. -/
  | qtLoad (prec id : Byte)
  /-- `ED.RCVX s`, R132. -/
  | edRcvx (s : Byte)
  /-- `ED.DC comp`, R134. -/
  | edDc (comp : Byte)
  /-- `ED.AC comp`, R136. -/
  | edAc (comp : Byte)
  /-- `ED.BLOCK comp`, R138. -/
  | edBlock (comp : Byte)
  /-- `ED.RST`, R141. -/
  | edRst
  /-- `ED.MCU`, R143. -/
  | edMcu
  /-- `ED.SCAN`, R145. -/
  | edScan
  /-- `SCAN.START`, R144. -/
  | scanStart
  /-- `SCAN.END`, R146. -/
  | scanEnd
  /-- `DQ.MUL id`, R162. -/
  | dqMul (id : Byte)
  /-- `ZZ.SCAT`, R164. -/
  | zzScat
  /-- `IDCT.2D`, R167. -/
  | idct2d
  /-- `LS.CLAMP`, R169. -/
  | lsClamp
  /-- `BLK.RECON comp`, R171. -/
  | blkRecon (comp : Byte)
  /-- `UP.RUN comp`, R181. -/
  | upRun (comp : Byte)
  /-- `CC.RUN`, R186. -/
  | ccRun
  /-- `CC.PIX`, R185. -/
  | ccPix
  deriving DecidableEq, Repr

end Sys2Proof
end

