-- ==== Sys2Proof/WellFormed.lean ====
section
/-! DEFINITION. Well-formed commands: every operand lies in the range R61 of `spec/30_encoding.md` gives it. -/

namespace Sys2Proof

/-- `n` bit count 0..16 (R61). -/
def bitCountOk (n : Byte) : Bool := decide (n.toNat ≤ 16)

/-- `cl` Huffman class 0 or 1 (R61). -/
def classOk (cl : Byte) : Bool := decide (cl.toNat ≤ 1)

/-- `id` table id 0..15 (R61). -/
def tableIdOk (id : Byte) : Bool := decide (id.toNat ≤ 15)

/-- `prec` quantizer precision 0 or 1 (R61). -/
def precisionOk (prec : Byte) : Bool := decide (prec.toNat ≤ 1)

/-- `s` magnitude category 0..11 (R61). -/
def categoryOk (s : Byte) : Bool := decide (s.toNat ≤ 11)

/-- `comp` component index 0..3 (R61). -/
def componentOk (comp : Byte) : Bool := decide (comp.toNat ≤ 3)

/-- Every operand of the command lies in its range (R61). -/
def Instr.wellFormed : Instr → Bool
  | .nop => true
  | .reset => true
  | .brInit => true
  | .brBit => true
  | .brBits n => bitCountOk n
  | .brAlign => true
  | .htLoad cl id => classOk cl && tableIdOk id
  | .htDec cl id => classOk cl && tableIdOk id
  | .qtLoad prec id => precisionOk prec && tableIdOk id
  | .edRcvx s => categoryOk s
  | .edDc comp => componentOk comp
  | .edAc comp => componentOk comp
  | .edBlock comp => componentOk comp
  | .edRst => true
  | .edMcu => true
  | .edScan => true
  | .scanStart => true
  | .scanEnd => true
  | .dqMul id => tableIdOk id
  | .zzScat => true
  | .idct2d => true
  | .lsClamp => true
  | .blkRecon comp => componentOk comp
  | .upRun comp => componentOk comp
  | .ccRun => true
  | .ccPix => true

end Sys2Proof
end

