-- ==== Sys2Proof/Machine/Operands.lean ====
section
/-! DEFINITION. What an operand field or a table id selects, the fields of `ARG` for `CC.PIX`, and the forms of
address (`spec/30_encoding.md` R61, `spec/46_arithmetic_and_access.md` R286). -/

namespace Sys2Proof.Machine

/-- The component a `comp` field selects; the range was checked before. -/
def componentIndex (comp : Byte) : Fin 4 := Fin.ofNat 4 comp.toNat

/-- The class a `cl` field selects: 0 = DC, 1 = AC. -/
def classIndex (cl : Byte) : Fin 2 := Fin.ofNat 2 cl.toNat

/-- The slot an `id` field selects. -/
def slotIndex (id : Byte) : Fin 16 := Fin.ofNat 16 id.toNat

/-- The slot a 4-bit table id of `COMP[c]` selects. -/
def slotOfId (id : BitVec 4) : Fin 16 := Fin.ofNat 16 id.toNat

/-- `ARG[7:0]`, `Y` of `CC.PIX` (R185). -/
def argY (arg : Word) : Byte := arg.extractLsb' 0 8

/-- `ARG[15:8]`, `Cb` of `CC.PIX` (R185). -/
def argCb (arg : Word) : Byte := arg.extractLsb' 8 8

/-- `ARG[23:16]`, `Cr` of `CC.PIX` (R185). -/
def argCr (arg : Word) : Byte := arg.extractLsb' 16 8

/-- The tile form: sample `(row, col)` of the tile at block column `bx`, block row `by` of a plane `width` wide. -/
def tileAddress (width bx by' row col : Nat) : Nat := (by' * 8 + row) * width + (bx * 8 + col)

/-- The pixel form: pixel `(y, x)` of an image `width` wide. -/
def pixelAddress (width y x : Nat) : Nat := y * width + x

/-- The scaled pixel form: the plane sample that covers pixel `(y, x)`. -/
def scaledAddress (planeWidth v vmax h hmax y x : Nat) : Nat := (y * v / vmax) * planeWidth + x * h / hmax

end Sys2Proof.Machine
end

