-- ==== Sys2Proof/Machine/Geometry.lean ====
section
/-! DEFINITION. The geometry: functions of the configuration registers, evaluated when a rule uses them
(`spec/10_state.md` R23). -/

namespace Sys2Proof.Machine

/-- `NCOMP`. -/
def Setup.numComps (u : Setup) : Nat := u.ncomp.toNat

/-- The components `c < NCOMP` (of the four `COMP` registers), in scan order. -/
def Setup.comps (u : Setup) : List (Fin 4) := (List.finRange 4).filter (fun c => decide (c.val < u.numComps))

/-- `H_c`. -/
def Setup.hOf (u : Setup) (c : Fin 4) : Nat := u.comp[c].h.toNat

/-- `V_c`. -/
def Setup.vOf (u : Setup) (c : Fin 4) : Nat := u.comp[c].v.toNat

/-- `W = FRAME.WIDTH`. -/
def Setup.w (u : Setup) : Nat := u.width.toNat

/-- `Ht = FRAME.HEIGHT`. -/
def Setup.ht (u : Setup) : Nat := u.height.toNat

/-- `Hmax`. -/
def Setup.hMax (u : Setup) : Nat := u.comps.foldl (fun m c => max m (u.hOf c)) 0

/-- `Vmax`. -/
def Setup.vMax (u : Setup) : Nat := u.comps.foldl (fun m c => max m (u.vOf c)) 0

/-- `ceil(a / b)` for `b > 0` (`spec/00_scope.md` section 4). -/
def ceilDiv (a b : Nat) : Nat := (a + b - 1) / b

/-- `MCUX = ceil(W / (8·Hmax))`. -/
def Setup.mcuX (u : Setup) : Nat := ceilDiv u.w (8 * u.hMax)

/-- `MCUY = ceil(Ht / (8·Vmax))`. -/
def Setup.mcuY (u : Setup) : Nat := ceilDiv u.ht (8 * u.vMax)

/-- `NMCU = MCUX·MCUY`. -/
def Setup.nmcu (u : Setup) : Nat := u.mcuX * u.mcuY

/-- `PW_c = MCUX·8·H_c`. -/
def Setup.planeW (u : Setup) (c : Fin 4) : Nat := u.mcuX * 8 * u.hOf c

/-- `PH_c = MCUY·8·V_c`. -/
def Setup.planeH (u : Setup) (c : Fin 4) : Nat := u.mcuY * 8 * u.vOf c

/-- `NCOMP` is 1, 3 or 4 (R23, R144 step 3). -/
def Setup.countOk (u : Setup) : Bool := u.numComps == 1 || u.numComps == 3 || u.numComps == 4

/-- Every `H_c` and `V_c`, `c < NCOMP`, is in 1..4 (R23, R144 step 5). -/
def Setup.factorsOk (u : Setup) : Bool :=
  u.comps.all fun c => decide (1 ≤ u.hOf c ∧ u.hOf c ≤ 4 ∧ 1 ≤ u.vOf c ∧ u.vOf c ≤ 4)

/-- `Hmax mod H_c = 0` and `Vmax mod V_c = 0` for every `c < NCOMP` (R144 step 6). -/
def Setup.ratiosOk (u : Setup) : Bool :=
  u.comps.all fun c => decide (u.hMax % u.hOf c = 0 ∧ u.vMax % u.vOf c = 0)

/-- Size of `OUT` in bytes (`spec/20_memory.md` R40); a 4-component image has no output. -/
def Setup.outSize (u : Setup) : Nat :=
  if u.numComps = 1 then u.w * u.ht else if u.numComps = 3 then 3 * (u.w * u.ht) else 0

/-- `Σ_c PW_c·PH_c` (R144 step 9). -/
def Setup.planesSize (u : Setup) : Nat := (u.comps.map fun c => u.planeW c * u.planeH c).sum

/-- The planes, the full-resolution planes and the output fit a memory of the given capacity (R44, R144 step 9). -/
def Setup.fits (u : Setup) (cap : Option Nat) : Bool :=
  match cap with
  | none => true
  | some n =>
    decide (u.planesSize ≤ n) && decide (u.numComps * (u.w * u.ht) ≤ n) && decide (u.outSize ≤ n)

/-- `MCUDIM` as the host reads it: `MCUX`, `MCUY`, or 0 where R23 does not apply (R16). -/
def Setup.mcuDim (u : Setup) : Word :=
  if u.countOk && u.factorsOk then BitVec.ofNat 32 (u.mcuX + u.mcuY * 2 ^ 16) else 0

/-- The pixels of the image, row by row (R43). -/
def Setup.pixels (u : Setup) : List (Nat × Nat) :=
  (List.range u.ht).flatMap fun y => (List.range u.w).map fun x => (y, x)

end Sys2Proof.Machine
end

