-- ==== Sys2Proof/Machine/Recon.lean ====
section
/-! DEFINITION. The block reconstructor BRC (`spec/43_block_reconstructor.md`): quantization tables, dequantizer,
de-zigzag, inverse DCT, level shift and clamp, tile placement, and the meanings of QT.LOAD, DQ.MUL, ZZ.SCAT, IDCT.2D,
LS.CLAMP and BLK.RECON. -/

namespace Sys2Proof.Machine

/-- `clamp(lo, hi, v)` (`spec/00_scope.md` section 4). -/
def clamp (lo hi v : Int) : Int := if v < lo then lo else if hi < v then hi else v

/-- A clamped sample as a byte. -/
def sampleByte (v : Int) : Byte := BitVec.ofInt 8 (clamp 0 255 v)

/-- `QT[id]`. -/
def Tables.quant (t : Tables) (id : Fin 16) : Option (Block (BitVec 16)) := t.qt[id]

/-- Replace `QT[id]`. -/
def Tables.setQuant (t : Tables) (id : Fin 16) (q : Block (BitVec 16)) : Tables :=
  { t with qt := t.qt.set id (some q) }

/-- The 64 entries of a definition at an address: one byte each, or two, high byte first (`spec/30_encoding.md` R75,
R160). -/
def entriesAt (b : Input) (a : Nat) (wide : Bool) : Block (BitVec 16) :=
  Vector.ofFn fun i => if wide then b.word16 (a + 2 * i.val) else (b.byte (a + i.val)).setWidth 16

/-- Bytes in a definition: `64·w` (R160). -/
def entryBytes (wide : Bool) : Nat := if wide then 128 else 64

/-- The body of QT.LOAD (R160). -/
def loadQuant (wide : Bool) (id : Fin 16) (s : State) : Res State Unit :=
  if s.tableBuf.len < s.arg.toNat + entryBytes wide then .raised .malformedSegment s
  else
    .ok () (setResult (BitVec.ofNat 32 (entryBytes wide))
      { s with tables := s.tables.setQuant id (entriesAt s.tableBuf s.arg.toNat wide) })

/-- QT.LOAD `prec, id` (R160). -/
def execQtLoad (prec id : Byte) (s : State) : Host.Outcome State Fault Refusal :=
  command (fun s => precisionOk prec && tableIdOk id && s.manual)
    (loadQuant (prec != 0) (slotIndex id)) s

/-- `COEF[i]·Q[i]`, signed by unsigned, exact (R161). -/
def dequantize (coef q : Block (BitVec 16)) : Block Word :=
  Vector.ofFn fun i => BitVec.ofInt 32 (coef[i].toInt * (q[i].toNat : Int))

/-- The zigzag table `ZZ` (R163). -/
def zigzag : Block (Fin 64) :=
  #v[ 0,  1,  8, 16,  9,  2,  3, 10,
     17, 24, 32, 25, 18, 11,  4,  5,
     12, 19, 26, 33, 40, 48, 41, 34,
     27, 20, 13,  6,  7, 14, 21, 28,
     35, 42, 49, 56, 57, 50, 43, 36,
     29, 22, 15, 23, 30, 37, 44, 51,
     58, 59, 52, 45, 38, 31, 39, 46,
     53, 60, 61, 54, 47, 55, 62, 63]

/-- `ZZ[i]`. -/
def zz (i : Fin 64) : Fin 64 := zigzag[i]

/-- `for i = 0 to 63: NAT[ZZ[i]] <- DEQ[i]` (R164). -/
def scatter (deq nat : Block Word) : Block Word :=
  (List.finRange 64).foldl (fun m i => m.set (zz i) deq[i]) nat

/-- The constants `K[u][x]` (R166). -/
def kernelRows : Vector (Vector Int 8) 8 :=
  #v[#v[2896, 2896, 2896, 2896, 2896, 2896, 2896, 2896],
     #v[4017, 3406, 2276, 799, -799, -2276, -3406, -4017],
     #v[3784, 1567, -1567, -3784, -3784, -1567, 1567, 3784],
     #v[3406, -799, -4017, -2276, 2276, 4017, 799, -3406],
     #v[2896, -2896, -2896, 2896, 2896, -2896, -2896, 2896],
     #v[2276, -4017, 799, 3406, -3406, -799, 4017, -2276],
     #v[1567, -3784, 3784, -1567, -1567, 3784, -3784, 1567],
     #v[799, -2276, 3406, -4017, 4017, -3406, 2276, -799]]

/-- `K[u][x]` (R166). -/
def kernel (u x : Fin 8) : Int := kernelRows[u][x]

/-- The index `8·row + col` of a block. -/
def cell (row col : Fin 8) : Fin 64 := ⟨8 * row.val + col.val, by omega⟩

/-- The row of an index of a block. -/
def rowOf (i : Fin 64) : Fin 8 := ⟨i.val / 8, by omega⟩

/-- The column of an index of a block. -/
def colOf (i : Fin 64) : Fin 8 := ⟨i.val % 8, by omega⟩

/-- A sum over the eight indices 0..7. -/
def sum8 (f : Fin 8 → Int) : Int := f 0 + f 1 + f 2 + f 3 + f 4 + f 5 + f 6 + f 7

/-- Pass 1: `T[v][x] = Σ_u K[u][x]·NAT[8·v + u]` (R166). -/
def idctRows (nat : Block Word) : Block Int :=
  Vector.ofFn fun i => sum8 fun u => kernel u (colOf i) * nat[cell (rowOf i) u].toInt

/-- Pass 2: `ACC[8·y + x] = Σ_v K[v][y]·T[v][x]` (R166). -/
def idctCols (t : Block Int) : Block Int :=
  Vector.ofFn fun i => sum8 fun v => kernel v (rowOf i) * t[cell v (colOf i)]

/-- `idct2d()` (R166): exact integers, held in 64 bits. -/
def idct2d (nat : Block Word) : Block (BitVec 64) :=
  Vector.ofFn fun i => BitVec.ofInt 64 (idctCols (idctRows nat))[i]

/-- `ls(a)` (R168): nearest integer of `a / 2^26`, a tie going up, then `+128`, then the clamp. -/
def levelShift (a : Int) : Byte := sampleByte (128 + (a + 2 ^ 25) / 2 ^ 26)

/-- `TILE[i] <- ls(ACC[i])` (R169). -/
def levelShiftAll (acc : Block (BitVec 64)) : Block Byte :=
  Vector.ofFn fun i => levelShift acc[i].toInt

/-- DQ: `COEF` to `DEQ` (R161). -/
def Buffers.dequantized (f : Buffers) (q : Block (BitVec 16)) : Buffers := { f with deq := dequantize f.coef q }

/-- ZZ: `DEQ` to `NAT` (R164). -/
def Buffers.scattered (f : Buffers) : Buffers := { f with nat := scatter f.deq f.nat }

/-- IDCT: `NAT` to `ACC` (R166). -/
def Buffers.transformed (f : Buffers) : Buffers := { f with acc := idct2d f.nat }

/-- LS: `ACC` to `TILE` (R168). -/
def Buffers.shifted (f : Buffers) : Buffers := { f with tile := levelShiftAll f.acc }

/-- The four steps of `recon` after its table check (R170). -/
def Buffers.reconstructed (f : Buffers) (q : Block (BitVec 16)) : Buffers :=
  (f.dequantized q).scattered.transformed.shifted

/-- `recon(c)` (R170). -/
def recon (c : Fin 4) (s : State) : Res State Unit :=
  match s.tables.quant (slotOfId s.setup.comp[c].tq) with
  | none => .raised .undefinedTableReference s
  | some q => .ok () { s with buf := s.buf.reconstructed q }

/-- The writes of `tile_put(c, bx, by)` (R172). -/
def tileCells (width bx by' : Nat) (tile : Block Byte) : List Host.Cell :=
  (List.finRange 64).map fun i => (tileAddress width bx by' (rowOf i).val (colOf i).val, tile[i])

/-- `tile_put(c, bx, by)` (R172). -/
def tilePut (c : Fin 4) (bx by' : Nat) (s : State) : State :=
  { s with mem := { s.mem with
      plane := s.mem.plane.set c (s.mem.plane[c].writeAll (tileCells (s.setup.planeW c) bx by' s.buf.tile)) } }

/-- The body of DQ.MUL (R162). -/
def multiplyBy (id : Fin 16) (s : State) : Res State Unit :=
  match s.tables.quant id with
  | none => .raised .undefinedTableReference s
  | some q => .ok () { s with buf := s.buf.dequantized q }

/-- DQ.MUL `id` (R162). -/
def execDqMul (id : Byte) (s : State) : Host.Outcome State Fault Refusal :=
  command (fun s => tableIdOk id && s.manual) (multiplyBy (slotIndex id)) s

/-- ZZ.SCAT (R164). -/
def execZzScat (s : State) : Host.Outcome State Fault Refusal :=
  command State.manual (fun s => .ok () { s with buf := s.buf.scattered }) s

/-- IDCT.2D (R167). -/
def execIdct2d (s : State) : Host.Outcome State Fault Refusal :=
  command State.manual (fun s => .ok () { s with buf := s.buf.transformed }) s

/-- LS.CLAMP (R169). -/
def execLsClamp (s : State) : Host.Outcome State Fault Refusal :=
  command State.manual (fun s => .ok () { s with buf := s.buf.shifted }) s

/-- BLK.RECON `comp` (R171). -/
def execBlkRecon (comp : Byte) (s : State) : Host.Outcome State Fault Refusal :=
  command (fun s => componentOk comp && s.manual) (recon (componentIndex comp)) s

end Sys2Proof.Machine
end

