-- ==== Sys2Proof/Machine/Color.lean ====
section
/-! DEFINITION. The chroma upsampler UP and the colour converter CC (`spec/44_upsample_color.md`), and the meanings of
UP.RUN, CC.RUN and CC.PIX. -/

namespace Sys2Proof.Machine

/-- The writes of `upsample(c)`: every pixel from the plane sample that covers it (R180). -/
def upsampleCells (c : Fin 4) (s : State) : List Host.Cell :=
  s.setup.pixels.map fun p =>
    (pixelAddress s.setup.w p.1 p.2,
      s.planeByte c (scaledAddress (s.setup.planeW c) (s.setup.vOf c) s.setup.vMax
        (s.setup.hOf c) s.setup.hMax p.1 p.2))

/-- `upsample(c)` and `FULLV[c] <- 1` (R181). -/
def upsample (c : Fin 4) (s : State) : State :=
  { s with
    mem := { s.mem with full := s.mem.full.set c (s.mem.full[c].writeAll (upsampleCells c s)) }
    status := { s.status with fullv := s.status.fullv.set c true } }

/-- UP.RUN `comp` (R181). -/
def execUpRun (comp : Byte) (s : State) : Host.Outcome State Fault Refusal :=
  command
    (fun s => componentOk comp && s.manual && s.status.done && decide (comp.toNat < s.setup.numComps))
    (fun s => .ok () (upsample (componentIndex comp) s)) s

/-- `ycc2rgb(Y, Cb, Cr)` (R184). -/
def ycc2rgb (y cb cr : Byte) : Byte × Byte × Byte :=
  let yy : Int := (y.toNat : Int)
  let db : Int := (cb.toNat : Int) - 128
  let dr : Int := (cr.toNat : Int) - 128
  (sampleByte ((1000000 * yy + 1402000 * dr + 500000) / 1000000),
   sampleByte ((1000000 * yy - 344136 * db - 714136 * dr + 500000) / 1000000),
   sampleByte ((1000000 * yy + 1772000 * db + 500000) / 1000000))

/-- `r + g·2^8 + b·2^16` (R185). -/
def packRgb (c : Byte × Byte × Byte) : Word := (0 : Byte) ++ c.2.2 ++ c.2.1 ++ c.1

/-- CC.PIX (R185). -/
def execCcPix (s : State) : Host.Outcome State Fault Refusal :=
  command (fun _ => true)
    (fun s => .ok () (setResult (packRgb (ycc2rgb (argY s.arg) (argCb s.arg) (argCr s.arg))) s)) s

/-- The bytes of one pixel of `OUT`: the sample itself for one component (R187), else R, G, B in that order (R186,
`spec/20_memory.md` R43). -/
def outCells (s : State) (p : Nat × Nat) : List Host.Cell :=
  let a := pixelAddress s.setup.w p.1 p.2
  if s.setup.numComps = 1 then [(a, s.fullByte 0 a)]
  else
    let c := ycc2rgb (s.fullByte 0 a) (s.fullByte 1 a) (s.fullByte 2 a)
    [(3 * a, c.1), (3 * a + 1, c.2.1), (3 * a + 2, c.2.2)]

/-- The body of CC.RUN (R186). -/
def assembleOutput (s : State) : Res State Unit :=
  if s.setup.numComps = 4 then .raised .unsupportedComponentLayout s
  else
    .ok () { s with
      mem := { s.mem with out := s.mem.out.writeAll (s.setup.pixels.flatMap (outCells s)) }
      status := { s.status with outv := true } }

/-- `FULLV[c] = 1` for every `c < NCOMP` (R186). -/
def State.allFull (s : State) : Bool := s.setup.comps.all fun c => s.status.fullv[c]

/-- CC.RUN (R186). -/
def execCcRun (s : State) : Host.Outcome State Fault Refusal :=
  command (fun s => s.manual && s.status.done && s.allFull) assembleOutput s

end Sys2Proof.Machine
end

