-- ==== Sys2Proof/Machine/Control.lean ====
section
/-! DEFINITION. The control commands NOP and RESET (`spec/45_control_and_host.md` R200, R201). -/

namespace Sys2Proof.Machine

/-- NOP: no action, in every mode (R200). -/
def execNop (s : State) : Host.Outcome State Fault Refusal := command (fun _ => true) (fun s => .ok () s) s

/-- RESET: accepted in every mode and while faulted (R201). -/
def execReset (s : State) : Host.Outcome State Fault Refusal := .next (resetBlock s)

end Sys2Proof.Machine
end

