-- ==== Sys2Proof/Machine/BitReader.lean ====
section
/-! DEFINITION. The bit reader BR (`spec/40_bit_reader.md`): the functions of R91 to R96 over the input buffer and the
reader's own registers, and the meanings of BR.INIT, BR.BIT, BR.BITS and BR.ALIGN. -/

namespace Sys2Proof.Machine

/-- The three outcomes of a request for bits (R90). -/
inductive BitResult (α : Type) where
  | got (value : α)
  | marker
  | endOfData
  deriving DecidableEq, Repr

/-- Change the value delivered, if one is. -/
def BitResult.map {α β : Type} (f : α → β) : BitResult α → BitResult β
  | .got a => .got (f a)
  | .marker => .marker
  | .endOfData => .endOfData

/-- `fetch_byte()`, called only when `CNT = 0` (R91, R92). -/
def fetchByte (b : Input) (r : Stream) : BitResult Unit × Stream :=
  if r.markf then (.marker, r)
  else if b.len ≤ r.pos.toNat then (.endOfData, r)
  else if b.byte r.pos.toNat ≠ 0xFF then
    (.got (), { r with cur := b.byte r.pos.toNat, cnt := 8, pos := r.pos + 1 })
  else if b.len ≤ r.pos.toNat + 1 then (.endOfData, r)
  else if b.byte (r.pos.toNat + 1) = 0x00 then (.got (), { r with cur := 0xFF, cnt := 8, pos := r.pos + 2 })
  else (.marker, { r with markf := true, markc := b.byte (r.pos.toNat + 1) })

/-- Deliver the next bit of `CUR` when `CNT > 0`: `CNT <- CNT − 1`, then bit `CUR[CNT]` (R93). -/
def deliverBit (r : Stream) : Bool × Stream :=
  (r.cur.getLsbD (r.cnt.val - 1), { r with cnt := ⟨r.cnt.val - 1, by omega⟩ })

/-- `next_bit()` (R93). -/
def nextBit (b : Input) (r : Stream) : BitResult Bool × Stream :=
  if r.cnt = 0 then
    match fetchByte b r with
    | (.got (), r') => (.got (deliverBit r').1, (deliverBit r').2)
    | (.marker, r') => (.marker, r')
    | (.endOfData, r') => (.endOfData, r')
  else (.got (deliverBit r).1, (deliverBit r).2)

/-- The loop of `next_bits`: `n` more bits after the value `v` (R94). -/
def nextBitsFrom (b : Input) : (n : Nat) → (v : Nat) → Stream → BitResult Nat × Stream
  | 0, v, r => (.got v, r)
  | n + 1, v, r =>
    match nextBit b r with
    | (.got bit, r') => nextBitsFrom b n (2 * v + bit.toNat) r'
    | (.marker, r') => (.marker, r')
    | (.endOfData, r') => (.endOfData, r')

/-- `next_bits(n)`: first bit most significant; bits taken before a failure stay taken (R94). -/
def nextBits (b : Input) (n : Nat) (r : Stream) : BitResult Nat × Stream := nextBitsFrom b n 0 r

/-- `align()`: the undelivered bits of `CUR` are dropped (R95). -/
def alignStream (r : Stream) : Stream := { r with cnt := 0 }

/-- The decoders' form of a request: both non-bit outcomes are `UnexpectedEndOfStream` (R96). -/
def needed {α : Type} : BitResult α × Stream → Res Stream α
  | (.got a, r) => .ok a r
  | (.marker, r) => .raised .unexpectedEndOfStream r
  | (.endOfData, r) => .raised .unexpectedEndOfStream r

/-- `need_bit()` (R96). -/
def needBit (b : Input) (r : Stream) : Res Stream Bool := needed (nextBit b r)

/-- `need_bits(n)` (R96). -/
def needBits (b : Input) (n : Nat) (r : Stream) : Res Stream Nat := needed (nextBits b n r)

/-- The marker report `0x80000000 + MARKC` (`spec/30_encoding.md` R66). -/
def markerReport (markc : Byte) : Word := 0x80000000#32 ||| markc.setWidth 32

/-- The host's form of a request: a value or the marker report in `RESULT`; the end of the data is a fault
(R98, R99, `spec/60_exceptions.md` R230). -/
def reportBits (s : State) : BitResult Nat × Stream → Res State Unit
  | (.got v, r) => .ok () (setResult (BitVec.ofNat 32 v) { s with stream := r })
  | (.marker, r) => .ok () (setResult (markerReport r.markc) { s with stream := r })
  | (.endOfData, r) => .raised .unexpectedEndOfStream { s with stream := r }

/-- Start of a stream at `ARG`: the actions of R97. From here on the host must not change `IN`
(`spec/20_memory.md` R56). -/
def startStream (s : State) : State :=
  { s with
    watch := InputWatch.reset
    stream := { pos := s.arg, cur := 0, cnt := 0, markf := false, markc := 0, brv := true }
    walk := { s.walk with pred := Vector.replicate 4 0, mcucnt := 0, rstexp := 0 } }

/-- `ARG ≤ IN_LEN` (R97, R144 step 1). -/
def State.argInBuffer (s : State) : Bool := decide (s.arg.toNat ≤ s.setup.inLen.toNat)

/-- BR.INIT (R97). -/
def execBrInit (s : State) : Host.Outcome State Fault Refusal :=
  command (fun s => s.manual && s.argInBuffer) (fun s => .ok () (startStream s)) s

/-- BR.BIT (R98). -/
def execBrBit (s : State) : Host.Outcome State Fault Refusal :=
  command State.manualStream (fun s =>
    reportBits s ((nextBit s.inBuf s.stream).1.map Bool.toNat, (nextBit s.inBuf s.stream).2)) s

/-- BR.BITS `n` (R99). -/
def execBrBits (n : Byte) (s : State) : Host.Outcome State Fault Refusal :=
  command (fun s => bitCountOk n && s.manualStream)
    (fun s => reportBits s (nextBits s.inBuf n.toNat s.stream)) s

/-- BR.ALIGN (R100). -/
def execBrAlign (s : State) : Host.Outcome State Fault Refusal :=
  command State.manualStream (fun s => .ok () { s with stream := alignStream s.stream }) s

end Sys2Proof.Machine
end

