-- ==== Sys2Proof/Machine/Huffman.lean ====
section
/-! DEFINITION. The Huffman table unit HT (`spec/41_huffman_table.md`): building a table (R112, R113), decoding one
symbol (R116), and the meanings of HT.LOAD and HT.DEC. -/

namespace Sys2Proof.Machine

/-- The loop of `build` (R112): for each count from length `l` on, `FIRST` and `OFFSET`, given the running `code`
and `k`; `none` where `code + L[l] > 2^l` (R113 check 4). -/
def buildRows : (counts : List Nat) → (l code k : Nat) → Option (List (Nat × Nat))
  | [], _, _, _ => some []
  | n :: counts, l, code, k =>
    if 2 ^ l < code + n then none
    else (buildRows counts (l + 1) (2 * (code + n)) (k + n)).map fun rows => (code, k) :: rows

/-- `L[1..16]` as numbers. -/
def countList (counts : Vector Byte 16) : List Nat := counts.toList.map BitVec.toNat

/-- `NSYM = L[1] + … + L[16]` (`spec/10_state.md` R21). -/
def symbolCount (counts : Vector Byte 16) : Nat := (countList counts).sum

/-- `build(L[1..16])` with the given symbols (R112). -/
def buildTable (counts : Vector Byte 16) (sym : List Byte) : Option HuffTable :=
  (buildRows (countList counts) 1 0 0).map fun rows =>
    { counts := counts, nsym := symbolCount counts, sym := sym
      first := Vector.ofFn fun l => (rows.getD l.val (0, 0)).1
      offset := Vector.ofFn fun l => (rows.getD l.val (0, 0)).2 }

/-- The loop of `decode_symbol` (R116) with `fuel` lengths left: `code` holds the `16 − fuel` bits read. The entry for
the length just read stands at position `16 − fuel` of the vectors. -/
def decodeSymbolFrom (b : Input) (t : HuffTable) : (fuel : Nat) → (code : Nat) → Stream → Res Stream Byte
  | 0, _, r => .raised .invalidHuffmanCode r
  | fuel + 1, code, r =>
    (needBit b r).bind fun bit r' =>
      let code' := 2 * code + bit.toNat
      let l := Fin.ofNat 16 (15 - fuel)
      if t.first[l] ≤ code' ∧ code' - t.first[l] < (t.counts[l]).toNat then
        .ok (t.sym.getD (t.offset[l] + (code' - t.first[l])) 0) r'
      else decodeSymbolFrom b t fuel code' r'

/-- `decode_symbol` in a slot (R116): a slot never loaded raises `UndefinedTableReference`. -/
def decodeSymbol (b : Input) (slot : Option HuffTable) (r : Stream) : Res Stream Byte :=
  match slot with
  | none => .raised .undefinedTableReference r
  | some t => decodeSymbolFrom b t 16 0 r

/-- `HT[cl][id]`. -/
def Tables.huff (t : Tables) (cl : Fin 2) (id : Fin 16) : Option HuffTable := t.ht[cl][id]

/-- Replace `HT[cl][id]`. -/
def Tables.setHuff (t : Tables) (cl : Fin 2) (id : Fin 16) (slot : HuffTable) : Tables :=
  { t with ht := t.ht.set cl (t.ht[cl].set id (some slot)) }

/-- The 16 count bytes of a definition at an address (`spec/30_encoding.md` R74). -/
def countsAt (b : Input) (a : Nat) : Vector Byte 16 := Vector.ofFn fun l => b.byte (a + l.val)

/-- The symbol bytes of a definition at an address (R74). -/
def symbolsAt (b : Input) (a n : Nat) : List Byte := (List.range n).map fun j => b.byte (a + 16 + j)

/-- The definition at `ARG`, checked in the order of R113. -/
def readDefinition (b : Input) (a : Nat) : Option HuffTable :=
  if b.len < a + 16 then none
  else if 256 < symbolCount (countsAt b a) then none
  else if b.len < a + 16 + symbolCount (countsAt b a) then none
  else buildTable (countsAt b a) (symbolsAt b a (symbolCount (countsAt b a)))

/-- The body of HT.LOAD (R114). -/
def loadHuffman (cl : Fin 2) (id : Fin 16) (s : State) : Res State Unit :=
  match readDefinition s.tableBuf s.arg.toNat with
  | none => .raised .malformedSegment s
  | some t =>
    .ok () (setResult (BitVec.ofNat 32 (16 + t.nsym)) { s with tables := s.tables.setHuff cl id t })

/-- HT.LOAD `cl, id` (R114). -/
def execHtLoad (cl id : Byte) (s : State) : Host.Outcome State Fault Refusal :=
  command (fun s => classOk cl && tableIdOk id && s.manual) (loadHuffman (classIndex cl) (slotIndex id)) s

/-- The body of HT.DEC (R117). -/
def decodeToResult (cl : Fin 2) (id : Fin 16) (s : State) : Res State Unit :=
  ((decodeSymbol s.inBuf (s.tables.huff cl id) s.stream).onStream s).bind fun sym t =>
    .ok () (setResult (sym.setWidth 32) t)

/-- HT.DEC `cl, id` (R117). -/
def execHtDec (cl id : Byte) (s : State) : Host.Outcome State Fault Refusal :=
  command (fun s => classOk cl && tableIdOk id && s.manualStream)
    (decodeToResult (classIndex cl) (slotIndex id)) s

end Sys2Proof.Machine
end

