-- ==== Sys2Proof/Machine/Entropy.lean ====
section
/-! DEFINITION. The entropy decoder ED (`spec/42_entropy_decoder.md`): sign extension, one block, restart, one MCU, a
whole scan, and the meanings of ED.RCVX, ED.DC, ED.AC, ED.BLOCK, ED.RST, ED.MCU, ED.SCAN, SCAN.START, SCAN.END. -/

namespace Sys2Proof.Machine

/-- `extend(v, s)` (R130). -/
def extend (v s : Nat) : Int :=
  if s = 0 then 0 else if v < 2 ^ (s - 1) then (v : Int) - (2 ^ s - 1) else v

/-- `receive_extend(s)` (R131). -/
def receiveExtend (b : Input) (s : Nat) (r : Stream) : Res Stream Int :=
  (needBits b s r).map fun v => extend v s

/-- The body of ED.RCVX (R132). -/
def receiveToResult (n : Nat) (s : State) : Res State Unit :=
  ((receiveExtend s.inBuf n s.stream).onStream s).bind fun v t => .ok () (setResult (BitVec.ofInt 32 v) t)

/-- ED.RCVX `n` (R132). -/
def execEdRcvx (n : Byte) (s : State) : Host.Outcome State Fault Refusal :=
  command (fun s => categoryOk n && s.manualStream) (receiveToResult n.toNat) s

/-- `PRED[c] <- v; COEF[0] <- v` (R133). -/
def storeDc (c : Fin 4) (v : Int) (s : State) : State :=
  { s with
    walk := { s.walk with pred := s.walk.pred.set c (BitVec.ofInt 16 v) }
    buf := { s.buf with coef := s.buf.coef.set 0 (BitVec.ofInt 16 v) } }

/-- `decode_dc(c)` (R133). -/
def decodeDc (c : Fin 4) (s : State) : Res State Int :=
  ((decodeSymbol s.inBuf (s.tables.huff 0 (slotOfId s.setup.comp[c].td)) s.stream).onStream s).bind
    fun sym s1 =>
      if 11 < sym.toNat then .raised .invalidHuffmanCode s1
      else ((receiveExtend s1.inBuf sym.toNat s1.stream).onStream s1).bind fun d s2 =>
        let v := s2.walk.pred[c].toInt + d
        if v < -32768 ∨ 32767 < v then .raised .rangeFault s2 else .ok v (storeDc c v s2)

/-- ED.DC `comp` (R134). -/
def execEdDc (comp : Byte) (s : State) : Host.Outcome State Fault Refusal :=
  command (fun s => componentOk comp && s.manualStream)
    (fun s => (decodeDc (componentIndex comp) s).bind fun v t => .ok () (setResult (BitVec.ofInt 32 v) t)) s

/-- `COEF[k] <- v`, `k ≤ 63` (R135). -/
def storeCoef (k : Fin 64) (v : Int) (s : State) : State :=
  { s with buf := { s.buf with coef := s.buf.coef.set k (BitVec.ofInt 16 v) } }

/-- What one AC symbol makes of the position `k` (R135). -/
inductive AcStep where
  /-- EOB. -/
  | stop
  /-- ZRL: go on at `next`. -/
  | skip (next : Nat)
  /-- A coefficient of category `size` at position `at'`. -/
  | coefficient (at' : Fin 64) (size : Nat)
  | fault (kind : FaultKind)
  deriving DecidableEq, Repr

/-- The checks on an AC symbol at position `k`, in the order of R135. -/
def acStep (sym : Byte) (k : Nat) : AcStep :=
  let r := (sym.extractLsb' 4 4).toNat
  let s := (sym.extractLsb' 0 4).toNat
  if s = 0 then
    if r = 0 then .stop
    else if r = 15 then (if 64 < k + 16 then .fault .blockOverflow else .skip (k + 16))
    else .fault .invalidHuffmanCode
  else if 11 < s then .fault .invalidHuffmanCode
  else if h : k + r < 64 then .coefficient ⟨k + r, h⟩ s
  else .fault .blockOverflow

/-- The loop of `decode_ac` from position `k` (R135). Every pass moves `k` on, so 64 passes are enough:
`Sys2Proof.Laws.decodeAcFrom_fuel`. -/
def decodeAcFrom (slot : Option HuffTable) : (fuel : Nat) → (k : Nat) → State → Res State Nat
  | 0, k, s => .ok k s
  | fuel + 1, k, s =>
    if 63 < k then .ok k s
    else ((decodeSymbol s.inBuf slot s.stream).onStream s).bind fun sym s1 =>
      match acStep sym k with
      | .stop => .ok k s1
      | .skip next => decodeAcFrom slot fuel next s1
      | .fault kind => .raised kind s1
      | .coefficient at' size =>
        ((receiveExtend s1.inBuf size s1.stream).onStream s1).bind fun v s2 =>
          decodeAcFrom slot fuel (at'.val + 1) (storeCoef at' v s2)

/-- A block with every AC coefficient 0. -/
def dcOnly (coef : Block (BitVec 16)) : Block (BitVec 16) := (Vector.replicate 64 0).set 0 coef[0]

/-- `for i = 1 to 63: COEF[i] <- 0` (R135). -/
def clearAc (s : State) : State := { s with buf := { s.buf with coef := dcOnly s.buf.coef } }

/-- `for i = 0 to 63: COEF[i] <- 0` (R137). -/
def clearCoef (s : State) : State := { s with buf := { s.buf with coef := Vector.replicate 64 0 } }

/-- `decode_ac(c)` (R135). -/
def decodeAc (c : Fin 4) (s : State) : Res State Nat :=
  decodeAcFrom (s.tables.huff 1 (slotOfId s.setup.comp[c].ta)) 64 1 (clearAc s)

/-- ED.AC `comp` (R136). -/
def execEdAc (comp : Byte) (s : State) : Host.Outcome State Fault Refusal :=
  command (fun s => componentOk comp && s.manualStream)
    (fun s => (decodeAc (componentIndex comp) s).bind fun k t => .ok () (setResult (BitVec.ofNat 32 k) t)) s

/-- `decode_block(c)`: clear, DC, AC, in that order (R137). -/
def decodeBlock (c : Fin 4) (s : State) : Res State Nat :=
  (decodeDc c (clearCoef s)).bind fun _ t => decodeAc c t

/-- ED.BLOCK `comp` (R138). -/
def execEdBlock (comp : Byte) (s : State) : Host.Outcome State Fault Refusal :=
  command (fun s => componentOk comp && s.manualStream)
    (fun s => (decodeBlock (componentIndex comp) s).bind fun k t => .ok () (setResult (BitVec.ofNat 32 k) t)) s

/-- The two bytes at `POS` are `RSTm` with `m = RSTEXP` (R140, `spec/30_encoding.md` R68). -/
def restartMarkerAt (b : Input) (pos : Nat) (m : BitVec 3) : Bool :=
  decide (pos + 1 < b.len) && b.byte pos == 0xFF && (b.byte (pos + 1)).toNat == 0xD0 + m.toNat

/-- The actions of `restart_sync()` once the marker has been found (R140). -/
def consumeRestart (s : State) : State :=
  { s with
    stream := { s.stream with pos := s.stream.pos + 2, markf := false, markc := 0 }
    walk := { s.walk with pred := Vector.replicate 4 0, mcucnt := 0, rstexp := s.walk.rstexp + 1 } }

/-- `restart_sync()`; its value is the index of the marker consumed (R140). -/
def restartSync (s : State) : Res State (BitVec 3) :=
  let t := { s with stream := alignStream s.stream }
  if restartMarkerAt t.inBuf t.stream.pos.toNat t.walk.rstexp then .ok t.walk.rstexp (consumeRestart t)
  else .raised .restartSyncError t

/-- ED.RST (R141). -/
def execEdRst (s : State) : Host.Outcome State Fault Refusal :=
  command State.manualStream
    (fun s => (restartSync s).bind fun m t => .ok () (setResult (m.setWidth 32) t)) s

/-- The blocks of the MCU at column `mx`, row `my`: component, block column, block row, in the order of R142. -/
def Setup.mcuBlocks (u : Setup) (mx my : Nat) : List (Fin 4 × Nat × Nat) :=
  u.comps.flatMap fun c =>
    (List.range (u.vOf c)).flatMap fun v =>
      (List.range (u.hOf c)).map fun h => (c, mx * u.hOf c + h, my * u.vOf c + v)

/-- Decode, reconstruct and place one block (R143). -/
def placeBlock (blk : Fin 4 × Nat × Nat) (s : State) : Res State Unit :=
  (decodeBlock blk.1 s).bind fun _ t => (recon blk.1 t).bind fun _ t' => .ok () (tilePut blk.1 blk.2.1 blk.2.2 t')

/-- The blocks of an MCU one after the other. -/
def placeBlocks : List (Fin 4 × Nat × Nat) → State → Res State Unit
  | [], s => .ok () s
  | blk :: rest, s => (placeBlock blk s).bind fun _ t => placeBlocks rest t

/-- A restart is due before the next MCU: `RI ≠ 0` and `MCUCNT = RI` (R143). -/
def State.restartDue (s : State) : Bool :=
  s.setup.ri != 0 && s.walk.mcucnt == s.setup.ri.setWidth 32

/-- The restart step of ED.MCU (R143). -/
def restartIfDue (s : State) : Res State Unit :=
  if s.restartDue then (restartSync s).map (fun _ => ()) else .ok () s

/-- `MCUCNT <- MCUCNT + 1; MCUIDX <- MCUIDX + 1; RESULT <- MCUIDX` (R143). -/
def countMcu (s : State) : State :=
  setResult (s.walk.mcuidx + 1)
    { s with walk := { s.walk with mcucnt := s.walk.mcucnt + 1, mcuidx := s.walk.mcuidx + 1 } }

/-- The body of ED.MCU after its `require` line (R143). -/
def mcuBody (s : State) : Res State Unit :=
  (restartIfDue s).bind fun _ t =>
    (placeBlocks
      (t.setup.mcuBlocks (t.walk.mcuidx.toNat % t.setup.mcuX) (t.walk.mcuidx.toNat / t.setup.mcuX)) t).bind
      fun _ t' => .ok () (countMcu t')

/-- ED.MCU (R143). -/
def execEdMcu (s : State) : Host.Outcome State Fault Refusal :=
  command (fun s => s.status.scan && decide (s.walk.mcuidx.toNat < s.setup.nmcu)) mcuBody s

/-- The body of SCAN.END after its `require` line (R146); it ends the decode (`spec/70_reset_and_hazards.md` R263). -/
def scanEndBody (s : State) : Res State Unit :=
  let t := { s with stream := alignStream s.stream }
  let pos := t.stream.pos.toNat
  if t.inBuf.len ≤ pos + 1 then .raised .unexpectedEndOfStream t
  else if t.inBuf.byte pos ≠ 0xFF ∨ t.inBuf.byte (pos + 1) = 0x00 then .raised .malformedSegment t
  else
    .ok () (setResult ((t.inBuf.byte (pos + 1)).setWidth 32)
      { t with
        stream := { t.stream with markf := true, markc := t.inBuf.byte (pos + 1) }
        status := { t.status with scan := false, done := true }
        watch := { t.watch with ended := true } })

/-- SCAN.END (R146). -/
def execScanEnd (s : State) : Host.Outcome State Fault Refusal :=
  command (fun s => s.status.scan && decide (s.walk.mcuidx.toNat = s.setup.nmcu)) scanEndBody s

/-- `n` MCUs one after the other (R145). -/
def mcus : Nat → State → Res State Unit
  | 0, s => .ok () s
  | n + 1, s => (mcuBody s).bind fun _ t => mcus n t

/-- The body of ED.SCAN: the `NMCU − MCUIDX` MCUs left, then SCAN.END (R145). -/
def scanBody (s : State) : Res State Unit :=
  (mcus (s.setup.nmcu - s.walk.mcuidx.toNat) s).bind fun _ t => scanEndBody t

/-- ED.SCAN (R145). -/
def execEdScan (s : State) : Host.Outcome State Fault Refusal :=
  command (fun s => s.status.scan) scanBody s

/-- Some `c < NCOMP` names an unloaded quantization table (R144 step 7). -/
def State.quantMissing (s : State) : Bool :=
  s.setup.comps.any fun c => (s.tables.quant (slotOfId s.setup.comp[c].tq)).isNone

/-- Some `c < NCOMP` names an unloaded Huffman table (R144 step 8). -/
def State.huffMissing (s : State) : Bool :=
  s.setup.comps.any fun c =>
    (s.tables.huff 0 (slotOfId s.setup.comp[c].td)).isNone
      || (s.tables.huff 1 (slotOfId s.setup.comp[c].ta)).isNone

/-- Steps 2 to 9 of SCAN.START: the first failing check's fault, if any (R144). -/
def State.scanProblem (s : State) : Option FaultKind :=
  if s.setup.proc ≠ 0 then some .unsupportedCodingProcess
  else if !s.setup.countOk then some .unsupportedComponentLayout
  else if s.setup.width = 0 ∨ s.setup.height = 0 then some .malformedSegment
  else if !s.setup.factorsOk then some .malformedSegment
  else if !s.setup.ratiosOk then some .unsupportedComponentLayout
  else if s.quantMissing then some .undefinedTableReference
  else if s.huffMissing then some .undefinedTableReference
  else if !s.setup.fits s.memCap then some .protocolFault
  else none

/-- Step 10 of SCAN.START (R144). -/
def enterScan (s : State) : State :=
  let t := startStream s
  setResult (BitVec.ofNat 32 t.setup.nmcu)
    { t with
      walk := { t.walk with mcuidx := 0 }
      status := { t.status.clearDecode with scan := true } }

/-- The body of SCAN.START after step 1 (R144). -/
def scanStartBody (s : State) : Res State Unit :=
  match s.scanProblem with
  | some k => .raised k s
  | none => .ok () (enterScan s)

/-- SCAN.START (R144). -/
def execScanStart (s : State) : Host.Outcome State Fault Refusal :=
  command (fun s => s.manual && s.argInBuffer) scanStartBody s

end Sys2Proof.Machine
end

