-- ==== Sys2Proof/Machine/Dispatch.lean ====
section
/-! DEFINITION. One arm per command: the meaning each command has. -/

namespace Sys2Proof.Machine

def exec (i : Instr) (s : State) : Host.Outcome State Fault Refusal :=
  match i with
  | .nop => Sys2Proof.Machine.execNop s
  | .reset => Sys2Proof.Machine.execReset s
  | .brInit => Sys2Proof.Machine.execBrInit s
  | .brBit => Sys2Proof.Machine.execBrBit s
  | .brBits n => Sys2Proof.Machine.execBrBits n s
  | .brAlign => Sys2Proof.Machine.execBrAlign s
  | .htLoad cl id => Sys2Proof.Machine.execHtLoad cl id s
  | .htDec cl id => Sys2Proof.Machine.execHtDec cl id s
  | .qtLoad prec id => Sys2Proof.Machine.execQtLoad prec id s
  | .edRcvx n => Sys2Proof.Machine.execEdRcvx n s
  | .edDc comp => Sys2Proof.Machine.execEdDc comp s
  | .edAc comp => Sys2Proof.Machine.execEdAc comp s
  | .edBlock comp => Sys2Proof.Machine.execEdBlock comp s
  | .edRst => Sys2Proof.Machine.execEdRst s
  | .edMcu => Sys2Proof.Machine.execEdMcu s
  | .edScan => Sys2Proof.Machine.execEdScan s
  | .scanStart => Sys2Proof.Machine.execScanStart s
  | .scanEnd => Sys2Proof.Machine.execScanEnd s
  | .dqMul id => Sys2Proof.Machine.execDqMul id s
  | .zzScat => Sys2Proof.Machine.execZzScat s
  | .idct2d => Sys2Proof.Machine.execIdct2d s
  | .lsClamp => Sys2Proof.Machine.execLsClamp s
  | .blkRecon comp => Sys2Proof.Machine.execBlkRecon comp s
  | .upRun comp => Sys2Proof.Machine.execUpRun comp s
  | .ccRun => Sys2Proof.Machine.execCcRun s
  | .ccPix => Sys2Proof.Machine.execCcPix s

end Sys2Proof.Machine
end

