-- ==== Sys2Proof/Decode.lean ====
section
/-! DEFINITION. The command decoder, total on 32-bit words, and the encoder (`spec/30_encoding.md` R60 to R63, R65).
A rejected word carries the reason by name; the block turns every one of them into `ProtocolFault` (R63). -/

namespace Sys2Proof

/-- Why a command word is no command (R61, R63, R65 checks 2 and 3). -/
inductive DecodeError where
  /-- The `op` field is in no row of R62. -/
  | undefinedOpcode
  /-- The `c` field is not 0. -/
  | reservedField
  /-- A field the command does not use is not 0. -/
  | unusedField
  /-- An operand is outside its range. -/
  | operandRange
  deriving DecidableEq, Repr

/-- Bits 31:24 of a command word (R60). -/
def opField (w : Word) : Byte := w.extractLsb' 24 8

/-- Bits 23:16 of a command word (R60). -/
def aField (w : Word) : Byte := w.extractLsb' 16 8

/-- Bits 15:8 of a command word (R60). -/
def bField (w : Word) : Byte := w.extractLsb' 8 8

/-- Bits 7:0 of a command word (R60). -/
def cField (w : Word) : Byte := w.extractLsb' 0 8

/-- A command without operands: `a` and `b` must be 0 (R61). -/
def decodePlain (i : Instr) (a b : Byte) : Except DecodeError Instr :=
  if a = 0 ∧ b = 0 then .ok i else .error .unusedField

/-- A command whose only operand is `a` (R61). -/
def decodeA (mk : Byte → Instr) (ok : Byte → Bool) (a b : Byte) : Except DecodeError Instr :=
  if b ≠ 0 then .error .unusedField else if ok a then .ok (mk a) else .error .operandRange

/-- A command whose only operand is `b` (R61). -/
def decodeB (mk : Byte → Instr) (ok : Byte → Bool) (a b : Byte) : Except DecodeError Instr :=
  if a ≠ 0 then .error .unusedField else if ok b then .ok (mk b) else .error .operandRange

/-- A command with both operands (R61). -/
def decodeAB (mk : Byte → Byte → Instr) (okA okB : Byte → Bool) (a b : Byte) : Except DecodeError Instr :=
  if okA a && okB b then .ok (mk a b) else .error .operandRange

/-- The opcode map of R62, given the three fields. -/
def decodeOp (op a b : Byte) : Except DecodeError Instr :=
  match op.toNat with
  | 0x00 => decodePlain .nop a b
  | 0x01 => decodePlain .reset a b
  | 0x10 => decodePlain .brInit a b
  | 0x11 => decodePlain .brBit a b
  | 0x12 => decodeA .brBits bitCountOk a b
  | 0x13 => decodePlain .brAlign a b
  | 0x20 => decodeAB .htLoad classOk tableIdOk a b
  | 0x21 => decodeAB .htDec classOk tableIdOk a b
  | 0x28 => decodeAB .qtLoad precisionOk tableIdOk a b
  | 0x30 => decodeA .edRcvx categoryOk a b
  | 0x31 => decodeA .edDc componentOk a b
  | 0x32 => decodeA .edAc componentOk a b
  | 0x33 => decodeA .edBlock componentOk a b
  | 0x34 => decodePlain .edRst a b
  | 0x35 => decodePlain .edMcu a b
  | 0x36 => decodePlain .edScan a b
  | 0x38 => decodePlain .scanStart a b
  | 0x39 => decodePlain .scanEnd a b
  | 0x40 => decodeB .dqMul tableIdOk a b
  | 0x41 => decodePlain .zzScat a b
  | 0x42 => decodePlain .idct2d a b
  | 0x43 => decodePlain .lsClamp a b
  | 0x45 => decodeA .blkRecon componentOk a b
  | 0x50 => decodeA .upRun componentOk a b
  | 0x51 => decodePlain .ccRun a b
  | 0x52 => decodePlain .ccPix a b
  | _ => .error .undefinedOpcode

/-- The command a word stands for (R60 to R63). -/
def decode (w : Word) : Except DecodeError Instr :=
  if cField w ≠ 0 then .error .reservedField else decodeOp (opField w) (aField w) (bField w)

/-- The word `op·2^24 + a·2^16 + b·2^8` (R60, R76). -/
def commandWord (op a b : Byte) : Word := op ++ a ++ b ++ (0 : Byte)

/-- The word of a command (R62, R76). -/
def encode : Instr → Word
  | .nop => commandWord 0x00 0 0
  | .reset => commandWord 0x01 0 0
  | .brInit => commandWord 0x10 0 0
  | .brBit => commandWord 0x11 0 0
  | .brBits n => commandWord 0x12 n 0
  | .brAlign => commandWord 0x13 0 0
  | .htLoad cl id => commandWord 0x20 cl id
  | .htDec cl id => commandWord 0x21 cl id
  | .qtLoad prec id => commandWord 0x28 prec id
  | .edRcvx s => commandWord 0x30 s 0
  | .edDc comp => commandWord 0x31 comp 0
  | .edAc comp => commandWord 0x32 comp 0
  | .edBlock comp => commandWord 0x33 comp 0
  | .edRst => commandWord 0x34 0 0
  | .edMcu => commandWord 0x35 0 0
  | .edScan => commandWord 0x36 0 0
  | .scanStart => commandWord 0x38 0 0
  | .scanEnd => commandWord 0x39 0 0
  | .dqMul id => commandWord 0x40 0 id
  | .zzScat => commandWord 0x41 0 0
  | .idct2d => commandWord 0x42 0 0
  | .lsClamp => commandWord 0x43 0 0
  | .blkRecon comp => commandWord 0x45 comp 0
  | .upRun comp => commandWord 0x50 comp 0
  | .ccRun => commandWord 0x51 0 0
  | .ccPix => commandWord 0x52 0 0

/-- The command the decoder reads from a table word: `CMD32` words are one 32-bit register write, so the bits
keep their numbers. -/
def decodeTableWord (nbits w : Nat) : Option Instr :=
  if 32 < nbits then none
  else match decode (BitVec.ofNat 32 (w % 2 ^ nbits)) with
    | .ok i => some i
    | .error _ => none

end Sys2Proof
end

