-- ==== Sys2Proof/Machine/Host.lean ====
section
/-! DEFINITION. The host's side: the register map (`spec/10_state.md` R16), register reads and writes (R18, R19, R27,
`spec/45_control_and_host.md` R202 to R204), the input buffer and the memory spaces (`spec/20_memory.md` R40, R56), the
hardware reset, and which access comes next. -/

namespace Sys2Proof.Machine

/-- The registers of R16. -/
inductive Reg where
  | cmd | status | err | errpos | result | arg | inLen | proc | frame | ncomp | ri
  | comp (c : Fin 4)
  | brPos | brBits | brMark | mcucnt | rstexp | mcuidx | mcudim
  | pred (c : Fin 4)
  | coef (i : Fin 64)
  | deq (i : Fin 64)
  | nat (i : Fin 64)
  | accLow (i : Fin 64)
  | accHigh (i : Fin 64)
  | tile (i : Fin 64)
  | reserved
  deriving DecidableEq, Repr

/-- The register at a word offset below 0x100 (R16). -/
def lowReg (offset : Nat) : Reg :=
  match offset with
  | 0x00 => .cmd
  | 0x04 => .status
  | 0x08 => .err
  | 0x0C => .errpos
  | 0x10 => .result
  | 0x14 => .arg
  | 0x18 => .inLen
  | 0x1C => .proc
  | 0x20 => .frame
  | 0x24 => .ncomp
  | 0x28 => .ri
  | 0x30 => .comp 0
  | 0x34 => .comp 1
  | 0x38 => .comp 2
  | 0x3C => .comp 3
  | 0x40 => .brPos
  | 0x44 => .brBits
  | 0x48 => .brMark
  | 0x4C => .mcucnt
  | 0x50 => .rstexp
  | 0x54 => .mcuidx
  | 0x58 => .mcudim
  | 0x60 => .pred 0
  | 0x64 => .pred 1
  | 0x68 => .pred 2
  | 0x6C => .pred 3
  | _ => .reserved

/-- The register at an aligned offset (R16). -/
def regAt (offset : Nat) : Reg :=
  if offset < 0x100 then lowReg offset
  else if offset < 0x200 then .coef (Fin.ofNat 64 ((offset - 0x100) / 4))
  else if offset < 0x300 then .deq (Fin.ofNat 64 ((offset - 0x200) / 4))
  else if offset < 0x400 then .nat (Fin.ofNat 64 ((offset - 0x300) / 4))
  else if offset < 0x600 then
    if offset % 8 = 0 then .accLow (Fin.ofNat 64 ((offset - 0x400) / 8))
    else .accHigh (Fin.ofNat 64 ((offset - 0x400) / 8))
  else if offset < 0x700 then .tile (Fin.ofNat 64 ((offset - 0x600) / 4))
  else .reserved

/-- `COMP[c]` as a word (R16). -/
def CompCfg.word (k : CompCfg) : Word := (0 : BitVec 12) ++ k.ta ++ k.td ++ k.tq ++ k.h ++ k.v

/-- `COMP[c]` from a word; the reserved bits are ignored (R16, R18). -/
def CompCfg.ofWord (w : Word) : CompCfg :=
  { v := w.extractLsb' 0 4, h := w.extractLsb' 4 4, tq := w.extractLsb' 8 4
    td := w.extractLsb' 12 4, ta := w.extractLsb' 16 4 }

/-- The value of a register while `FAULT = 0` (R16, R202). -/
def regValue (s : State) : Reg → Word
  | .cmd => 0
  | .status => s.statusWord
  | .err => s.err.setWidth 32
  | .errpos => s.errpos
  | .result => s.result
  | .arg => s.arg
  | .inLen => s.setup.inLen
  | .proc => s.setup.proc.setWidth 32
  | .frame => s.setup.height ++ s.setup.width
  | .ncomp => s.setup.ncomp.setWidth 32
  | .ri => s.setup.ri.setWidth 32
  | .comp c => s.setup.comp[c].word
  | .brPos => s.stream.pos
  | .brBits => (0 : BitVec 16) ++ s.stream.cur ++ BitVec.ofNat 8 s.stream.cnt.val
  | .brMark => s.stream.markc.setWidth 32
  | .mcucnt => s.walk.mcucnt
  | .rstexp => s.walk.rstexp.setWidth 32
  | .mcuidx => s.walk.mcuidx
  | .mcudim => s.setup.mcuDim
  | .pred c => s.walk.pred[c].signExtend 32
  | .coef i => s.buf.coef[i].signExtend 32
  | .deq i => s.buf.deq[i]
  | .nat i => s.buf.nat[i]
  | .accLow i => s.buf.acc[i].extractLsb' 0 32
  | .accHigh i => s.buf.acc[i].extractLsb' 32 32
  | .tile i => s.buf.tile[i].setWidth 32
  | .reserved => 0

/-- The registers whose reads are defined in the faulted state (R18, `spec/60_exceptions.md` R225). -/
def Reg.definedWhenFaulted : Reg → Bool
  | .status => true
  | .err => true
  | .errpos => true
  | _ => false

/-- A host read: it changes nothing of the block (R18, R202); its value stands in `rdata`. -/
def readReg (r : Reg) (s : State) : State :=
  if s.status.fault && !r.definedWhenFaulted then
    { s with rdata := Config.faultedRead s.draws, draws := s.draws + 1 }
  else { s with rdata := regValue s r }

/-- A write to a configuration register: refused in scan mode with `ProtocolFault`, else it takes effect and clears
`DONE`, `OUTV`, `FULLV` (R19). -/
def writeSetup (f : Setup → Setup) (s : State) : State :=
  if s.status.scan then raiseFault .protocolFault s
  else { s with setup := f s.setup, status := s.status.clearDecode }

/-- A write to the `COEF` or `NAT` window: refused in scan mode (R19, R27). -/
def writeWindow (f : Buffers → Buffers) (s : State) : State :=
  if s.status.scan then raiseFault .protocolFault s else { s with buf := f s.buf }

/-- A host write to a register other than `CMD` (R18, R19, R203, R204). Every write is ignored while faulted. -/
def writeReg (r : Reg) (w : Word) (s : State) : State :=
  if s.status.fault then s
  else match r with
    | .arg => { s with arg := w }
    | .inLen => writeSetup (fun u => { u with inLen := w }) s
    | .proc => writeSetup (fun u => { u with proc := w.extractLsb' 0 8 }) s
    | .frame => writeSetup (fun u => { u with width := w.extractLsb' 0 16, height := w.extractLsb' 16 16 }) s
    | .ncomp => writeSetup (fun u => { u with ncomp := w.extractLsb' 0 8 }) s
    | .ri => writeSetup (fun u => { u with ri := w.extractLsb' 0 16 }) s
    | .comp c => writeSetup (fun u => { u with comp := u.comp.set c (CompCfg.ofWord w) }) s
    | .coef i => writeWindow (fun f => { f with coef := f.coef.set i (w.extractLsb' 0 16) }) s
    | .nat i => writeWindow (fun f => { f with nat := f.nat.set i w }) s
    | .cmd | .status | .err | .errpos | .result | .brPos | .brBits | .brMark | .mcucnt | .rstexp | .mcuidx
    | .mcudim | .pred _ | .deq _ | .accLow _ | .accHigh _ | .tile _ | .reserved => s

/-- The registers lie at offsets below 0x1000 (R16, `spec/20_memory.md` R40). -/
def offsetExists (offset : Word) : Bool := decide (offset.toNat < 0x1000)

/-- Registers are accessed as whole aligned words (R18). -/
def offsetAligned (offset : Word) : Bool := offset.toNat % 4 == 0

/-- A register write access. A misaligned one is ignored (`spec/93_implementation_defined.md` U14). -/
def hostWrite (offset w : Word) (s : State) : Host.Outcome State Fault Refusal :=
  if !offsetExists offset then .fault .outsideSpace
  else if !offsetAligned offset then .next s
  else .next (writeReg (regAt offset.toNat) w s)

/-- A register read access. A misaligned one is ignored (U14). -/
def hostRead (offset : Word) (s : State) : Host.Outcome State Fault Refusal :=
  if !offsetExists offset then .fault .outsideSpace
  else if !offsetAligned offset then .next s
  else .next (readReg (regAt offset.toNat) s)

/-- A register access narrower than 32 bits: ignored (U14). -/
def hostNarrow (offset : Word) (s : State) : Host.Outcome State Fault Refusal :=
  if !offsetExists offset then .fault .outsideSpace else .next s

/-- The host stores a byte of `IN` (R40). With a stream started a store that changes the byte is noted: what the commands
that go on with that stream then read is not defined (R56, U13), so it is any value (log 13). -/
def hostStoreInput (a : Word) (v : Byte) (s : State) : State :=
  let t := { s with input := s.input.write a.toNat v }
  if s.stream.brv && s.input.read a.toNat != some v then
    { t with watch := { s.watch with changed := some s.draws }, draws := s.draws + 1 }
  else t

/-- The size of a memory space in bytes (R40). DESIGN CHOICE (log 25): `PLANE[c]` and `FULL[c]` of a component
`c ≥ NCOMP`, which R23 gives no factors, have no bytes. -/
def State.spaceSize (s : State) : Space → Nat
  | .input => s.setup.inLen.toNat
  | .plane c => if c.val < s.setup.numComps then s.setup.planeW c * s.setup.planeH c else 0
  | .full c => if c.val < s.setup.numComps then s.setup.w * s.setup.ht else 0
  | .out => s.setup.outSize

/-- The host may read the space: `IN` at any time, `PLANE` after SCAN.END, `FULL[c]` after UP.RUN, `OUT` after
CC.RUN (R40), and none of the block's memories while faulted (R225). DESIGN CHOICE (log 26): once a configuration write
or SCAN.START has cleared the flag (R19, R144, R258) the space is as before its time. -/
def State.spaceReady (s : State) : Space → Bool
  | .input => true
  | .plane _ => !s.status.fault && s.status.done
  | .full c => !s.status.fault && s.status.fullv[c]
  | .out => !s.status.fault && s.status.outv

/-- A byte of a memory space. -/
def State.spaceByte (s : State) : Space → Nat → Byte
  | .input, a => storedByte s.input a
  | .plane c, a => s.planeByte c a
  | .full c, a => s.fullByte c a
  | .out, a => s.outByte a

/-- The host reads a byte of a memory space; out of its time the value is unspecified (log 8). -/
def hostReadMemory (sp : Space) (a : Nat) (s : State) : Host.Outcome State Fault Refusal :=
  if !s.spaceReady sp then
    .next { s with rdata := (Config.earlyMemoryRead s.draws).setWidth 32, draws := s.draws + 1 }
  else if s.spaceSize sp ≤ a then .fault .outsideSpace
  else .next { s with rdata := (s.spaceByte sp a).setWidth 32 }

/-- The command word a host access carries: a write to `CMD` (R60, R203). -/
def HostAccess.commandWord : HostAccess → Option Word
  | .write offset w => if offset = 0 then some w else none
  | .read _ => none
  | .narrow _ => none
  | .storeInput _ _ => none
  | .readMemory _ _ => none
  | .hardReset => none

/-- Every access other than a command. -/
def hostAccess (a : HostAccess) (s : State) : Host.Outcome State Fault Refusal :=
  match a with
  | .write offset w => hostWrite offset w s
  | .read offset => hostRead offset s
  | .narrow offset => hostNarrow offset s
  | .storeInput addr v => .next (hostStoreInput addr v s)
  | .readMemory sp addr => hostReadMemory sp addr s
  | .hardReset => .next (resetBlock s)

/-- The host's next access and the state with that access taken off; `none` when the host makes none. -/
def nextAccess (s : State) : Option (HostAccess × State) :=
  match s.bus with
  | [] => none
  | a :: rest => some (a, { s with bus := rest })

/-- The state with a command write as the host's next access. -/
def pushCommand (w : Word) (s : State) : State := { s with bus := .write 0 w :: s.bus }

end Sys2Proof.Machine
end

