-- ==== Sys2Proof/Machine/Step.lean ====
section
/-! DEFINITION. One step: the host's next access (`spec/20_memory.md` R52). A write to `CMD` executes its word; without
an access the block is idle and its state does not change (`spec/70_reset_and_hazards.md` R263). -/

namespace Sys2Proof.Machine

/-- Execute a command word (R60): the command it stands for, or the rejection of a word that is none (R63). -/
def runWord (w : Word) (s : State) : Host.Outcome State Fault Refusal :=
  match decode w with
  | .ok i => exec i s
  | .error _ => .next (rejectWord s)

/-- One step. -/
def step (s : State) : Host.Outcome State Fault Refusal :=
  match nextAccess s with
  | none => .next s
  | some (a, t) =>
    match a.commandWord with
    | some w => runWord w t
    | none => hostAccess a t

/-- The state in which the next step executes the given table word: the block fetches nothing, a command reaches it
as a write to `CMD`. -/
def State.withFetchWord (s : State) (nbits w : Nat) : State := pushCommand (BitVec.ofNat 32 (w % 2 ^ nbits)) s

end Sys2Proof.Machine
end

