-- ==== Sys2Proof/Safety.lean ====
section
/-! DEFINITION. The terms claims are made in: the invariant every step keeps, how a decode ends
(`spec/70_reset_and_hazards.md` R263), and the entropy-coded stream as the spec describes it
(`spec/30_encoding.md` R67 to R72): bits, codes, coded blocks and coded MCUs. -/

namespace Sys2Proof.Machine

/-- The configuration passes the checks of SCAN.START on registers (`spec/42_entropy_decoder.md` R144 steps 2 to 6). -/
def Setup.accepted (u : Setup) : Bool :=
  u.proc == 0 && u.countOk && u.width != 0 && u.height != 0 && u.factorsOk && u.ratiosOk

/-- A loaded Huffman slot is what `build` makes of its counts, with as many symbols as codes, at most 256
(`spec/10_state.md` R21, `spec/41_huffman_table.md` R112, R113). -/
def HuffTable.Built (t : HuffTable) : Prop :=
  buildTable t.counts t.sym = some t ∧ t.sym.length = t.nsym ∧ t.nsym ≤ 256

/-- The configuration a scan runs or has run with: accepted, its tables loaded, its planes within the memory. -/
structure State.Configured (s : State) : Prop where
  accepted : s.setup.accepted = true
  quants : s.quantMissing = false
  huffs : s.huffMissing = false
  fits : s.setup.fits s.memCap = true
  started : s.stream.brv = true

/-- The invariant of every step. -/
structure State.Inv (s : State) : Prop where
  /-- `IN` keeps its canonical form. -/
  inputWf : s.input.wf
  /-- So does every plane, -/
  planeWf : ∀ c : Fin 4, s.mem.plane[c].wf
  /-- every full-resolution plane -/
  fullWf : ∀ c : Fin 4, s.mem.full[c].wf
  /-- and the output. -/
  outWf : s.mem.out.wf
  /-- Every loaded Huffman slot is a built table. -/
  tablesBuilt : ∀ (cl : Fin 2) (id : Fin 16) (t : HuffTable), s.tables.huff cl id = some t → t.Built
  /-- Without a fault `ERR` and `ERRPOS` are 0 (R26, R224). -/
  errClear : s.status.fault = false → s.err = 0 ∧ s.errpos = 0
  /-- With a fault `ERR` is the code of a kind the block raises (R220). -/
  errSet : s.status.fault = true → 2 ≤ s.err.toNat ∧ s.err.toNat ≤ 11
  /-- Bits are held, and a marker reported, only once a stream has been started (R14). -/
  streamStarted : s.stream.cnt ≠ 0 ∨ s.stream.markf = true → s.stream.brv = true
  /-- Before that no change of `IN` is noted. -/
  inputWatched : s.stream.brv = false → s.watch = InputWatch.reset
  /-- In scan mode the configuration is the one SCAN.START accepted, -/
  scanConfigured : s.status.scan = true → s.Configured
  /-- no decode is done, -/
  scanNotDone : s.status.scan = true → s.status.done = false
  /-- the cursor is within `IN`, -/
  scanCursor : s.status.scan = true → s.stream.pos.toNat ≤ s.setup.inLen.toNat
  /-- the counters are bounded by `NMCU` (R24), -/
  scanCounters : s.status.scan = true →
    s.walk.mcucnt.toNat ≤ s.walk.mcuidx.toNat ∧ s.walk.mcuidx.toNat ≤ s.setup.nmcu
  /-- and no more MCUs than the interval have gone by since the last restart (`spec/42_entropy_decoder.md` R143). -/
  scanInterval : s.status.scan = true → s.setup.ri ≠ 0 → s.walk.mcucnt.toNat ≤ s.setup.ri.toNat
  /-- With `DONE` the configuration is the one the scan was decoded with (R19, R181), -/
  doneConfigured : s.status.done = true → s.Configured
  /-- and every MCU has been decoded. -/
  doneComplete : s.status.done = true → s.walk.mcuidx.toNat = s.setup.nmcu
  /-- `OUTV` needs `DONE`. -/
  outvDone : s.status.outv = true → s.status.done = true
  /-- `FULLV[c]` needs `DONE` and a component `c < NCOMP`. -/
  fullvDone : ∀ c : Fin 4, s.status.fullv[c] = true → s.status.done = true ∧ c.val < s.setup.numComps

/-- What the host wants of a decode: the image in `OUT`, or the planes, those of some components at full resolution
(`spec/70_reset_and_hazards.md` R263). -/
inductive Wanted where
  | output
  | planes (upsampled : List (Fin 4))
  deriving DecidableEq, Repr

/-- A decode has completed: CC.RUN has set `OUTV`, or, for a host that wants planes, SCAN.END has set `DONE` and the
UP.RUN commands it needs have run (R263). -/
def State.completed (s : State) : Wanted → Bool
  | .output => s.status.outv
  | .planes upsampled => s.status.done && upsampled.all fun c => s.status.fullv[c]

/-- A decode has failed (R263). -/
def State.failed (s : State) : Bool := s.status.fault

/-- The host abandons the decode: it issues RESET, or the platform resets the block (R263, R251). -/
def State.abandoned (s : State) : Bool :=
  match s.bus with
  | .hardReset :: _ => true
  | .write offset w :: _ => offset == 0 && w == encode .reset
  | .read _ :: _ | .narrow _ :: _ | .storeInput _ _ :: _ | .readMemory _ _ :: _ | [] => false

end Sys2Proof.Machine

namespace Sys2Proof.Spec

open Sys2Proof.Machine

/-- The unsigned value of a sequence of bits, the first bit most significant (`spec/40_bit_reader.md` R94). -/
def bitsValue (l : List Bool) : Nat := l.foldl (fun v b => 2 * v + b.toNat) 0

/-- The `n` low bits of a number, the most significant first. -/
def numberBits (n v : Nat) : List Bool := (List.range n).map fun i => v.testBit (n - 1 - i)

/-- The bits of the data bytes of `IN` from `pos` to the next marker or the end of the data (`spec/30_encoding.md`
R67): a plain byte, or `0xFF 0x00` for the byte `0xFF`. `fuel` bounds the number of bytes. -/
def dataBits (b : Input) : (fuel : Nat) → (pos : Nat) → List Bool
  | 0, _ => []
  | fuel + 1, pos =>
    if b.len ≤ pos then []
    else if b.byte pos ≠ 0xFF then numberBits 8 (b.byte pos).toNat ++ dataBits b fuel (pos + 1)
    else if b.len ≤ pos + 1 then []
    else if b.byte (pos + 1) = 0x00 then numberBits 8 0xFF ++ dataBits b fuel (pos + 2)
    else []

/-- Every bit the reader can still deliver, in order: the undelivered bits of `CUR`, then, unless a marker has been met,
the data bytes from `POS` on. -/
def streamBits (b : Input) (r : Stream) : List Bool :=
  numberBits r.cnt.val r.cur.toNat ++ if r.markf then [] else dataBits b (b.len - r.pos.toNat) r.pos.toNat

/-- The bits the reader of a state can still deliver. -/
def bitsOf (s : State) : List Bool := streamBits s.inBuf s.stream

/-- A code of a table: the `j`-th of length `l + 1` (`spec/41_huffman_table.md` R112). -/
structure Code where
  l : Fin 16
  j : Nat
  deriving DecidableEq, Repr

/-- The table has the code: `j < L[l + 1]`. -/
abbrev Code.Assigned (c : Code) (t : HuffTable) : Prop := c.j < (t.counts[c.l]).toNat

/-- The code's bits: the number `FIRST + j` in `l + 1` bits. -/
def Code.bits (c : Code) (t : HuffTable) : List Bool := numberBits (c.l.val + 1) (t.first[c.l] + c.j)

/-- The code's symbol: `SYM[OFFSET + j]`. -/
def Code.symbol (c : Code) (t : HuffTable) : Byte := t.sym.getD (t.offset[c.l] + c.j) 0

/-- `RRRR` of an AC symbol (`spec/30_encoding.md` R71). -/
def runField (sym : Byte) : Nat := sym.toNat / 16

/-- `SSSS` of an AC symbol (R71). -/
def sizeField (sym : Byte) : Nat := sym.toNat % 16

/-- An AC symbol and the value of its additional bits (R71, R72). -/
structure AcToken where
  code : Code
  extra : Nat
  deriving DecidableEq, Repr

/-- The token's bits: the code, then `SSSS` additional bits. -/
def AcToken.bits (k : AcToken) (t : HuffTable) : List Bool :=
  k.code.bits t ++ numberBits (sizeField (k.code.symbol t)) k.extra

/-- What coded AC tokens make of the positions from `k` on and of the coefficients so far (`spec/42_entropy_decoder.md`
R135): the next position and the coefficients, or `none` where a token is no legal coefficient or ZRL there. -/
def expandAc (t : HuffTable) : List AcToken → (k : Nat) → Block (BitVec 16) → Option (Nat × Block (BitVec 16))
  | [], k, f => some (k, f)
  | tok :: rest, k, f =>
    let r := runField (tok.code.symbol t)
    let s := sizeField (tok.code.symbol t)
    if tok.code.Assigned t then
      if s = 0 then
        if r = 15 ∧ k + 16 ≤ 64 ∧ tok.extra = 0 then expandAc t rest (k + 16) f else none
      else if h : s ≤ 11 ∧ tok.extra < 2 ^ s ∧ k + r < 64 then
        expandAc t rest (k + r + 1) (f.set (k + r) (BitVec.ofInt 16 (extend tok.extra s)) h.2.2)
      else none
    else none

/-- One coded block: the DC code and its additional bits, the AC tokens, and the EOB code unless the block is full. -/
structure CodedBlock where
  dc : Code
  extra : Nat
  ac : List AcToken
  eob : Option Code
  deriving DecidableEq, Repr

/-- The bits of the EOB code, if the block has one. -/
def eobBits (ta : HuffTable) : Option Code → List Bool
  | none => []
  | some e => e.bits ta

/-- The bits of AC tokens, one after the other. -/
def tokensBits (ta : HuffTable) (toks : List AcToken) : List Bool := toks.flatMap fun k => k.bits ta

/-- The bits of the AC part. -/
def CodedBlock.acBits (cb : CodedBlock) (ta : HuffTable) : List Bool := tokensBits ta cb.ac ++ eobBits ta cb.eob

/-- The bits of the DC part. -/
def CodedBlock.dcBits (cb : CodedBlock) (td : HuffTable) : List Bool :=
  cb.dc.bits td ++ numberBits (cb.dc.symbol td).toNat cb.extra

/-- The bits of a block: DC first (R137). -/
def CodedBlock.bits (cb : CodedBlock) (td ta : HuffTable) : List Bool := cb.dcBits td ++ cb.acBits ta

/-- The DC difference a coded block carries, where its code and category are legal (R133). -/
def CodedBlock.difference (cb : CodedBlock) (td : HuffTable) : Option Int :=
  if cb.dc.Assigned td ∧ (cb.dc.symbol td).toNat ≤ 11 ∧ cb.extra < 2 ^ (cb.dc.symbol td).toNat then
    some (extend cb.extra (cb.dc.symbol td).toNat)
  else none

/-- The end index and the coefficients `COEF[1..63]` (at index 0, what stood there) of the AC part, where it is legal:
a block that is not full ends with EOB, a full one does not (R135). -/
def CodedBlock.coefficients (cb : CodedBlock) (ta : HuffTable) (f : Block (BitVec 16)) :
    Option (Nat × Block (BitVec 16)) :=
  match expandAc ta cb.ac 1 ((Vector.replicate 64 0).set 0 f[0]), cb.eob with
  | some (k, g), some e => if k ≤ 63 ∧ e.Assigned ta ∧ e.symbol ta = 0 then some (k, g) else none
  | some (k, g), none => if k = 64 then some (k, g) else none
  | none, _ => none

/-- The tile of a block of coefficients (`spec/43_block_reconstructor.md` R170). -/
def tileOf (coef q : Block (BitVec 16)) : Block Byte :=
  levelShiftAll (idct2d (scatter (dequantize coef q) (Vector.replicate 64 0)))

/-- The value of a number as a signed 16-bit register holds it. -/
abbrev Fits16 (v : Int) : Prop := -32768 ≤ v ∧ v ≤ 32767

/-- The tables a component uses: DC, AC, quantization. -/
structure CompTables where
  td : HuffTable
  ta : HuffTable
  q : Block (BitVec 16)
  deriving DecidableEq, Repr

/-- The tables `COMP[c]` names, where all three are loaded. -/
def tablesOf (s : State) (c : Fin 4) : Option CompTables :=
  match s.tables.huff 0 (slotOfId s.setup.comp[c].td), s.tables.huff 1 (slotOfId s.setup.comp[c].ta),
      s.tables.quant (slotOfId s.setup.comp[c].tq) with
  | some td, some ta, some q => some { td := td, ta := ta, q := q }
  | _, _, _ => none

/-- What decoding blocks changes beside the stream: predictors and planes. -/
structure Picture where
  pred : Vector (BitVec 16) 4
  plane : Vector Memory 4
  deriving DecidableEq, Repr

/-- What one coded block of component `c` at a place makes of a picture: the predictor moves by the difference and the
block's tile is written; `none` where the block is not legal or the predictor would leave 16 bits. -/
def addBlock (k : CompTables) (width : Nat) (blk : Fin 4 × Nat × Nat) (cb : CodedBlock) (p : Picture) : Option Picture :=
  match cb.difference k.td with
  | none => none
  | some d =>
    let v := p.pred[blk.1].toInt + d
    match cb.coefficients k.ta ((Vector.replicate 64 0).set 0 (BitVec.ofInt 16 v)) with
    | none => none
    | some (_, f) =>
      if Fits16 v then
        some { pred := p.pred.set blk.1 (BitVec.ofInt 16 v)
               plane := p.plane.set blk.1
                 (p.plane[blk.1].writeAll (tileCells width blk.2.1 blk.2.2 (tileOf f k.q))) }
      else none

/-- What the coded blocks of an MCU make of a picture, one for each block of the MCU, in order. -/
def addBlocks (s : State) : List (Fin 4 × Nat × Nat) → List CodedBlock → Picture → Option Picture
  | [], [], p => some p
  | blk :: blks, cb :: cbs, p =>
    match tablesOf s blk.1 with
    | none => none
    | some k =>
      match addBlock k (s.setup.planeW blk.1) blk cb p with
      | none => none
      | some p' => addBlocks s blks cbs p'
  | _, _, _ => none

/-- The bits of the coded blocks of an MCU. -/
def blocksBits (s : State) : List (Fin 4 × Nat × Nat) → List CodedBlock → List Bool
  | blk :: blks, cb :: cbs =>
    (match tablesOf s blk.1 with
      | none => []
      | some k => cb.bits k.td k.ta) ++ blocksBits s blks cbs
  | _, _ => []

/-- The blocks of MCU number `i` (R142). -/
def mcuBlocksAt (s : State) (i : Nat) : List (Fin 4 × Nat × Nat) :=
  s.setup.mcuBlocks (i % s.setup.mcuX) (i / s.setup.mcuX)

/-- The picture of a state. -/
def pictureOf (s : State) : Picture := { pred := s.walk.pred, plane := s.mem.plane }

/-- What the coded MCUs from number `i` on make of a picture. -/
def addMcus (s : State) : List (List CodedBlock) → (i : Nat) → Picture → Option Picture
  | [], _, p => some p
  | m :: ms, i, p =>
    match addBlocks s (mcuBlocksAt s i) m p with
    | none => none
    | some p' => addMcus s ms (i + 1) p'

/-- The bits of the coded MCUs from number `i` on, with no restart between them. -/
def mcusBits (s : State) : List (List CodedBlock) → (i : Nat) → List Bool
  | [], _ => []
  | m :: ms, i => blocksBits s (mcuBlocksAt s i) m ++ mcusBits s ms (i + 1)

/-- Where the data bytes from `pos` on end: the address of the marker, or of the byte where the data ends. -/
def dataEnd (b : Input) : (fuel : Nat) → (pos : Nat) → Nat
  | 0, pos => pos
  | fuel + 1, pos =>
    if b.len ≤ pos then pos
    else if b.byte pos ≠ 0xFF then dataEnd b fuel (pos + 1)
    else if b.len ≤ pos + 1 then pos
    else if b.byte (pos + 1) = 0x00 then dataEnd b fuel (pos + 2)
    else pos

/-- Where the data from the cursor of a stream ends: at the marker already met, or where `dataEnd` says. -/
def streamEnd (b : Input) (r : Stream) : Nat :=
  if r.markf then r.pos.toNat else dataEnd b (b.len - r.pos.toNat) r.pos.toNat

/-- Where the data of a state's stream ends. -/
def endOf (s : State) : Nat := streamEnd s.inBuf s.stream

/-- Bits have been taken and nothing was met: `rest` is left of the same data. -/
structure Took (b : Input) (before : Stream) (rest : List Bool) (after : Stream) : Prop where
  bits : streamBits b after = rest
  markf : after.markf = before.markf
  markc : after.markc = before.markc
  brv : after.brv = before.brv
  ends : streamEnd b after = streamEnd b before

/-- The commands of a list one after the other, each on the state the one before left. -/
def execAll : List Instr → State → Host.Outcome State Fault Refusal
  | [], s => .next s
  | i :: is, s =>
    match exec i s with
    | .next t => execAll is t
    | .fault r => .fault r
    | .refused r => .refused r

/-- One access of the host, before the accesses it has yet to make. -/
def access (s : State) (a : HostAccess) : Host.Outcome State Fault Refusal := step { s with bus := a :: s.bus }

/-- A fault of the given code is latched in the state `t`, which the run had reached (`spec/60_exceptions.md` R224);
`RESULT` is any value (`spec/10_state.md` R20). -/
def Latched (o : Host.Outcome State Fault Refusal) (code : Byte) (t : State) : Prop :=
  ∃ (v : Word) (n : Nat), o = .next { t with
    status := { t.status with fault := true }, err := code, errpos := t.stream.pos, result := v, draws := n }

/-- Manual mode and no fault. -/
abbrev Manual (s : State) : Prop := s.status.fault = false ∧ s.status.scan = false

/-- Manual mode, no fault, and a cursor has been set. -/
abbrev Streaming (s : State) : Prop := s.status.fault = false ∧ s.status.scan = false ∧ s.stream.brv = true

/-- Scan mode and no fault. -/
abbrev Scanning (s : State) : Prop := s.status.fault = false ∧ s.status.scan = true

/-- An operand field. -/
abbrev fieldOf (n : Nat) : Byte := BitVec.ofNat 8 n

/-- `FIRST[l + 1]` of R112, from the counts `L[1], L[2], …` given as `L 0, L 1, …`. -/
def firstCode (L : Nat → Nat) : Nat → Nat
  | 0 => 0
  | l + 1 => 2 * (firstCode L l + L l)

/-- `OFFSET[l + 1]` of R112. -/
def firstIndex (L : Nat → Nat) : Nat → Nat
  | 0 => 0
  | l + 1 => firstIndex L l + L l

/-- The largest `a` and `b` of each opcode (`spec/30_encoding.md` R61, R62); 0 for a field the command does not use. -/
def operandMax : Nat → Option (Nat × Nat)
  | 0x00 => some (0, 0)
  | 0x01 => some (0, 0)
  | 0x10 => some (0, 0)
  | 0x11 => some (0, 0)
  | 0x12 => some (16, 0)
  | 0x13 => some (0, 0)
  | 0x20 => some (1, 15)
  | 0x21 => some (1, 15)
  | 0x28 => some (1, 15)
  | 0x30 => some (11, 0)
  | 0x31 => some (3, 0)
  | 0x32 => some (3, 0)
  | 0x33 => some (3, 0)
  | 0x34 => some (0, 0)
  | 0x35 => some (0, 0)
  | 0x36 => some (0, 0)
  | 0x38 => some (0, 0)
  | 0x39 => some (0, 0)
  | 0x40 => some (0, 15)
  | 0x41 => some (0, 0)
  | 0x42 => some (0, 0)
  | 0x43 => some (0, 0)
  | 0x45 => some (3, 0)
  | 0x50 => some (3, 0)
  | 0x51 => some (0, 0)
  | 0x52 => some (0, 0)
  | _ => none

/-- A word that is one of the 26 commands with legal operands (R61, R63). -/
def LegalWord (w : Word) : Prop :=
  w.toNat % 2 ^ 8 = 0 ∧ ∃ a b, operandMax (w.toNat / 2 ^ 24) = some (a, b) ∧
    w.toNat / 2 ^ 16 % 2 ^ 8 ≤ a ∧ w.toNat / 2 ^ 8 % 2 ^ 8 ≤ b

/-- Every register and slot has the value R26 gives it; nothing is said of what R26 leaves unspecified. -/
structure AtReset (t : State) : Prop where
  flags : t.status.fault = false ∧ t.status.scan = false ∧ t.status.done = false ∧ t.status.outv = false ∧
    ∀ c : Fin 4, t.status.fullv[c] = false
  results : t.err = 0 ∧ t.errpos = 0 ∧ t.result = 0 ∧ t.arg = 0
  setup : t.setup.inLen = 0 ∧ t.setup.width = 0 ∧ t.setup.height = 0 ∧ t.setup.ncomp = 0 ∧ t.setup.ri = 0
  comp : ∀ c : Fin 4, t.setup.comp[c].h = 0 ∧ t.setup.comp[c].v = 0 ∧ t.setup.comp[c].tq = 0 ∧
    t.setup.comp[c].td = 0 ∧ t.setup.comp[c].ta = 0
  proc : t.setup.proc = 0xFF
  reader : t.stream.pos = 0 ∧ t.stream.cur = 0 ∧ t.stream.cnt = 0 ∧ t.stream.markf = false ∧ t.stream.markc = 0 ∧
    t.stream.brv = false
  counters : t.walk.mcucnt = 0 ∧ t.walk.rstexp = 0 ∧ t.walk.mcuidx = 0
  pred : ∀ c : Fin 4, t.walk.pred[c] = 0
  huffs : ∀ (cl : Fin 2) (id : Fin 16), t.tables.huff cl id = none
  quants : ∀ id : Fin 16, t.tables.quant id = none

end Sys2Proof.Spec
end

