-- ==== Sys2Proof/Certificates/Slice0/Obligations.lean ====
section
/-! DEFINITION. The statements for the provers, from the numbered rules of the spec. A component, table or class operand
ranges over all its legal values; operands out of range have a statement of their own
(`IllegalWordsLatchProtocolFault`). `Latched o k t` says that the fault of code `k` has been latched in state `t`,
with `RESULT` any value. The model's own record `watch` of changes of `IN` is left open where a command touches it;
`HostStoresWriteTheInputBuffer` says what it becomes. -/

open Sys2Proof Sys2Proof.Machine Sys2Proof.Spec

/-! ### Command words -/

/-- R62, R76: one word of every row of the opcode map, written out from the spec. -/
def Obligations.OpcodeMapWords : Prop :=
  decode 0x00000000 = .ok .nop ∧ decode 0x01000000 = .ok .reset ∧
  decode 0x10000000 = .ok .brInit ∧ decode 0x11000000 = .ok .brBit ∧
  decode 0x120C0000 = .ok (.brBits 12) ∧ decode 0x13000000 = .ok .brAlign ∧
  decode 0x20000100 = .ok (.htLoad 0 1) ∧ decode 0x21010300 = .ok (.htDec 1 3) ∧
  decode 0x28010F00 = .ok (.qtLoad 1 15) ∧ decode 0x300B0000 = .ok (.edRcvx 11) ∧
  decode 0x31030000 = .ok (.edDc 3) ∧ decode 0x32020000 = .ok (.edAc 2) ∧
  decode 0x33010000 = .ok (.edBlock 1) ∧ decode 0x34000000 = .ok .edRst ∧
  decode 0x35000000 = .ok .edMcu ∧ decode 0x36000000 = .ok .edScan ∧
  decode 0x38000000 = .ok .scanStart ∧ decode 0x39000000 = .ok .scanEnd ∧
  decode 0x40000A00 = .ok (.dqMul 10) ∧ decode 0x41000000 = .ok .zzScat ∧
  decode 0x42000000 = .ok .idct2d ∧ decode 0x43000000 = .ok .lsClamp ∧
  decode 0x45020000 = .ok (.blkRecon 2) ∧ decode 0x50010000 = .ok (.upRun 1) ∧
  decode 0x51000000 = .ok .ccRun ∧ decode 0x52000000 = .ok .ccPix

/-- R61, R62, R63: a word stands for a command exactly when it is that command's encoding and the command's operands
are in range. -/
def Obligations.DecodeReadsExactlyTheEncodings : Prop :=
  ∀ (w : Word) (i : Instr), decode w = .ok i ↔ i.wellFormed = true ∧ w = encode i

/-- A step with a write to `CMD` as the host's next access executes the command the word stands for (R60, R52; that a step
is the host's next access, taken from `bus`, and that `withFetchWord` makes one, is the model's choice, log 10); a step
without an access changes nothing (an inference from R263, log 11). -/
def Obligations.StepRunsTheCommandWritten : Prop :=
  (∀ (s : State) (w : Word) (rest : List HostAccess) (i : Instr),
    s.bus = .write 0 w :: rest → decode w = .ok i → step s = exec i { s with bus := rest }) ∧
  (∀ s : State, s.bus = [] → step s = .next s) ∧
  ∀ (s : State) (w : Nat) (i : Instr), decode (BitVec.ofNat 32 w) = .ok i → step (s.withFetchWord 32 w) = exec i s

/-- R63, R61: every word either is one of the 26 commands with legal operands, or raises `ProtocolFault` before any state
changes; so does a command with an operand out of range, in every mode. -/
def Obligations.IllegalWordsLatchProtocolFault : Prop :=
  ∀ w : Word,
    (LegalWord w → ∃ i : Instr, i.wellFormed = true ∧ decode w = .ok i) ∧
    (¬ LegalWord w → ∀ s : State, s.status.fault = false → Latched (access s (.write 0 w)) 11 s) ∧
    ∀ (i : Instr) (s : State), i.wellFormed = false → s.status.fault = false → Latched (exec i s) 11 s

/-- Every command answers a next state in every state; no step is refused; a step stops only where the host reaches an
address that does not exist (R40); stopping there, and that a plane of a component `c ≥ NCOMP` has no address, is the
model's choice (logs 12 and 25). -/
def Obligations.EveryCommandAnswersANextState : Prop :=
  (∀ (i : Instr) (s : State), ∃ t, exec i s = .next t) ∧
  (∀ (s : State) (r : Refusal), step s ≠ .refused r) ∧
  ∀ (s : State) (f : Fault), step s = .fault f → ∃ a rest, s.bus = a :: rest ∧
    match a with
    | .write offset _ => 0x1000 ≤ offset.toNat
    | .read offset => 0x1000 ≤ offset.toNat
    | .narrow offset => 0x1000 ≤ offset.toNat
    | .storeInput _ _ => False
    | .readMemory space addr => s.spaceSize space ≤ addr
    | .hardReset => False

/-! ### Faults, modes, reset -/

/-- R225: while faulted every command word but RESET's and every register write is ignored; `STATUS`, `ERR`, `ERRPOS`
read their values; every other register reads any value. So does every address of the block's memories, one past the end
of the space included: that a read there goes on is the model's choice (log 8). -/
def Obligations.FaultedStateIgnoresAccesses : Prop :=
  ∀ s : State, s.status.fault = true →
    (∀ w : Word, w ≠ 0x01000000 → access s (.write 0 w) = .next s) ∧
    (∀ offset w : Word, offset ≠ 0 → offset.toNat < 0x1000 → access s (.write offset w) = .next s) ∧
    access s (.read 0x04) = .next { s with rdata := s.statusWord } ∧
    access s (.read 0x08) = .next { s with rdata := s.err.setWidth 32 } ∧
    access s (.read 0x0C) = .next { s with rdata := s.errpos } ∧
    (∀ offset : Word, offset.toNat < 0x1000 → offset.toNat % 4 = 0 → offset ≠ 0x04 → offset ≠ 0x08 → offset ≠ 0x0C →
      ∃ v n, access s (.read offset) = .next { s with rdata := v, draws := n }) ∧
    ∀ (space : Space) (a : Nat), space ≠ .input →
      ∃ v n, access s (.readMemory space a) = .next { s with rdata := v, draws := n }

/-- R224, R220, R15: a command that raises a fault leaves `ERRPOS` at the cursor, a code of the taxonomy in `ERR`, `FAULT` set
and `SCAN`, `DONE`, `OUTV`, `FULLV` and `BRV` as they were; of `MARKF`, which the bit reader may set and a restart clear on
the way, nothing is said. -/
def Obligations.RaisedFaultIsLatchedWithTheCursor : Prop :=
  ∀ (i : Instr) (s t : State), exec i s = .next t → s.status.fault = false → t.status.fault = true →
    t.errpos = t.stream.pos ∧ 2 ≤ t.err.toNat ∧ t.err.toNat ≤ 11 ∧ t.status = { s.status with fault := true } ∧
    t.stream.brv = s.stream.brv

/-- R250, R251, R252, R26: RESET and the hardware reset give every piece of state its reset value from any state, faulted
or not, and leave `IN` and the capacity; the state the model starts in has those values too. So a decode the host
abandons (R263) ends in such a state. -/
def Obligations.ResetGivesTheResetValues : Prop :=
  ∀ s : State,
    (∃ t, exec .reset s = .next t ∧ AtReset t ∧ t.input = s.input ∧ t.memCap = s.memCap ∧ t.bus = s.bus) ∧
    access s .hardReset = exec .reset s ∧ AtReset State.reset ∧
    (s.abandoned = true → ∃ t, step s = .next t ∧ AtReset t)

/-- The state the model starts in (R26; nothing stored in `IN`, no memory bound and no access pending are the model's
choice, logs 4, 5 and 9) meets the invariant. -/
def Obligations.ResetStateMeetsTheInvariant : Prop := State.reset.Inv

/-- From every state that meets the invariant, reached or not, a step gives a state that meets it. -/
def Obligations.StepKeepsTheInvariant : Prop :=
  ∀ s t : State, s.Inv → step s = .next t → t.Inv

/-- R200: NOP changes no state, in every mode and while faulted; a word with `op = 0` and another field non-zero is
malformed. -/
def Obligations.NopChangesNothing : Prop :=
  (∀ s : State, exec .nop s = .next s) ∧ encode .nop = 0x00000000 ∧
  ∀ (s : State) (w : Word), w.toNat / 2 ^ 24 = 0 → w ≠ 0 → s.status.fault = false →
    Latched (access s (.write 0 w)) 11 s

/-- R64: in scan mode only NOP, RESET, CC.PIX, ED.MCU, ED.SCAN and SCAN.END are accepted, in manual mode all but the last
three; another command raises `ProtocolFault` and changes nothing. So does, in manual mode, a command that needs bits while
no cursor has been set (R65 check 4). NOP, RESET and CC.PIX never fault. -/
def Obligations.CommandsInTheWrongModeLatchProtocolFault : Prop :=
  (∀ (i : Instr) (s : State), Scanning s → i ∉ [.nop, .reset, .ccPix, .edMcu, .edScan, .scanEnd] →
    Latched (exec i s) 11 s) ∧
  (∀ (i : Instr) (s : State), Manual s → i ∈ [.edMcu, .edScan, .scanEnd] → Latched (exec i s) 11 s) ∧
  (∀ (i : Instr) (s : State), Manual s → s.stream.brv = false →
    (i ∈ [.brBit, .brAlign, .edRst] ∨ (∃ n, i = .brBits n) ∨ (∃ cl id, i = .htDec cl id) ∨ (∃ n, i = .edRcvx n) ∨
      ∃ c, i = .edDc c ∨ i = .edAc c ∨ i = .edBlock c) →
    Latched (exec i s) 11 s) ∧
  ∀ (i : Instr) (s t : State), s.status.fault = false → i ∈ [.nop, .reset, .ccPix] → exec i s = .next t →
    t.status.fault = false

/-- R15, R64, R256, R19: of all commands and accesses of the host only SCAN.START enters scan mode, and only SCAN.END,
ED.SCAN, RESET and the hardware reset leave it; while it lasts none of them changes the configuration or a table. -/
def Obligations.ScanModeFreezesConfigurationAndTables : Prop :=
  (∀ (i : Instr) (s t : State), exec i s = .next t →
    (s.status.scan = false → t.status.scan = true → i = .scanStart) ∧
    (s.status.scan = true → t.status.scan = false → i = .scanEnd ∨ i = .edScan ∨ i = .reset)) ∧
  ∀ s t : State, step s = .next t →
    (s.status.scan = false → t.status.scan = true → ∃ rest, s.bus = .write 0 (encode .scanStart) :: rest) ∧
    (s.status.scan = true → t.status.scan = false → ∃ rest, s.bus = .hardReset :: rest ∨
      ∃ i : Instr, i ∈ [.scanEnd, .edScan, .reset] ∧ s.bus = .write 0 (encode i) :: rest) ∧
    (s.status.scan = true → t.status.scan = true →
      t.setup = s.setup ∧ t.tables = s.tables ∧ t.memCap = s.memCap)

/-- R15, R226, R263: `FAULT` and `BRV` are cleared by a reset only; `DONE`, `OUTV` and `FULLV`, and with them the
completion of a decode, by a reset, SCAN.START or a write to a configuration register only. -/
def Obligations.OnlyResetClearsFaultAndCursorFlags : Prop :=
  ∀ s t : State, step s = .next t →
    ((s.status.fault = true ∧ t.status.fault = false) ∨ (s.stream.brv = true ∧ t.stream.brv = false) →
      s.abandoned = true) ∧
    ((s.status.done = true ∧ t.status.done = false) ∨ (s.status.outv = true ∧ t.status.outv = false) ∨
        (∃ c : Fin 4, s.status.fullv[c] = true ∧ t.status.fullv[c] = false) ∨
        (∃ w, s.completed w = true ∧ t.completed w = false) →
      s.abandoned = true ∨ ∃ offset w rest, s.bus = .write offset w :: rest ∧
        ((offset = 0 ∧ w = 0x38000000) ∨
          offset.toNat ∈ [0x18, 0x1C, 0x20, 0x24, 0x28, 0x30, 0x34, 0x38, 0x3C]))

/-- R12: the predictors are written by ED.DC, ED.BLOCK, ED.MCU, ED.SCAN, BR.INIT, SCAN.START, ED.RST and reset only; the
host cannot write them. -/
def Obligations.PredictorsHaveNoOtherWriters : Prop :=
  ∀ s t : State, step s = .next t → t.walk.pred ≠ s.walk.pred →
    (∃ rest, s.bus = .hardReset :: rest) ∨
    ∃ (i : Instr) (rest : List HostAccess), s.bus = .write 0 (encode i) :: rest ∧
      (i ∈ [.edMcu, .edScan, .brInit, .scanStart, .edRst, .reset] ∨ (∃ c, i = .edDc c) ∨ ∃ c, i = .edBlock c)

/-! ### Registers and memories as the host sees them -/

/-- R19: a write to a configuration register takes effect at once and clears `DONE`, `OUTV`, `FULLV` in manual mode; in
scan mode a write to one of them or to a `COEF` or `NAT` window raises `ProtocolFault` and changes nothing else. -/
def Obligations.ConfigurationWritesFollowTheMode : Prop :=
  ∀ (s : State) (w : Word), s.status.fault = false →
    (s.status.scan = false →
      let cleared : Status := { s.status with done := false, outv := false, fullv := Vector.replicate 4 false }
      let fields : CompCfg := { v := w.extractLsb' 0 4, h := w.extractLsb' 4 4, tq := w.extractLsb' 8 4,
                                td := w.extractLsb' 12 4, ta := w.extractLsb' 16 4 }
      access s (.write 0x18 w) = .next { s with status := cleared, setup := { s.setup with inLen := w } } ∧
      access s (.write 0x1C w) =
        .next { s with status := cleared, setup := { s.setup with proc := w.extractLsb' 0 8 } } ∧
      access s (.write 0x20 w) = .next { s with
        status := cleared, setup := { s.setup with width := w.extractLsb' 0 16, height := w.extractLsb' 16 16 } } ∧
      access s (.write 0x24 w) =
        .next { s with status := cleared, setup := { s.setup with ncomp := w.extractLsb' 0 8 } } ∧
      access s (.write 0x28 w) =
        .next { s with status := cleared, setup := { s.setup with ri := w.extractLsb' 0 16 } } ∧
      ∀ c : Fin 4, access s (.write (BitVec.ofNat 32 (0x30 + 4 * c.val)) w) = .next { s with
        status := cleared
        setup := { s.setup with comp := s.setup.comp.set c fields } }) ∧
    (s.status.scan = true → ∀ offset : Nat,
      offset ∈ [0x18, 0x1C, 0x20, 0x24, 0x28, 0x30, 0x34, 0x38, 0x3C] ∨
      (∃ i : Fin 64, offset = 0x100 + 4 * i.val ∨ offset = 0x300 + 4 * i.val) →
      access s (.write (BitVec.ofNat 32 offset) w) = .next { s with
        status := { s.status with fault := true }, err := 11, errpos := s.stream.pos })

/-- R27, R204, R203, R18: in manual mode a `COEF` window takes the low 16 bits, a `NAT` window all 32; `ARG` is written in
both modes; none of them clears a flag. A write to any other read-only register or reserved offset is ignored. -/
def Obligations.OtherRegisterWritesTakeTheirRule : Prop :=
  (∀ (s : State) (w : Word), s.status.fault = false →
    access s (.write 0x14 w) = .next { s with arg := w } ∧
    (s.status.scan = false → ∀ i : Fin 64,
      access s (.write (BitVec.ofNat 32 (0x100 + 4 * i.val)) w) =
        .next { s with buf := { s.buf with coef := s.buf.coef.set i (w.extractLsb' 0 16) } } ∧
      access s (.write (BitVec.ofNat 32 (0x300 + 4 * i.val)) w) =
        .next { s with buf := { s.buf with nat := s.buf.nat.set i w } })) ∧
  ∀ (s : State) (w : Word) (offset : Nat), offset < 0x1000 → offset % 4 = 0 →
    offset ∉ [0x00, 0x14, 0x18, 0x1C, 0x20, 0x24, 0x28, 0x30, 0x34, 0x38, 0x3C] →
    ¬ (0x100 ≤ offset ∧ offset < 0x200) → ¬ (0x300 ≤ offset ∧ offset < 0x400) →
    access s (.write (BitVec.ofNat 32 offset) w) = .next s

/-- R16, R202: what a read of each control, configuration and counter register returns; it changes nothing else. -/
def Obligations.RegisterReadsReturnTheirFields : Prop :=
  ∀ s : State, s.status.fault = false →
    let reads (offset v : Nat) : Prop :=
      access s (.read (BitVec.ofNat 32 offset)) = .next { s with rdata := BitVec.ofNat 32 v }
    reads 0x00 0 ∧ reads 0x08 s.err.toNat ∧ reads 0x0C s.errpos.toNat ∧ reads 0x10 s.result.toNat ∧
    reads 0x14 s.arg.toNat ∧ reads 0x18 s.setup.inLen.toNat ∧ reads 0x1C s.setup.proc.toNat ∧
    reads 0x20 (s.setup.width.toNat + s.setup.height.toNat * 2 ^ 16) ∧ reads 0x24 s.setup.ncomp.toNat ∧
    reads 0x28 s.setup.ri.toNat ∧
    (∀ c : Fin 4, reads (0x30 + 4 * c.val) (s.setup.comp[c].v.toNat + s.setup.comp[c].h.toNat * 2 ^ 4 +
      s.setup.comp[c].tq.toNat * 2 ^ 8 + s.setup.comp[c].td.toNat * 2 ^ 12 + s.setup.comp[c].ta.toNat * 2 ^ 16)) ∧
    reads 0x40 s.stream.pos.toNat ∧ reads 0x44 (s.stream.cnt.val + s.stream.cur.toNat * 2 ^ 8) ∧
    reads 0x48 s.stream.markc.toNat ∧ reads 0x4C s.walk.mcucnt.toNat ∧ reads 0x50 s.walk.rstexp.toNat ∧
    reads 0x54 s.walk.mcuidx.toNat ∧
    (let valid : Prop := s.setup.numComps ∈ [1, 3, 4] ∧ ∀ c : Fin 4, c.val < s.setup.numComps →
        1 ≤ s.setup.hOf c ∧ s.setup.hOf c ≤ 4 ∧ 1 ≤ s.setup.vOf c ∧ s.setup.vOf c ≤ 4
     (valid → reads 0x58 (s.setup.mcuX + s.setup.mcuY * 2 ^ 16)) ∧ (¬ valid → reads 0x58 0)) ∧
    ∀ offset : Nat, offset < 0x1000 → offset % 4 = 0 →
      offset ∈ [0x2C, 0x5C] ∨ (0x70 ≤ offset ∧ offset < 0x100) ∨ 0x700 ≤ offset → reads offset 0

/-- R16, R27, R204: the predictors and the buffer windows read sign-extended, `TILE` zero-extended, `ACC` in two halves. -/
def Obligations.WindowReadsReturnTheBuffers : Prop :=
  ∀ s : State, s.status.fault = false →
    let reads (offset : Nat) (v : Int) : Prop :=
      access s (.read (BitVec.ofNat 32 offset)) = .next { s with rdata := BitVec.ofInt 32 v }
    (∀ c : Fin 4, reads (0x60 + 4 * c.val) s.walk.pred[c].toInt) ∧
    ∀ i : Fin 64,
      reads (0x100 + 4 * i.val) s.buf.coef[i].toInt ∧ reads (0x200 + 4 * i.val) s.buf.deq[i].toInt ∧
      reads (0x300 + 4 * i.val) s.buf.nat[i].toInt ∧ reads (0x400 + 8 * i.val) s.buf.acc[i].toInt ∧
      reads (0x404 + 8 * i.val) (s.buf.acc[i].toInt / 2 ^ 32) ∧ reads (0x600 + 4 * i.val) s.buf.tile[i].toNat

/-- R15: every bit of `STATUS`. -/
def Obligations.StatusBitsAreTheFlags : Prop :=
  ∀ s : State, ∃ w : Word, access s (.read 0x04) = .next { s with rdata := w } ∧
    w.getLsbD 0 = s.status.fault ∧ w.getLsbD 1 = s.stream.markf ∧ w.getLsbD 2 = s.stream.brv ∧
    w.getLsbD 3 = s.status.scan ∧ w.getLsbD 4 = s.status.done ∧ w.getLsbD 5 = s.status.outv ∧
    (∀ c : Fin 4, w.getLsbD (8 + c.val) = s.status.fullv[c]) ∧
    ∀ k : Nat, k ∉ [0, 1, 2, 3, 4, 5, 8, 9, 10, 11] → w.getLsbD k = false

/-- R40, R225: the host reads `IN` at any time, `PLANE[c]` with `DONE`, `FULL[c]` with `FULLV[c]`, `OUT` with `OUTV`,
within their sizes; before that, while faulted, and once a configuration write or SCAN.START has cleared the flag, a read
of the block's memories gives any value (the model's choice, logs 8 and 26). -/
def Obligations.HostReadsMemoriesWhenTheyAreReady : Prop :=
  ∀ s : State,
    (∀ a, a < s.setup.inLen.toNat →
      access s (.readMemory .input a) = .next { s with rdata := (storedByte s.input a).setWidth 32 }) ∧
    (∀ (c : Fin 4) (a : Nat), c.val < s.setup.numComps →
      (s.status.fault = false → s.status.done = true → a < s.setup.planeW c * s.setup.planeH c →
        access s (.readMemory (.plane c) a) = .next { s with rdata := (s.planeByte c a).setWidth 32 }) ∧
      (s.status.fault = false → s.status.fullv[c] = true → a < s.setup.w * s.setup.ht →
        access s (.readMemory (.full c) a) = .next { s with rdata := (s.fullByte c a).setWidth 32 })) ∧
    (∀ a, s.status.fault = false → s.status.outv = true →
      a < (if s.setup.numComps = 1 then 1 else if s.setup.numComps = 3 then 3 else 0) * (s.setup.w * s.setup.ht) →
      access s (.readMemory .out a) = .next { s with rdata := (s.outByte a).setWidth 32 }) ∧
    ∀ (space : Space) (a : Nat), s.spaceReady space = false →
      ∃ v n, access s (.readMemory space a) = .next { s with rdata := v, draws := n }

/-- R40, R56: the host's store to `IN` writes that byte and no other, and the block reads it, unless a stream has been
started: a store that changes the byte then leaves open what the block reads of `IN`, for the table loads until SCAN.END
and for the other commands until a new stream or a reset. Leaving it open so, and the record `watch` of such changes, which
only the commands named in the last clause touch, are the model's choice (log 13). -/
def Obligations.HostStoresWriteTheInputBuffer : Prop :=
  ∀ (s : State) (a : Word) (v : Byte),
    (∃ (m : Memory) (w : InputWatch) (n : Nat),
      access s (.storeInput a v) = .next { s with input := m, watch := w, draws := n } ∧
      m.read a.toNat = some v ∧ (∀ k, k ≠ a.toNat → m.read k = s.input.read k) ∧ w.ended = s.watch.ended ∧
      (s.stream.brv = false ∨ s.input.read a.toNat = some v → w = s.watch ∧ n = s.draws)) ∧
    (∀ t, access s (.storeInput a v) = .next t →
      (s.stream.brv = false → s.watch.changed = none →
        ∀ k, t.inBuf.byte k = if k = a.toNat then v else s.inBuf.byte k) ∧
      (s.watch.ended = true → ∀ k, t.tableBuf.byte k = if k = a.toNat then v else s.tableBuf.byte k) ∧
      ∀ t', exec .brInit t = .next t' ∨ exec .scanStart t = .next t' → t.status.fault = false →
        t'.status.fault = false →
        ∀ k, t'.inBuf.byte k = if k = a.toNat then v else storedByte s.input k) ∧
    ∀ (i : Instr) (t : State), exec i s = .next t → t.watch = s.watch ∨
      (i ∈ [.brInit, .scanStart, .reset] ∧ t.watch = { changed := none, ended := false }) ∨
      (i ∈ [.scanEnd, .edScan] ∧ t.watch = { s.watch with ended := true })

/-! ### Bit reader -/

/-- R97: BR.INIT sets the cursor from `ARG`, clears the bit state, the predictors and the restart state, and sets `BRV`;
`ARG > IN_LEN` raises `ProtocolFault`. -/
def Obligations.BrInitStartsAStream : Prop :=
  encode .brInit = 0x10000000 ∧ ∀ s : State, Manual s →
    (s.arg.toNat ≤ s.setup.inLen.toNat → ∃ watch : InputWatch, exec .brInit s = .next { s with
      stream := { pos := s.arg, cur := 0, cnt := 0, markf := false, markc := 0, brv := true }
      walk := { pred := Vector.replicate 4 0, mcucnt := 0, rstexp := 0, mcuidx := s.walk.mcuidx }
      watch := watch }) ∧
    (s.setup.inLen.toNat < s.arg.toNat → Latched (exec .brInit s) 11 s)

/-- R98, with R91, R92, R93 and the byte patterns of R67: every case of BR.BIT. -/
def Obligations.BrBitDeliversTheNextBit : Prop :=
  encode .brBit = 0x11000000 ∧
  (∀ s : State, Manual s → s.stream.brv = false → Latched (exec .brBit s) 11 s) ∧
  ∀ s : State, Streaming s →
    (∀ n : Fin 8, s.stream.cnt.val = n.val + 1 → exec .brBit s = .next { s with
      stream := { s.stream with cnt := ⟨n.val, by omega⟩ }
      result := if s.stream.cur.getLsbD n.val then 1 else 0 }) ∧
    (s.stream.cnt = 0 → s.stream.markf = true →
      exec .brBit s = .next { s with result := BitVec.ofNat 32 (0x80000000 + s.stream.markc.toNat) }) ∧
    (s.stream.cnt = 0 → s.stream.markf = false →
      (s.setup.inLen.toNat ≤ s.stream.pos.toNat → Latched (exec .brBit s) 8 s) ∧
      (s.stream.pos.toNat < s.setup.inLen.toNat → s.inBuf.byte s.stream.pos.toNat ≠ 0xFF →
        exec .brBit s = .next { s with
          stream := { s.stream with cur := s.inBuf.byte s.stream.pos.toNat, cnt := 7, pos := s.stream.pos + 1 }
          result := if (s.inBuf.byte s.stream.pos.toNat).getLsbD 7 then 1 else 0 }) ∧
      (s.inBuf.byte s.stream.pos.toNat = 0xFF → s.setup.inLen.toNat = s.stream.pos.toNat + 1 →
        Latched (exec .brBit s) 8 s) ∧
      (s.inBuf.byte s.stream.pos.toNat = 0xFF → s.stream.pos.toNat + 1 < s.setup.inLen.toNat →
        (s.inBuf.byte (s.stream.pos.toNat + 1) = 0x00 → exec .brBit s = .next { s with
          stream := { s.stream with cur := 0xFF, cnt := 7, pos := s.stream.pos + 2 }, result := 1 }) ∧
        (s.inBuf.byte (s.stream.pos.toNat + 1) ≠ 0x00 → exec .brBit s = .next { s with
          stream := { s.stream with markf := true, markc := s.inBuf.byte (s.stream.pos.toNat + 1) }
          result := BitVec.ofNat 32 (0x80000000 + (s.inBuf.byte (s.stream.pos.toNat + 1)).toNat) })))

/-- R99, R94: BR.BITS takes the next `n` bits as one value, the first most significant; `n = 0` touches nothing. Where
fewer are left they are all taken, and the marker is reported, or the end of the data is a fault. -/
def Obligations.BrBitsTakesTheNextBitsAsOneValue : Prop :=
  ∀ (s : State) (n : Nat), Streaming s → n ≤ 16 →
    exec (.brBits 0) s = .next { s with result := 0 } ∧
    (∀ taken rest : List Bool, bitsOf s = taken ++ rest → taken.length = n →
      ∃ r, exec (.brBits (fieldOf n)) s =
          .next { s with stream := r, result := BitVec.ofNat 32 (bitsValue taken) } ∧
        Took s.inBuf s.stream rest r) ∧
    ((bitsOf s).length < n → s.stream.markf = true ∨ endOf s + 1 < s.setup.inLen.toNat →
      ∃ r, exec (.brBits (fieldOf n)) s =
          .next { s with stream := r, result := BitVec.ofNat 32 (0x80000000 + r.markc.toNat) } ∧
        streamBits s.inBuf r = [] ∧ r.markf = true ∧
        r.markc = if s.stream.markf then s.stream.markc else s.inBuf.byte (endOf s + 1)) ∧
    ((bitsOf s).length < n → s.stream.markf = false → s.setup.inLen.toNat ≤ endOf s + 1 →
      ∃ r, Latched (exec (.brBits (fieldOf n)) s) 8 { s with stream := r } ∧ streamBits s.inBuf r = [] ∧
        r.markf = false)

/-- R100, R95: BR.ALIGN drops the undelivered bits of the current byte and changes nothing else. -/
def Obligations.BrAlignDropsTheRestOfTheByte : Prop :=
  encode .brAlign = 0x13000000 ∧
  (∀ s : State, Streaming s → exec .brAlign s = .next { s with stream := { s.stream with cnt := 0 } }) ∧
  ∀ s : State, Manual s → s.stream.brv = false → Latched (exec .brAlign s) 11 s

/-! ### Huffman tables -/

/-- R114, R112, R113, R74: HT.LOAD reads the counts and symbols at `ARG`, checks them in order, and makes the canonical
table; the other slots stay. -/
def Obligations.HtLoadBuildsTheCanonicalTable : Prop :=
  (∀ (cl : Fin 2) (id : Fin 16),
    encode (.htLoad (fieldOf cl) (fieldOf id)) = BitVec.ofNat 32 (0x20000000 + cl.val * 2 ^ 16 + id.val * 2 ^ 8)) ∧
  ∀ (s : State) (cl : Fin 2) (id : Fin 16), Manual s →
    let L (l : Nat) : Nat := (s.tableBuf.byte (s.arg.toNat + l)).toNat
    let nsym : Nat := ((List.range 16).map L).sum
    let valid : Prop := s.arg.toNat + 16 ≤ s.setup.inLen.toNat ∧ nsym ≤ 256 ∧
      s.arg.toNat + 16 + nsym ≤ s.setup.inLen.toNat ∧ ∀ l < 16, firstCode L l + L l ≤ 2 ^ (l + 1)
    (valid → ∃ (t : State) (table : HuffTable), exec (.htLoad (fieldOf cl) (fieldOf id)) s = .next t ∧
      t.tables.huff cl id = some table ∧ table.nsym = nsym ∧ table.sym.length = nsym ∧
      (∀ l : Fin 16, (table.counts[l]).toNat = L l.val ∧ table.first[l] = firstCode L l.val ∧
        table.offset[l] = firstIndex L l.val) ∧
      (∀ j < nsym, table.sym[j]? = some (s.tableBuf.byte (s.arg.toNat + 16 + j))) ∧
      (∀ cl' id', (cl', id') ≠ (cl, id) → t.tables.huff cl' id' = s.tables.huff cl' id') ∧
      t.tables.qt = s.tables.qt ∧
      t = { s with tables := t.tables, result := BitVec.ofNat 32 (16 + nsym) }) ∧
    (¬ valid → Latched (exec (.htLoad (fieldOf cl) (fieldOf id)) s) 3 s)

/-- R116, R117, R115: HT.DEC decodes every assigned code of a built table to its symbol and takes exactly its bits. Bits
that begin with no code are rejected after the 16th, or where the data ends before; an empty slot is not defined. -/
def Obligations.HtDecDecodesExactlyTheAssignedCodes : Prop :=
  ∀ (s : State) (cl : Fin 2) (id : Fin 16), Streaming s →
    (s.tables.huff cl id = none → Latched (exec (.htDec (fieldOf cl) (fieldOf id)) s) 4 s) ∧
    ∀ table : HuffTable, s.tables.huff cl id = some table → table.Built →
      (∀ (code : Code) (rest : List Bool), code.Assigned table → bitsOf s = code.bits table ++ rest →
        ∃ r, exec (.htDec (fieldOf cl) (fieldOf id)) s =
            .next { s with stream := r, result := (code.symbol table).setWidth 32 } ∧
          Took s.inBuf s.stream rest r) ∧
      (∀ taken rest : List Bool, taken.length = 16 → bitsOf s = taken ++ rest →
        (∀ code : Code, code.Assigned table → ¬ code.bits table <+: taken) →
        ∃ r, Latched (exec (.htDec (fieldOf cl) (fieldOf id)) s) 5 { s with stream := r } ∧
          Took s.inBuf s.stream rest r) ∧
      ((bitsOf s).length < 16 → (∀ code : Code, code.Assigned table → ¬ code.bits table <+: bitsOf s) →
        ∃ r, Latched (exec (.htDec (fieldOf cl) (fieldOf id)) s) 8 { s with stream := r } ∧
          streamBits s.inBuf r = [])

/-- R111, R115: in a built table no code is a prefix of another. -/
def Obligations.NoCodeIsAPrefixOfAnother : Prop :=
  ∀ (table : HuffTable) (c c' : Code), table.Built → c.Assigned table → c'.Assigned table →
    c.bits table <+: c'.bits table → c = c'

/-! ### Entropy decoder -/

/-- R130: `extend` by cases, its range, and that it undoes the encoder's map on every value of each category. -/
def Obligations.ExtendUndoesTheEncodersMap : Prop :=
  (∀ v s : Nat, 1 ≤ s → s ≤ 11 → v < 2 ^ s →
    (v < 2 ^ (s - 1) → extend v s = (v : Int) - (2 ^ s - 1) ∧ -(2 ^ s - 1) ≤ extend v s ∧ extend v s ≤ -2 ^ (s - 1)) ∧
    (2 ^ (s - 1) ≤ v → extend v s = v ∧ 2 ^ (s - 1) ≤ extend v s ∧ extend v s ≤ 2 ^ s - 1)) ∧
  (∀ v : Nat, extend v 0 = 0) ∧
  ∀ (s : Nat) (x : Int), 1 ≤ s → s ≤ 11 → 2 ^ (s - 1) ≤ |x| → |x| ≤ 2 ^ s - 1 →
    extend (if 0 < x then x else x + 2 ^ s - 1).toNat s = x

/-- R132, R131: ED.RCVX takes exactly `s` bits and returns them sign-extended; where they are not there it faults. -/
def Obligations.EdRcvxSignExtendsTheNextBits : Prop :=
  ∀ (s : State) (n : Nat), Streaming s → n ≤ 11 →
    (∀ taken rest : List Bool, taken.length = n → bitsOf s = taken ++ rest →
      ∃ r, exec (.edRcvx (fieldOf n)) s =
          .next { s with stream := r, result := BitVec.ofInt 32 (extend (bitsValue taken) n) } ∧
        Took s.inBuf s.stream rest r) ∧
    ((bitsOf s).length < n →
      ∃ r, Latched (exec (.edRcvx (fieldOf n)) s) 8 { s with stream := r } ∧ streamBits s.inBuf r = [])

/-- R133, R134, R73: a coded DC difference at the front of the stream is added to the predictor and stored; a sum that
leaves 16 bits is a `RangeFault` that stores nothing; a slot never loaded, a symbol above 11 and sixteen bits that begin
with no code are faults; so are data that end in the code or in its additional bits (R96, R131). -/
def Obligations.EdDcDecodesOneDcValue : Prop :=
  (∀ (s : State) (c : Fin 4) (td : HuffTable) (cb : CodedBlock) (d : Int) (rest : List Bool), Streaming s →
    s.tables.huff 0 (slotOfId s.setup.comp[c].td) = some td → td.Built → cb.difference td = some d →
    bitsOf s = cb.dcBits td ++ rest →
    let v : Int := s.walk.pred[c].toInt + d
    (Fits16 v → ∃ r, exec (.edDc (fieldOf c)) s = .next { s with
        stream := r, walk := { s.walk with pred := s.walk.pred.set c (BitVec.ofInt 16 v) }
        buf := { s.buf with coef := s.buf.coef.set 0 (BitVec.ofInt 16 v) }, result := BitVec.ofInt 32 v } ∧
      Took s.inBuf s.stream rest r) ∧
    (¬ Fits16 v → ∃ r, Latched (exec (.edDc (fieldOf c)) s) 10 { s with stream := r } ∧
      Took s.inBuf s.stream rest r)) ∧
  ∀ (s : State) (c : Fin 4), Streaming s →
    (s.tables.huff 0 (slotOfId s.setup.comp[c].td) = none → Latched (exec (.edDc (fieldOf c)) s) 4 s) ∧
    (∀ td : HuffTable, s.tables.huff 0 (slotOfId s.setup.comp[c].td) = some td → td.Built →
      (∀ taken rest : List Bool, taken.length = 16 → bitsOf s = taken ++ rest →
        (∀ code : Code, code.Assigned td → ¬ code.bits td <+: taken) →
        ∃ r, Latched (exec (.edDc (fieldOf c)) s) 5 { s with stream := r } ∧ Took s.inBuf s.stream rest r) ∧
      ((bitsOf s).length < 16 → (∀ code : Code, code.Assigned td → ¬ code.bits td <+: bitsOf s) →
        ∃ r, Latched (exec (.edDc (fieldOf c)) s) 8 { s with stream := r } ∧ streamBits s.inBuf r = [])) ∧
    ∀ (td : HuffTable) (code : Code) (rest : List Bool),
      s.tables.huff 0 (slotOfId s.setup.comp[c].td) = some td → td.Built → code.Assigned td →
      bitsOf s = code.bits td ++ rest →
      (11 < (code.symbol td).toNat →
        ∃ r, Latched (exec (.edDc (fieldOf c)) s) 5 { s with stream := r } ∧ Took s.inBuf s.stream rest r) ∧
      ((code.symbol td).toNat ≤ 11 → rest.length < (code.symbol td).toNat →
        ∃ r, Latched (exec (.edDc (fieldOf c)) s) 8 { s with stream := r } ∧ streamBits s.inBuf r = [])

/-- R135, R136, R71, R72: a coded AC part at the front of the stream becomes `COEF[1..63]`; `COEF[0]` and the predictors
stay; `RESULT` is the end index. -/
def Obligations.EdAcDecodesTheCodedCoefficients : Prop :=
  ∀ (s : State) (c : Fin 4) (ta : HuffTable) (cb : CodedBlock) (k : Nat) (f : Block (BitVec 16)) (rest : List Bool),
    Streaming s → s.tables.huff 1 (slotOfId s.setup.comp[c].ta) = some ta → ta.Built →
    cb.coefficients ta s.buf.coef = some (k, f) → bitsOf s = cb.acBits ta ++ rest →
    f[0] = s.buf.coef[0] ∧ 1 ≤ k ∧ k ≤ 64 ∧
    ∃ r, exec (.edAc (fieldOf c)) s = .next { s with
        stream := r, buf := { s.buf with coef := f }, result := BitVec.ofNat 32 k } ∧
      Took s.inBuf s.stream rest r

/-- R135, R73, R227: after legal tokens, a symbol with no meaning, a run past position 63 and a ZRL past the end of the
block are faults, the symbol's size checked before the position; so are sixteen bits that begin with no code, and data
that end in a code or in its additional bits (R96, R131). A slot never loaded is a fault (R136). -/
def Obligations.EdAcRejectsBadSymbolsAndOverflow : Prop :=
  (∀ (s : State) (c : Fin 4), Streaming s → s.tables.huff 1 (slotOfId s.setup.comp[c].ta) = none →
    Latched (exec (.edAc (fieldOf c)) s) 4
      { s with buf := { s.buf with coef := (Vector.replicate 64 0).set 0 s.buf.coef[0] } }) ∧
  ∀ (s : State) (c : Fin 4) (ta : HuffTable) (toks : List AcToken) (k : Nat) (f : Block (BitVec 16))
    (left : List Bool), Streaming s → s.tables.huff 1 (slotOfId s.setup.comp[c].ta) = some ta → ta.Built →
    expandAc ta toks 1 ((Vector.replicate 64 0).set 0 s.buf.coef[0]) = some (k, f) → k ≤ 63 →
    bitsOf s = tokensBits ta toks ++ left →
    let rejected (kind : Byte) (rest : List Bool) : Prop :=
      ∃ r, Latched (exec (.edAc (fieldOf c)) s) kind { s with stream := r, buf := { s.buf with coef := f } } ∧
        Took s.inBuf s.stream rest r
    let dataEnded : Prop :=
      ∃ r, Latched (exec (.edAc (fieldOf c)) s) 8 { s with stream := r, buf := { s.buf with coef := f } } ∧
        streamBits s.inBuf r = []
    (∀ (code : Code) (rest : List Bool), code.Assigned ta → left = code.bits ta ++ rest →
      let run := runField (code.symbol ta)
      let size := sizeField (code.symbol ta)
      (11 < size ∨ (size = 0 ∧ run ≠ 0 ∧ run ≠ 15) → rejected 5 rest) ∧
      ((size = 0 ∧ run = 15 ∧ 49 ≤ k) ∨ (1 ≤ size ∧ size ≤ 11 ∧ 63 < k + run) → rejected 6 rest) ∧
      (1 ≤ size ∧ size ≤ 11 ∧ k + run ≤ 63 ∧ rest.length < size → dataEnded)) ∧
    (∀ taken rest : List Bool, taken.length = 16 → left = taken ++ rest →
      (∀ code : Code, code.Assigned ta → ¬ code.bits ta <+: taken) → rejected 5 rest) ∧
    (left.length < 16 → (∀ code : Code, code.Assigned ta → ¬ code.bits ta <+: left) → dataEnded)

/-- R137, R138: a coded block at the front of the stream becomes all of `COEF`, and its difference moves the
predictor; where the data end inside the block, wherever it is, it is an `UnexpectedEndOfStream` (R96). -/
def Obligations.EdBlockDecodesTheCodedBlock : Prop :=
  ∀ (s : State) (c : Fin 4) (td ta : HuffTable) (cb : CodedBlock) (d : Int) (k : Nat) (f : Block (BitVec 16))
    (rest : List Bool), Streaming s →
    s.tables.huff 0 (slotOfId s.setup.comp[c].td) = some td → td.Built →
    s.tables.huff 1 (slotOfId s.setup.comp[c].ta) = some ta → ta.Built →
    cb.difference td = some d → Fits16 (s.walk.pred[c].toInt + d) →
    cb.coefficients ta ((Vector.replicate 64 0).set 0 (BitVec.ofInt 16 (s.walk.pred[c].toInt + d))) = some (k, f) →
    (bitsOf s = cb.bits td ta ++ rest →
      f[0].toInt = s.walk.pred[c].toInt + d ∧
      ∃ r, exec (.edBlock (fieldOf c)) s = .next { s with
          stream := r
          walk := { s.walk with pred := s.walk.pred.set c (BitVec.ofInt 16 (s.walk.pred[c].toInt + d)) }
          buf := { s.buf with coef := f }, result := BitVec.ofNat 32 k } ∧
        Took s.inBuf s.stream rest r) ∧
    (rest ≠ [] → cb.bits td ta = bitsOf s ++ rest →
      ∃ (r : Stream) (pred : Vector (BitVec 16) 4) (coef : Block (BitVec 16)),
        Latched (exec (.edBlock (fieldOf c)) s) 8 { s with
          stream := r, walk := { s.walk with pred := pred }, buf := { s.buf with coef := coef } } ∧
        streamBits s.inBuf r = [])

/-- R138: ED.BLOCK is ED.DC on a cleared block, then ED.AC. -/
def Obligations.EdBlockIsDcThenAc : Prop :=
  ∀ (s t : State) (c : Fin 4), Streaming s →
    exec (.edDc (fieldOf c)) { s with buf := { s.buf with coef := Vector.replicate 64 0 } } = .next t →
    exec (.edBlock (fieldOf c)) s = if t.status.fault then .next t else exec (.edAc (fieldOf c)) t

/-- R139: after `N` coded differences of a component its predictor has moved by their sum, whatever else is in the
stream after them. -/
def Obligations.PredictorIsTheSumOfDifferences : Prop :=
  ∀ (s : State) (c : Fin 4) (td : HuffTable) (cbs : List CodedBlock) (ds : List Int) (rest : List Bool), Streaming s →
    s.tables.huff 0 (slotOfId s.setup.comp[c].td) = some td → td.Built →
    cbs.map (fun cb => cb.difference td) = ds.map some →
    (∀ n ≤ ds.length, Fits16 (s.walk.pred[c].toInt + (ds.take n).sum)) →
    bitsOf s = cbs.flatMap (fun cb => cb.dcBits td) ++ rest →
    ∃ t, execAll (List.replicate cbs.length (.edDc (fieldOf c))) s = .next t ∧
      t.walk.pred[c].toInt = s.walk.pred[c].toInt + ds.sum ∧ bitsOf t = rest ∧
      ∀ c' : Fin 4, c' ≠ c → t.walk.pred[c'] = s.walk.pred[c']

/-- R141, R140, R68: ED.RST consumes exactly the marker `0xFF`, `0xD0 + RSTEXP` at the aligned cursor; anything else is a
`RestartSyncError`; without a cursor, and in scan mode, a `ProtocolFault`. -/
def Obligations.EdRstConsumesTheExpectedMarker : Prop :=
  encode .edRst = 0x34000000 ∧
  (∀ s : State, Manual s ∧ s.stream.brv = false ∨ Scanning s → Latched (exec .edRst s) 11 s) ∧
  ∀ s : State, Streaming s →
    let found : Prop := s.stream.pos.toNat + 1 < s.setup.inLen.toNat ∧ s.inBuf.byte s.stream.pos.toNat = 0xFF ∧
      (s.inBuf.byte (s.stream.pos.toNat + 1)).toNat = 0xD0 + s.walk.rstexp.toNat
    (found → exec .edRst s = .next { s with
      stream := { s.stream with cnt := 0, pos := s.stream.pos + 2, markf := false, markc := 0 }
      walk := { s.walk with
        pred := Vector.replicate 4 0, mcucnt := 0, rstexp := BitVec.ofNat 3 ((s.walk.rstexp.toNat + 1) % 8) }
      result := BitVec.ofNat 32 s.walk.rstexp.toNat }) ∧
    (¬ found → Latched (exec .edRst s) 7 { s with stream := { s.stream with cnt := 0 } })

/-- R142, R148: the blocks of an MCU: component by component, row by row; `H_c·V_c` of each, all within the planes. -/
def Obligations.McuBlocksStandInScanOrder : Prop :=
  ∀ (u : Setup) (mx my : Nat), u.accepted = true → mx < u.mcuX → my < u.mcuY →
    (∀ c : Fin 4, (u.mcuBlocks mx my).filter (fun blk => blk.1 = c) =
      if c.val < u.numComps then
        (List.range (u.vOf c * u.hOf c)).map fun n =>
          (c, mx * u.hOf c + n % u.hOf c, my * u.vOf c + n / u.hOf c)
      else []) ∧
    ((u.mcuBlocks mx my).map fun blk => blk.1.val).Pairwise (· ≤ ·) ∧
    ∀ blk ∈ u.mcuBlocks mx my, blk.2.1 * 8 + 8 ≤ u.planeW blk.1 ∧ blk.2.2 * 8 + 8 ≤ u.planeH blk.1

/-- R143, R172: ED.MCU, no restart due, on a coded MCU at the front of the stream: the blocks' tiles stand in the
planes, the predictors have moved, both counters are one up, `RESULT` is the new `MCUIDX`. Where the data end inside a
block, the tiles of the blocks before it stand in the planes, no other byte has changed, and it is an
`UnexpectedEndOfStream` (R96). -/
def Obligations.EdMcuDecodesTheCodedMcu : Prop :=
  ∀ (s : State) (m : List CodedBlock) (p : Picture) (rest : List Bool), Scanning s →
    s.walk.mcuidx.toNat < s.setup.nmcu → (s.setup.ri = 0 ∨ s.walk.mcucnt.toNat ≠ s.setup.ri.toNat) →
    (∀ cl id table, s.tables.huff cl id = some table → table.Built) →
    (addBlocks s (mcuBlocksAt s s.walk.mcuidx.toNat) m (pictureOf s) = some p →
      bitsOf s = blocksBits s (mcuBlocksAt s s.walk.mcuidx.toNat) m ++ rest →
      ∃ (r : Stream) (b : Buffers), exec .edMcu s = .next { s with
          stream := r
          walk := { s.walk with pred := p.pred, mcucnt := s.walk.mcucnt + 1, mcuidx := s.walk.mcuidx + 1 }
          buf := b, mem := { s.mem with plane := p.plane }, result := s.walk.mcuidx + 1 } ∧
        Took s.inBuf s.stream rest r) ∧
    ∀ (before after : List (Fin 4 × Nat × Nat)) (blk : Fin 4 × Nat × Nat) (k : CompTables) (cb : CodedBlock)
      (p' : Picture) (part : List Bool),
      mcuBlocksAt s s.walk.mcuidx.toNat = before ++ blk :: after →
      addBlocks s before m (pictureOf s) = some p →
      tablesOf s blk.1 = some k → addBlock k (s.setup.planeW blk.1) blk cb p = some p' →
      bitsOf s = blocksBits s before m ++ part → rest ≠ [] → cb.bits k.td k.ta = part ++ rest →
      ∃ (r : Stream) (pred : Vector (BitVec 16) 4) (b : Buffers), Latched (exec .edMcu s) 8 { s with
          stream := r, walk := { s.walk with pred := pred }, buf := b, mem := { s.mem with plane := p.plane } } ∧
        streamBits s.inBuf r = []

/-- R143, R140: when the interval is used up ED.MCU first consumes the restart marker and then decodes as from the state
that leaves; where the marker is missing it raises `RestartSyncError`. With every MCU decoded it raises `ProtocolFault`. -/
def Obligations.EdMcuRestartsWhenTheIntervalIsUsedUp : Prop :=
  encode .edMcu = 0x35000000 ∧
  ∀ s : State, Scanning s →
    (s.setup.nmcu ≤ s.walk.mcuidx.toNat → Latched (exec .edMcu s) 11 s) ∧
    (s.walk.mcuidx.toNat < s.setup.nmcu → s.setup.ri ≠ 0 → s.walk.mcucnt.toNat = s.setup.ri.toNat →
      let found : Prop := s.stream.pos.toNat + 1 < s.setup.inLen.toNat ∧ s.inBuf.byte s.stream.pos.toNat = 0xFF ∧
        (s.inBuf.byte (s.stream.pos.toNat + 1)).toNat = 0xD0 + s.walk.rstexp.toNat
      (found → exec .edMcu s = exec .edMcu { s with
        stream := { s.stream with cnt := 0, pos := s.stream.pos + 2, markf := false, markc := 0 }
        walk := { s.walk with pred := Vector.replicate 4 0, mcucnt := 0, rstexp := s.walk.rstexp + 1 } }) ∧
      (¬ found → Latched (exec .edMcu s) 7 { s with stream := { s.stream with cnt := 0 } }))

/-- R145: ED.SCAN is the `NMCU − MCUIDX` ED.MCU commands that are left, followed by SCAN.END; the first fault ends it.
In manual mode it is a `ProtocolFault`. -/
def Obligations.EdScanIsTheMcusThenScanEnd : Prop :=
  encode .edScan = 0x36000000 ∧ (∀ s : State, Manual s → Latched (exec .edScan s) 11 s) ∧
  ∀ s : State, s.Inv → Scanning s →
    exec .edScan s =
      execAll (List.replicate (s.setup.nmcu - s.walk.mcuidx.toNat) .edMcu ++ [.scanEnd]) s

/-- R145, R146, R148: on a stream that holds the coded MCUs that are left and at most seven padding bits before a
marker, ED.SCAN (no restart interval) decodes them all and ends the scan on that marker. -/
def Obligations.EdScanDecodesTheWholeScan : Prop :=
  ∀ (s : State) (ms : List (List CodedBlock)) (p : Picture) (rest : List Bool), s.Inv → Scanning s → s.setup.ri = 0 →
    s.walk.mcuidx.toNat + ms.length = s.setup.nmcu →
    addMcus s ms s.walk.mcuidx.toNat (pictureOf s) = some p →
    bitsOf s = mcusBits s ms s.walk.mcuidx.toNat ++ rest → rest.length < 8 →
    endOf s + 1 < s.setup.inLen.toNat → s.inBuf.byte (endOf s) = 0xFF → s.inBuf.byte (endOf s + 1) ≠ 0x00 →
    ∃ (r : Stream) (w : Walk) (b : Buffers) (watch : InputWatch), exec .edScan s = .next { s with
        stream := r, walk := w, buf := b, mem := { s.mem with plane := p.plane }
        status := { s.status with scan := false, done := true }
        result := (s.inBuf.byte (endOf s + 1)).setWidth 32, watch := watch } ∧
      r.pos.toNat = endOf s ∧ r.cnt = 0 ∧ r.markf = true ∧ r.markc = s.inBuf.byte (endOf s + 1) ∧
      w.pred = p.pred ∧ w.mcuidx.toNat = s.setup.nmcu

/-- R144: SCAN.START makes its checks in order, each with its own fault, and changes nothing where one fails; otherwise it
starts the stream, clears the flags and the counters, enters scan mode and returns `NMCU`. In scan mode it is a
`ProtocolFault`. -/
def Obligations.ScanStartChecksInOrder : Prop :=
  encode .scanStart = 0x38000000 ∧ (∀ s : State, Scanning s → Latched (exec .scanStart s) 11 s) ∧
  ∀ s : State, Manual s →
    let u := s.setup
    let comps (p : Fin 4 → Prop) : Prop := ∀ c : Fin 4, c.val < u.numComps → p c
    let inRange : Prop := comps fun c => 1 ≤ u.hOf c ∧ u.hOf c ≤ 4 ∧ 1 ≤ u.vOf c ∧ u.vOf c ≤ 4
    let ratios : Prop := comps fun c => u.hMax % u.hOf c = 0 ∧ u.vMax % u.vOf c = 0
    let quants : Prop := comps fun c => s.tables.quant (slotOfId u.comp[c].tq) ≠ none
    let huffs : Prop := comps fun c => s.tables.huff 0 (slotOfId u.comp[c].td) ≠ none ∧
      s.tables.huff 1 (slotOfId u.comp[c].ta) ≠ none
    let planes : Nat := ((List.finRange 4).map fun c => if c.val < u.numComps then u.planeW c * u.planeH c else 0).sum
    let output : Nat := if u.numComps = 1 then u.w * u.ht else if u.numComps = 3 then 3 * (u.w * u.ht) else 0
    let room : Prop := ∀ cap, s.memCap = some cap → planes ≤ cap ∧ u.numComps * (u.w * u.ht) ≤ cap ∧ output ≤ cap
    let dims : Prop := u.width ≠ 0 ∧ u.height ≠ 0
    (u.inLen.toNat < s.arg.toNat → Latched (exec .scanStart s) 11 s) ∧
    (s.arg.toNat ≤ u.inLen.toNat →
      (u.proc ≠ 0 → Latched (exec .scanStart s) 2 s) ∧
      (u.proc = 0 → u.numComps ∉ [1, 3, 4] → Latched (exec .scanStart s) 9 s) ∧
      (u.proc = 0 → u.numComps ∈ [1, 3, 4] → ¬ dims → Latched (exec .scanStart s) 3 s) ∧
      (u.proc = 0 → u.numComps ∈ [1, 3, 4] → dims → ¬ inRange → Latched (exec .scanStart s) 3 s) ∧
      (u.proc = 0 → u.numComps ∈ [1, 3, 4] → dims → inRange → ¬ ratios → Latched (exec .scanStart s) 9 s) ∧
      (u.proc = 0 → u.numComps ∈ [1, 3, 4] → dims → inRange → ratios → ¬ (quants ∧ huffs) →
        Latched (exec .scanStart s) 4 s) ∧
      (u.proc = 0 → u.numComps ∈ [1, 3, 4] → dims → inRange → ratios → quants → huffs → ¬ room →
        Latched (exec .scanStart s) 11 s) ∧
      (u.proc = 0 → u.numComps ∈ [1, 3, 4] → dims → inRange → ratios → quants → huffs → room →
        ∃ watch : InputWatch, exec .scanStart s = .next { s with
          stream := { pos := s.arg, cur := 0, cnt := 0, markf := false, markc := 0, brv := true }
          walk := { pred := Vector.replicate 4 0, mcucnt := 0, rstexp := 0, mcuidx := 0 }
          status := { s.status with
            scan := true, done := false, outv := false, fullv := Vector.replicate 4 false }
          result := BitVec.ofNat 32 u.nmcu, watch := watch }))

/-- R146: SCAN.END aligns, requires a marker at the cursor, reports it and leaves scan mode with `DONE`. Before the
last MCU, and in manual mode, it is a `ProtocolFault`. -/
def Obligations.ScanEndRequiresAMarker : Prop :=
  encode .scanEnd = 0x39000000 ∧ (∀ s : State, Manual s → Latched (exec .scanEnd s) 11 s) ∧
  ∀ s : State, Scanning s →
    let at' (k : Nat) : Byte := s.inBuf.byte (s.stream.pos.toNat + k)
    let aligned : Stream := { s.stream with cnt := 0 }
    (s.walk.mcuidx.toNat ≠ s.setup.nmcu → Latched (exec .scanEnd s) 11 s) ∧
    (s.walk.mcuidx.toNat = s.setup.nmcu →
      (s.setup.inLen.toNat ≤ s.stream.pos.toNat + 1 → Latched (exec .scanEnd s) 8 { s with stream := aligned }) ∧
      (s.stream.pos.toNat + 1 < s.setup.inLen.toNat →
        (at' 0 ≠ 0xFF ∨ at' 1 = 0x00 → Latched (exec .scanEnd s) 3 { s with stream := aligned }) ∧
        (at' 0 = 0xFF → at' 1 ≠ 0x00 → ∃ watch : InputWatch, exec .scanEnd s = .next { s with
          stream := { aligned with markf := true, markc := at' 1 }
          status := { s.status with scan := false, done := true }
          result := BitVec.ofNat 32 (at' 1).toNat, watch := watch })))

/-- R23, R24: the geometry of an accepted configuration: the maxima, the MCU counts that cover the image, the plane sizes,
and `NMCU ≤ 2^26`. -/
def Obligations.GeometryOfAnAcceptedConfiguration : Prop :=
  ∀ u : Setup, u.accepted = true →
    (∀ c : Fin 4, c.val < u.numComps → u.hOf c ≤ u.hMax ∧ u.vOf c ≤ u.vMax) ∧
    (∃ c : Fin 4, c.val < u.numComps ∧ u.hOf c = u.hMax) ∧ (∃ c : Fin 4, c.val < u.numComps ∧ u.vOf c = u.vMax) ∧
    (u.mcuX - 1) * (8 * u.hMax) < u.w ∧ u.w ≤ u.mcuX * (8 * u.hMax) ∧
    (u.mcuY - 1) * (8 * u.vMax) < u.ht ∧ u.ht ≤ u.mcuY * (8 * u.vMax) ∧
    u.nmcu = u.mcuX * u.mcuY ∧ u.nmcu ≤ 2 ^ 26 ∧
    ∀ c : Fin 4, u.planeW c = u.mcuX * 8 * u.hOf c ∧ u.planeH c = u.mcuY * 8 * u.vOf c

/-! ### Block reconstructor -/

/-- R160, R75, R46: QT.LOAD reads 64 entries of one byte, or of two with the high byte first; the other slots stay; a
definition that runs past `IN` is a `MalformedSegment`. -/
def Obligations.QtLoadReadsTheEntries : Prop :=
  (∀ (prec : Fin 2) (id : Fin 16), encode (.qtLoad (fieldOf prec) (fieldOf id)) =
    BitVec.ofNat 32 (0x28000000 + prec.val * 2 ^ 16 + id.val * 2 ^ 8)) ∧
  ∀ (s : State) (prec : Fin 2) (id : Fin 16), Manual s →
    let w := prec.val + 1
    (s.arg.toNat + 64 * w ≤ s.setup.inLen.toNat →
      ∃ (t : State) (q : Block (BitVec 16)), exec (.qtLoad (fieldOf prec) (fieldOf id)) s = .next t ∧
        t.tables.quant id = some q ∧
        (∀ i : Fin 64, (q[i]).toNat =
          if prec = 0 then (s.tableBuf.byte (s.arg.toNat + i.val)).toNat
          else 256 * (s.tableBuf.byte (s.arg.toNat + 2 * i.val)).toNat +
            (s.tableBuf.byte (s.arg.toNat + 2 * i.val + 1)).toNat) ∧
        (∀ id', id' ≠ id → t.tables.quant id' = s.tables.quant id') ∧ t.tables.ht = s.tables.ht ∧
        t = { s with tables := t.tables, result := BitVec.ofNat 32 (64 * w) }) ∧
    (s.setup.inLen.toNat < s.arg.toNat + 64 * w → Latched (exec (.qtLoad (fieldOf prec) (fieldOf id)) s) 3 s)

/-- R162, R161, R174: DQ.MUL multiplies exactly; dividing by a non-zero quantizer gives the coefficient back. -/
def Obligations.DqMulMultipliesExactly : Prop :=
  (∀ id : Fin 16, encode (.dqMul (fieldOf id)) = BitVec.ofNat 32 (0x40000000 + id.val * 2 ^ 8)) ∧
  ∀ (s : State) (id : Fin 16), Manual s →
    (s.tables.quant id = none → Latched (exec (.dqMul (fieldOf id)) s) 4 s) ∧
    ∀ q : Block (BitVec 16), s.tables.quant id = some q →
      ∃ d : Block Word, exec (.dqMul (fieldOf id)) s = .next { s with buf := { s.buf with deq := d } } ∧
        ∀ i : Fin 64, d[i].toInt = s.buf.coef[i].toInt * (q[i].toNat : Int) ∧
          (q[i].toNat ≠ 0 → d[i].toInt / (q[i].toNat : Int) = s.buf.coef[i].toInt ∧
            d[i].toInt % (q[i].toNat : Int) = 0)

/-- R164, R163: ZZ.SCAT writes `NAT[ZZ[i]] <- DEQ[i]`, every entry once, and undoes the zigzag. `ZZ` walks the
anti-diagonals, upwards on an even one and downwards on an odd one (the spec's own supply, from general knowledge: G3,
log 21). -/
def Obligations.ZzScatUndoesTheZigzag : Prop :=
  encode .zzScat = 0x41000000 ∧ Function.Bijective zz ∧ zz 0 = 0 ∧ zz 1 = 1 ∧ zz 2 = 8 ∧ zz 63 = 63 ∧
  (∀ i j : Fin 64, j.val = i.val + 1 →
    let row := (zz i).val / 8
    let col := (zz i).val % 8
    ((row + col) % 2 = 0 →
      (zz j).val = if col = 7 then 8 * (row + 1) + 7 else if row = 0 then col + 1 else 8 * (row - 1) + (col + 1)) ∧
    ((row + col) % 2 = 1 →
      (zz j).val = if row = 7 then 8 * 7 + (col + 1) else if col = 0 then 8 * (row + 1) else 8 * (row + 1) + (col - 1))) ∧
  (∀ s : State, Scanning s → Latched (exec .zzScat s) 11 s) ∧
  ∀ s : State, Manual s → ∃ n : Block Word, exec .zzScat s = .next { s with buf := { s.buf with nat := n } } ∧
    (∀ i : Fin 64, n[zz i] = s.buf.deq[i]) ∧
    ∀ natural : Block Word, (∀ i : Fin 64, s.buf.deq[i] = natural[zz i]) → n = natural

/-- R167, R166: IDCT.2D computes the exact integer sums over the kernel `K`, which has the symmetry and the bound R166
states. -/
def Obligations.IdctComputesTheExactSums : Prop :=
  encode .idct2d = 0x42000000 ∧
  (∀ u x : Fin 8, kernel u x.rev = (-1) ^ u.val * kernel u x) ∧
  (∀ x : Fin 8, ((List.finRange 8).map fun u => |kernel u x|).sum ≤ 21641) ∧
  (∀ s : State, Scanning s → Latched (exec .idct2d s) 11 s) ∧
  ∀ s : State, Manual s → ∃ acc : Block (BitVec 64),
    exec .idct2d s = .next { s with buf := { s.buf with acc := acc } } ∧
    ∀ y x : Fin 8,
      (acc[cell y x]).toInt =
        ((List.finRange 8).map fun v => kernel v y *
          ((List.finRange 8).map fun u => kernel u x * (s.buf.nat[cell v u]).toInt).sum).sum ∧
      |(acc[cell y x]).toInt| < 2 ^ 60

/-- R169, R168: LS.CLAMP rounds `ACC / 2^26` to the nearest integer, a tie going up, adds 128 and clamps to 0..255. -/
def Obligations.LsClampRoundsShiftsAndClamps : Prop :=
  encode .lsClamp = 0x43000000 ∧ (∀ s : State, Scanning s → Latched (exec .lsClamp s) 11 s) ∧
  ∀ s : State, Manual s → ∃ tile : Block Byte, exec .lsClamp s = .next { s with buf := { s.buf with tile := tile } } ∧
    ∀ i : Fin 64, ∃ n : Int,
      2 * n * 2 ^ 26 ≤ 2 * s.buf.acc[i].toInt + 2 ^ 26 ∧ 2 * s.buf.acc[i].toInt + 2 ^ 26 < 2 * (n + 1) * 2 ^ 26 ∧
      ((tile[i]).toNat : Int) = max 0 (min 255 (n + 128))

/-- R171, R170: BLK.RECON is DQ.MUL with the component's own table, then ZZ.SCAT, IDCT.2D and LS.CLAMP; it ends in a
state that differs in the buffers only, `COEF` unchanged. -/
def Obligations.BlkReconIsTheFourSteps : Prop :=
  ∀ (s : State) (c : Fin 4), Manual s →
    (s.tables.quant (slotOfId s.setup.comp[c].tq) = none → Latched (exec (.blkRecon (fieldOf c)) s) 4 s) ∧
    ∀ q : Block (BitVec 16), s.tables.quant (slotOfId s.setup.comp[c].tq) = some q →
      exec (.blkRecon (fieldOf c)) s =
        execAll [.dqMul (fieldOf (slotOfId s.setup.comp[c].tq)), .zzScat, .idct2d, .lsClamp] s ∧
      ∃ b : Buffers, exec (.blkRecon (fieldOf c)) s = .next { s with buf := b } ∧ b.coef = s.buf.coef

/-- R174: a block whose only non-zero coefficient is `COEF[0]` gives a flat tile of value
`ls(8386816·d·q)`. -/
def Obligations.DcOnlyBlockGivesAFlatTile : Prop :=
  ∀ (s t : State) (c : Fin 4) (q : Block (BitVec 16)), Manual s →
    s.tables.quant (slotOfId s.setup.comp[c].tq) = some q → (∀ i : Fin 64, i ≠ 0 → s.buf.coef[i] = 0) →
    exec (.blkRecon (fieldOf c)) s = .next t →
    ∀ i : Fin 64, t.buf.tile[i] = levelShift (8386816 * s.buf.coef[0].toInt * (q[0].toNat : Int))

/-! ### Upsampler and colour converter -/

/-- R181, R180, R182: UP.RUN fills every pixel of `FULL[c]` with the plane sample that covers it, which lies inside the
plane, writes nothing else of it, and sets `FULLV[c]`; its preconditions are `DONE` and `comp < NCOMP`. -/
def Obligations.UpRunReplicatesTheSamples : Prop :=
  ∀ (s : State) (c : Fin 4), Manual s →
    (s.status.done = false ∨ s.setup.numComps ≤ c.val → Latched (exec (.upRun (fieldOf c)) s) 11 s) ∧
    (s.status.done = true → c.val < s.setup.numComps → ∃ m : Memory,
      exec (.upRun (fieldOf c)) s = .next { s with
        mem := { s.mem with full := s.mem.full.set c m }
        status := { s.status with fullv := s.status.fullv.set c true } } ∧
      (∀ y x, y < s.setup.ht → x < s.setup.w →
        m.read (y * s.setup.w + x) = some (s.planeByte c
          ((y * s.setup.vOf c / s.setup.vMax) * s.setup.planeW c + x * s.setup.hOf c / s.setup.hMax)) ∧
        (s.setup.accepted = true → x * s.setup.hOf c / s.setup.hMax < s.setup.planeW c ∧
          y * s.setup.vOf c / s.setup.vMax < s.setup.planeH c)) ∧
      ∀ a, s.setup.w * s.setup.ht ≤ a → m.read a = s.mem.full[c].read a)

/-- R186, R187, R43: CC.RUN writes the sample of every pixel for one component, and R, G, B of every pixel for three;
for four components it is an `UnsupportedComponentLayout`; its preconditions are `DONE` and `FULLV[c]` for every
`c < NCOMP`. The number of components is one SCAN.START accepts, as `DONE` guarantees. -/
def Obligations.CcRunAssemblesTheOutput : Prop :=
  encode .ccRun = 0x51000000 ∧ (∀ s : State, Scanning s → Latched (exec .ccRun s) 11 s) ∧
  ∀ s : State, Manual s →
    let full : Prop := ∀ c : Fin 4, c.val < s.setup.numComps → s.status.fullv[c] = true
    (s.status.done = false ∨ ¬ full → Latched (exec .ccRun s) 11 s) ∧
    (s.status.done = true → full → s.setup.numComps = 4 → Latched (exec .ccRun s) 9 s) ∧
    (s.status.done = true → full → s.setup.numComps = 1 ∨ s.setup.numComps = 3 → ∃ m : Memory,
      exec .ccRun s = .next { s with mem := { s.mem with out := m }, status := { s.status with outv := true } } ∧
      (∀ y x, y < s.setup.ht → x < s.setup.w →
        let a := y * s.setup.w + x
        let rgb := ycc2rgb (s.fullByte 0 a) (s.fullByte 1 a) (s.fullByte 2 a)
        (s.setup.numComps = 1 → m.read a = some (s.fullByte 0 a)) ∧
        (s.setup.numComps = 3 → m.read (3 * a) = some rgb.1 ∧ m.read (3 * a + 1) = some rgb.2.1 ∧
          m.read (3 * a + 2) = some rgb.2.2)) ∧
      ∀ a, s.setup.numComps * (s.setup.w * s.setup.ht) ≤ a → m.read a = s.mem.out.read a)

/-- R185, R184: CC.PIX converts the pixel in `ARG`, in both modes, and touches nothing but `RESULT`; bits 31:24 of `ARG`
do not matter. Each channel is the exact decimal formula rounded to the nearest integer, a tie going up, and clamped;
neutral chroma gives the luma. -/
def Obligations.CcPixConvertsThePixelExactly : Prop :=
  encode .ccPix = 0x52000000 ∧
  (∀ (s : State) (y cb cr top : Byte), s.status.fault = false →
    s.arg.toNat = y.toNat + cb.toNat * 2 ^ 8 + cr.toNat * 2 ^ 16 + top.toNat * 2 ^ 24 →
    exec .ccPix s = .next { s with result := BitVec.ofNat 32 ((ycc2rgb y cb cr).1.toNat +
      (ycc2rgb y cb cr).2.1.toNat * 2 ^ 8 + (ycc2rgb y cb cr).2.2.toNat * 2 ^ 16) }) ∧
  ∀ y cb cr : Byte,
    let yy : Int := y.toNat
    let db : Int := (cb.toNat : Int) - 128
    let dr : Int := (cr.toNat : Int) - 128
    let rounds (millionths : Int) (b : Byte) : Prop := ∃ n : Int,
      2 * n * 1000000 ≤ 2 * millionths + 1000000 ∧ 2 * millionths + 1000000 < 2 * (n + 1) * 1000000 ∧
      (b.toNat : Int) = max 0 (min 255 n)
    rounds (1000000 * yy + 1402000 * dr) (ycc2rgb y cb cr).1 ∧
    rounds (1000000 * yy - 344136 * db - 714136 * dr) (ycc2rgb y cb cr).2.1 ∧
    rounds (1000000 * yy + 1772000 * db) (ycc2rgb y cb cr).2.2 ∧
    ycc2rgb y 128 128 = (y, y, y)

/-! ### Frames: what no next state of a command changes, a latched fault included -/

/-- BR.INIT, BR.BIT, BR.BITS, BR.ALIGN, HT.DEC, ED.RCVX and ED.RST change only the stream, the fault registers, `FAULT`
and `RESULT`; BR.INIT and ED.RST also the predictors, `MCUCNT` and `RSTEXP`, BR.INIT the model's record of changes of
`IN`. Not a byte of memory, no table, no buffer, no
configuration register changes. -/
def Obligations.StreamCommandsFrame : Prop :=
  ∀ (i : Instr) (s t : State), exec i s = .next t →
    (i ∈ [.brBit, .brAlign] ∨ (∃ n, i = .brBits n) ∨ (∃ cl id, i = .htDec cl id) ∨ (∃ n, i = .edRcvx n) →
      t = { s with
        stream := t.stream, status := { s.status with fault := t.status.fault }, err := t.err, errpos := t.errpos
        result := t.result, draws := t.draws }) ∧
    (i ∈ [.brInit, .edRst] →
      t = { s with
        stream := t.stream, status := { s.status with fault := t.status.fault }, err := t.err, errpos := t.errpos
        result := t.result, draws := t.draws
        walk := { t.walk with mcuidx := s.walk.mcuidx }, watch := t.watch }) ∧
    (i = .edRst → t.watch = s.watch)

/-- HT.LOAD and QT.LOAD change one slot; ED.DC, ED.AC and ED.BLOCK change the stream, `COEF` and at most their
component's predictor; DQ.MUL, ZZ.SCAT, IDCT.2D, LS.CLAMP and BLK.RECON change the buffers after `COEF`; all of them
the fault registers, `FAULT` and `RESULT`. Not a byte of memory changes. -/
def Obligations.ManualCommandsFrame : Prop :=
  ∀ (i : Instr) (s t : State), exec i s = .next t →
    let onlyBesides (tables : Tables) (stream : Stream) (walk : Walk) (buf : Buffers) : Prop :=
      t = { s with
        tables := tables, stream := stream, walk := walk, buf := buf
        status := { s.status with fault := t.status.fault }, err := t.err, errpos := t.errpos, result := t.result
        draws := t.draws }
    (∀ cl id : Byte, i = .htLoad cl id →
      onlyBesides { s.tables with ht := t.tables.ht } s.stream s.walk s.buf ∧
      ∀ (cl' : Fin 2) (id' : Fin 16), (cl'.val, id'.val) ≠ (cl.toNat, id.toNat) →
        t.tables.huff cl' id' = s.tables.huff cl' id') ∧
    (∀ prec id : Byte, i = .qtLoad prec id →
      onlyBesides { s.tables with qt := t.tables.qt } s.stream s.walk s.buf ∧
      ∀ id' : Fin 16, id'.val ≠ id.toNat → t.tables.quant id' = s.tables.quant id') ∧
    (∀ comp : Byte, i = .edDc comp ∨ i = .edBlock comp →
      onlyBesides s.tables t.stream { s.walk with pred := t.walk.pred } { s.buf with coef := t.buf.coef } ∧
      ∀ c : Fin 4, c.val ≠ comp.toNat → t.walk.pred[c] = s.walk.pred[c]) ∧
    (∀ comp : Byte, i = .edDc comp → ∀ k : Fin 64, k ≠ 0 → t.buf.coef[k] = s.buf.coef[k]) ∧
    (∀ comp : Byte, i = .edAc comp →
      onlyBesides s.tables t.stream s.walk { s.buf with coef := t.buf.coef } ∧ t.buf.coef[0] = s.buf.coef[0]) ∧
    (∀ id : Byte, i = .dqMul id → onlyBesides s.tables s.stream s.walk { s.buf with deq := t.buf.deq }) ∧
    (i = .zzScat → onlyBesides s.tables s.stream s.walk { s.buf with nat := t.buf.nat }) ∧
    (i = .idct2d → onlyBesides s.tables s.stream s.walk { s.buf with acc := t.buf.acc }) ∧
    (i = .lsClamp → onlyBesides s.tables s.stream s.walk { s.buf with tile := t.buf.tile }) ∧
    ∀ comp : Byte, i = .blkRecon comp → onlyBesides s.tables s.stream s.walk { t.buf with coef := s.buf.coef }

/-- ED.MCU and ED.SCAN write no byte of memory but the tiles of the MCUs they decode: for ED.MCU the blocks of MCU number
`MCUIDX`, for ED.SCAN those from `MCUIDX` to the last. `FULL`, `OUT`, the tables and the configuration stay, and ED.MCU
keeps the mode, `DONE` and the model's record of changes of `IN`. -/
def Obligations.ScanCommandsWriteOnlyTheirTiles : Prop :=
  ∀ (i : Instr) (s t : State), i = .edMcu ∨ i = .edScan → exec i s = .next t →
    t = { s with
      stream := t.stream, walk := t.walk, buf := t.buf, mem := { s.mem with plane := t.mem.plane }
      status := { s.status with fault := t.status.fault, scan := t.status.scan, done := t.status.done }
      err := t.err, errpos := t.errpos, result := t.result, draws := t.draws, watch := t.watch } ∧
    (i = .edMcu → t.status.scan = s.status.scan ∧ t.status.done = s.status.done ∧ t.watch = s.watch) ∧
    ∀ (c : Fin 4) (a : Nat),
      (∀ n, s.walk.mcuidx.toNat ≤ n → (i = .edMcu → n = s.walk.mcuidx.toNat) → n < s.setup.nmcu →
        ∀ bx by', (c, bx, by') ∈ mcuBlocksAt s n → ∀ row < 8, ∀ col < 8,
          a ≠ (by' * 8 + row) * s.setup.planeW c + (bx * 8 + col)) →
      t.mem.plane[c].read a = s.mem.plane[c].read a

/-- SCAN.START and SCAN.END change the stream, the counters and predictors (SCAN.START), the flags, the fault registers,
`RESULT` and the model's record of changes of `IN`; UP.RUN only pixels of `FULL[comp]` and `FULLV[comp]`, CC.RUN only pixels
of `OUT` and `OUTV`, and, where one of the two faults, `FAULT`, the fault registers and `RESULT`; CC.PIX only `RESULT`. -/
def Obligations.ScanBoundaryAndOutputCommandsFrame : Prop :=
  ∀ (i : Instr) (s t : State), exec i s = .next t →
    let onlyBesides (stream : Stream) (walk : Walk) (mem : Planes) (watch : InputWatch) : Prop :=
      t = { s with
        stream := stream, walk := walk, mem := mem, status := t.status, err := t.err, errpos := t.errpos
        result := t.result, draws := t.draws, watch := watch }
    let faultOnly : Prop := t.status.fault = s.status.fault →
      t.err = s.err ∧ t.errpos = s.errpos ∧ t.result = s.result ∧ t.draws = s.draws
    (i = .scanStart → onlyBesides t.stream t.walk s.mem t.watch) ∧
    (i = .scanEnd → onlyBesides t.stream s.walk s.mem t.watch ∧
      t.status.outv = s.status.outv ∧ t.status.fullv = s.status.fullv) ∧
    (∀ comp : Byte, i = .upRun comp → onlyBesides s.stream s.walk { s.mem with full := t.mem.full } s.watch ∧
      faultOnly ∧ t.status.scan = s.status.scan ∧ t.status.done = s.status.done ∧ t.status.outv = s.status.outv ∧
      ∀ c : Fin 4, (c.val ≠ comp.toNat → t.mem.full[c] = s.mem.full[c] ∧ t.status.fullv[c] = s.status.fullv[c]) ∧
        ∀ a, s.setup.w * s.setup.ht ≤ a → t.mem.full[c].read a = s.mem.full[c].read a) ∧
    (i = .ccRun → onlyBesides s.stream s.walk { s.mem with out := t.mem.out } s.watch ∧
      faultOnly ∧ t.status.scan = s.status.scan ∧ t.status.done = s.status.done ∧ t.status.fullv = s.status.fullv ∧
      ∀ a, (if s.setup.numComps = 1 then 1 else 3) * (s.setup.w * s.setup.ht) ≤ a →
        t.mem.out.read a = s.mem.out.read a) ∧
    (i = .ccPix → t = { s with result := t.result })
end

