-- ==== Sys2Proof/Laws/Res.lean ====
section
/-! SUPPORT. Runs that a fault can end: how a sequence of two behaves, what holds of the state either way, and what a
command does. -/

namespace Sys2Proof.Laws

open Sys2Proof.Machine

variable {σ α β : Type}

@[simp] theorem bind_ok (a : α) (s : σ) (f : α → σ → Res σ β) : (Res.ok a s).bind f = f a s := rfl

@[simp] theorem bind_raised (k : FaultKind) (s : σ) (f : α → σ → Res σ β) :
    (Res.raised k s : Res σ α).bind f = .raised k s := rfl

@[simp] theorem map_ok (f : α → β) (a : α) (s : σ) : (Res.ok a s).map f = .ok (f a) s := rfl

@[simp] theorem map_raised (f : α → β) (k : FaultKind) (s : σ) :
    (Res.raised k s : Res σ α).map f = .raised k s := rfl

@[simp] theorem onStream_ok (s : State) (a : α) (t : Stream) :
    (Res.ok a t).onStream s = .ok a { s with stream := t } := rfl

@[simp] theorem onStream_raised (s : State) (k : FaultKind) (t : Stream) :
    (Res.raised k t : Res Stream α).onStream s = .raised k { s with stream := t } := rfl

/-- A sequence of two ends with a value exactly when both do. -/
theorem bind_eq_ok {r : Res σ α} {f : α → σ → Res σ β} {b : β} {t : σ} :
    r.bind f = .ok b t ↔ ∃ a s, r = .ok a s ∧ f a s = .ok b t := by
  cases r with
  | ok a s => simp
  | raised k s => simp

/-- A property of the state a run leaves, whether it ends with a value or a fault. -/
def Leaves (P : σ → Prop) : Res σ α → Prop
  | .ok _ s => P s
  | .raised _ s => P s

@[simp] theorem leaves_ok {P : σ → Prop} {a : α} {s : σ} : Leaves P (.ok a s : Res σ α) ↔ P s := Iff.rfl

@[simp] theorem leaves_raised {P : σ → Prop} {k : FaultKind} {s : σ} :
    Leaves P (.raised k s : Res σ α) ↔ P s := Iff.rfl

theorem Leaves.bind {P : σ → Prop} {r : Res σ α} {f : α → σ → Res σ β} (h : Leaves P r)
    (hf : ∀ a s, P s → Leaves P (f a s)) : Leaves P (r.bind f) := by
  cases r with
  | ok a s => exact hf a s h
  | raised k s => exact h

/-- The same with another property between the two parts. -/
theorem Leaves.bind' {P Q : σ → Prop} {r : Res σ α} {f : α → σ → Res σ β} (h : Leaves Q r) (hq : ∀ s, Q s → P s)
    (hf : ∀ a s, Q s → Leaves P (f a s)) : Leaves P (r.bind f) := by
  cases r with
  | ok a s => exact hf a s h
  | raised k s => exact hq s h

theorem Leaves.map {P : σ → Prop} {r : Res σ α} {f : α → β} (h : Leaves P r) : Leaves P (r.map f) := by
  cases r <;> exact h

theorem Leaves.mono {P Q : σ → Prop} {r : Res σ α} (h : Leaves P r) (hpq : ∀ s, P s → Q s) : Leaves Q r := by
  cases r <;> exact hpq _ h

theorem Leaves.onStream {P : State → Prop} {s : State} {r : Res Stream α}
    (h : Leaves (fun t => P { s with stream := t }) r) : Leaves P (r.onStream s) := by
  cases r <;> exact h

/-- What a command can do: nothing while faulted, `ProtocolFault` where a check fails, else its pseudocode. -/
theorem command_cases {ok : State → Bool} {body : State → Res State Unit} {s t : State}
    (h : command ok body s = .next t) :
    (s.status.fault = true ∧ t = s) ∨
    (s.status.fault = false ∧ ok s = false ∧ t = faultCommand .protocolFault s) ∨
    (s.status.fault = false ∧ ok s = true ∧ body s = .ok () t) ∨
    (s.status.fault = false ∧ ok s = true ∧ ∃ k u, body s = .raised k u ∧ t = faultCommand k u) := by
  unfold command at h
  split at h
  · next hf => exact .inl ⟨hf, by simpa using h.symm⟩
  · next hf =>
    simp only [Bool.not_eq_true] at hf
    split at h
    · next ho =>
      split at h
      · next u hb => exact .inr (.inr (.inl ⟨hf, ho, by cases h; exact hb⟩))
      · next k u hb => exact .inr (.inr (.inr ⟨hf, ho, k, u, hb, by simpa using h.symm⟩))
    · next ho => exact .inr (.inl ⟨hf, by simpa using ho, by simpa using h.symm⟩)

/-- A command always answers a next state. -/
theorem command_next (ok : State → Bool) (body : State → Res State Unit) (s : State) :
    ∃ t, command ok body s = .next t := by
  unfold command
  split
  · exact ⟨_, rfl⟩
  · split
    · split <;> exact ⟨_, rfl⟩
    · exact ⟨_, rfl⟩

/-- A command whose checks pass and whose pseudocode ends completes. -/
theorem command_ok {ok : State → Bool} {body : State → Res State Unit} {s t : State} (hf : s.status.fault = false)
    (ho : ok s = true) (hb : body s = .ok () t) : command ok body s = .next t := by
  simp [command, hf, ho, hb]

/-- A command whose checks pass and whose pseudocode raises latches that fault. -/
theorem command_raised {ok : State → Bool} {body : State → Res State Unit} {s t : State} {k : FaultKind}
    (hf : s.status.fault = false) (ho : ok s = true) (hb : body s = .raised k t) :
    command ok body s = .next (faultCommand k t) := by
  simp [command, hf, ho, hb]

/-- A command whose checks fail latches `ProtocolFault` before any state changes. -/
theorem command_refused {ok : State → Bool} {body : State → Res State Unit} {s : State} (hf : s.status.fault = false)
    (ho : ok s = false) : command ok body s = .next (faultCommand .protocolFault s) := by
  simp [command, hf, ho]

/-- While faulted a command is ignored. -/
theorem command_faulted {ok : State → Bool} {body : State → Res State Unit} {s : State} (hf : s.status.fault = true) :
    command ok body s = .next s := by
  simp [command, hf]

end Sys2Proof.Laws
end

