-- ==== Sys2Proof/Laws/BitReader.lean ====
section
/-! SUPPORT. The bit reader against the stream as the spec describes it: a request takes the first bits of
`Spec.streamBits`, and says so when there are too few. -/

namespace Sys2Proof.Laws

open Sys2Proof.Machine Sys2Proof.Spec

/-! ### Numbers as bits -/

@[simp] theorem numberBits_zero (v : Nat) : numberBits 0 v = [] := rfl

@[simp] theorem numberBits_length (n v : Nat) : (numberBits n v).length = n := by simp [numberBits]

theorem numberBits_succ (n v : Nat) : numberBits (n + 1) v = v.testBit n :: numberBits n v := by
  simp only [numberBits, List.range_succ_eq_map, List.map_cons, List.map_map]
  congr 1
  refine List.map_congr_left fun i _ => ?_
  simp only [Function.comp]
  congr 1
  omega

/-- Shifting in one more bit at the right. -/
theorem numberBits_snoc (n v : Nat) : numberBits (n + 1) v = numberBits n (v / 2) ++ [v.testBit 0] := by
  simp only [numberBits, List.range_succ, List.map_append, List.map_cons, List.map_nil]
  congr 1
  · refine List.map_congr_left fun i hi => ?_
    rw [List.mem_range] at hi
    rw [← Nat.testBit_add_one]
    congr 1
    omega
  · congr 2
    omega

@[simp] theorem bitsValue_nil : bitsValue [] = 0 := rfl

theorem bitsValue_snoc (l : List Bool) (x : Bool) : bitsValue (l ++ [x]) = 2 * bitsValue l + x.toNat := by
  simp [bitsValue, List.foldl_append]

theorem bitsValue_foldl (l : List Bool) (v : Nat) :
    l.foldl (fun v b => 2 * v + b.toNat) v = v * 2 ^ l.length + bitsValue l := by
  induction l generalizing v with
  | nil => simp
  | cons x l ih =>
    have h2 : bitsValue (x :: l) = x.toNat * 2 ^ l.length + bitsValue l := by
      unfold bitsValue; rw [List.foldl_cons, ih]; simp [bitsValue]
    rw [List.foldl_cons, ih, h2, List.length_cons, pow_succ]
    ring

theorem bitsValue_cons (x : Bool) (l : List Bool) : bitsValue (x :: l) = x.toNat * 2 ^ l.length + bitsValue l := by
  have := bitsValue_foldl l x.toNat
  simpa [bitsValue] using this

theorem bitsValue_lt (l : List Bool) : bitsValue l < 2 ^ l.length := by
  induction l with
  | nil => simp
  | cons x l ih =>
    rw [bitsValue_cons, List.length_cons, pow_succ]
    have := Bool.toNat_le x
    nlinarith

/-- The bits of a number that fits are worth that number. -/
theorem bitsValue_numberBits (n v : Nat) : bitsValue (numberBits n v) = v % 2 ^ n := by
  induction n generalizing v with
  | zero => simp [Nat.mod_one]
  | succ n ih =>
    rw [numberBits_snoc, bitsValue_snoc, ih, Nat.testBit_zero, pow_succ]
    have h : (decide (v % 2 = 1)).toNat = v % 2 := by
      rcases Nat.mod_two_eq_zero_or_one v with h | h <;> simp [h]
    rw [h, Nat.mul_comm (2 ^ n) 2, Nat.mod_mul]
    omega

/-- A sequence of bits is the bits of its value. -/
theorem numberBits_bitsValue (l : List Bool) : numberBits l.length (bitsValue l) = l := by
  induction l using List.reverseRecOn with
  | nil => rfl
  | append_singleton l x ih =>
    have h2 : (2 * bitsValue l + x.toNat) / 2 = bitsValue l := by cases x <;> simp; omega
    rw [List.length_append, List.length_singleton, bitsValue_snoc, numberBits_snoc, h2, ih]
    congr 2
    cases x <;> simp [Nat.testBit_zero]

/-! ### The data bytes -/

theorem dataBits_length (b : Input) (fuel pos : Nat) : (dataBits b fuel pos).length % 8 = 0 := by
  induction fuel generalizing pos with
  | zero => rfl
  | succ fuel ih =>
    rw [dataBits]
    split
    · rfl
    · split
      · have := ih (pos + 1); simp; omega
      · split
        · rfl
        · split
          · have := ih (pos + 2); simp; omega
          · rfl

/-- Where no data byte is left the data ends. -/
theorem dataEnd_of_nil {b : Input} {fuel pos : Nat} (h : dataBits b fuel pos = []) : dataEnd b fuel pos = pos := by
  cases fuel with
  | zero => rfl
  | succ fuel =>
    rw [dataBits] at h
    rw [dataEnd]
    split
    · rfl
    · next h1 =>
      rw [if_neg h1] at h
      split
      · next h2 => rw [if_pos h2] at h; simp [numberBits] at h
      · next h2 =>
        rw [if_neg h2] at h
        split
        · rfl
        · next h3 =>
          rw [if_neg h3] at h
          split
          · next h4 => rw [if_pos h4] at h; simp [numberBits] at h
          · rfl

/-- Fuel beyond the end of the buffer adds nothing. -/
theorem dataBits_fuel (b : Input) {m n pos : Nat} (hm : b.len ≤ pos + m) (hn : b.len ≤ pos + n) :
    dataBits b m pos = dataBits b n pos := by
  induction m generalizing n pos with
  | zero =>
    cases n with
    | zero => rfl
    | succ n => simp [dataBits, show b.len ≤ pos by omega]
  | succ m ih =>
    cases n with
    | zero => simp [dataBits, show b.len ≤ pos by omega]
    | succ n =>
      simp only [dataBits]
      rw [ih (n := n) (pos := pos + 1) (by omega) (by omega), ih (n := n) (pos := pos + 2) (by omega) (by omega)]

theorem dataEnd_fuel (b : Input) {m n pos : Nat} (hm : b.len ≤ pos + m) (hn : b.len ≤ pos + n) :
    dataEnd b m pos = dataEnd b n pos := by
  induction m generalizing n pos with
  | zero =>
    cases n with
    | zero => rfl
    | succ n => simp [dataEnd, show b.len ≤ pos by omega]
  | succ m ih =>
    cases n with
    | zero => simp [dataEnd, show b.len ≤ pos by omega]
    | succ n =>
      simp only [dataEnd]
      rw [ih (n := n) (pos := pos + 1) (by omega) (by omega), ih (n := n) (pos := pos + 2) (by omega) (by omega)]

/-- What a request leaves as it was: whether a stream was started, and, where bits are delivered, the marker flags and
where the data ends; the cursor never moves back, nor past the buffer's end. -/
structure Moved (b : Input) (r r' : Stream) : Prop where
  brv : r'.brv = r.brv
  forth : r.pos.toNat ≤ r'.pos.toNat
  inside : r.pos.toNat ≤ b.len → r'.pos.toNat ≤ b.len

theorem Moved.refl (b : Input) (r : Stream) : Moved b r r := ⟨rfl, le_rfl, id⟩

theorem Moved.trans {b : Input} {r s t : Stream} (h : Moved b r s) (h' : Moved b s t) : Moved b r t :=
  ⟨h'.brv.trans h.brv, h.forth.trans h'.forth, fun hr => h'.inside (h.inside hr)⟩

/-- `fetch_byte()` moves the cursor as R91 says. -/
theorem fetchByte_moved {b : Input} (hb : b.len < 2 ^ 32) (r : Stream) : Moved b r (fetchByte b r).2 := by
  have h1 : r.pos.toNat < b.len → (r.pos + 1).toNat = r.pos.toNat + 1 := fun h => by
    rw [BitVec.toNat_add]; simp; omega
  have h2 : r.pos.toNat + 1 < b.len → (r.pos + 2).toNat = r.pos.toNat + 2 := fun h => by
    rw [BitVec.toNat_add]; simp; omega
  unfold fetchByte
  split
  · exact .refl b r
  · split
    · exact .refl b r
    · split
      · refine ⟨rfl, ?_, fun _ => ?_⟩ <;> simp only <;> rw [h1 (by omega)] <;> omega
      · split
        · exact .refl b r
        · split
          · refine ⟨rfl, ?_, fun _ => ?_⟩ <;> simp only <;> rw [h2 (by omega)] <;> omega
          · exact ⟨rfl, le_rfl, id⟩

theorem deliverBit_moved (b : Input) (r : Stream) : Moved b r (deliverBit r).2 := ⟨rfl, le_rfl, id⟩

theorem nextBit_moved {b : Input} (hb : b.len < 2 ^ 32) (r : Stream) : Moved b r (nextBit b r).2 := by
  have hm := fetchByte_moved hb r
  unfold nextBit
  split
  · split <;> rename_i h <;> rw [h] at hm
    · exact hm.trans (deliverBit_moved b _)
    · exact hm
    · exact hm
  · exact deliverBit_moved b r

theorem nextBitsFrom_moved {b : Input} (hb : b.len < 2 ^ 32) (n v : Nat) (r : Stream) :
    Moved b r (nextBitsFrom b n v r).2 := by
  induction n generalizing v r with
  | zero => exact .refl b r
  | succ n ih =>
    have hm := nextBit_moved hb r
    simp only [nextBitsFrom]
    split <;> rename_i h <;> rw [h] at hm
    · exact hm.trans (ih _ _)
    · exact hm
    · exact hm

theorem needed_leaves {α : Type} {P : Stream → Prop} {p : BitResult α × Stream} (h : P p.2) :
    Leaves P (needed p) := by
  obtain ⟨x, r⟩ := p
  cases x <;> exact h

theorem needBit_moved {b : Input} (hb : b.len < 2 ^ 32) (r : Stream) : Leaves (Moved b r) (needBit b r) :=
  needed_leaves (nextBit_moved hb r)

theorem needBits_moved {b : Input} (hb : b.len < 2 ^ 32) (n : Nat) (r : Stream) :
    Leaves (Moved b r) (needBits b n r) := needed_leaves (nextBitsFrom_moved hb n 0 r)

/-! ### Delivery -/

/-- The stream after a delivery: the same data with bits taken off the front, nothing met. -/
structure Delivers (b : Input) (r : Stream) (taken rest : List Bool) (r' : Stream) : Prop where
  before : streamBits b r = taken ++ rest
  after : streamBits b r' = rest
  markf : r'.markf = r.markf
  markc : r'.markc = r.markc
  brv : r'.brv = r.brv
  ends : streamEnd b r' = streamEnd b r

theorem Delivers.trans {b : Input} {r s t : Stream} {x y z : List Bool} (h : Delivers b r x (y ++ z) s)
    (h' : Delivers b s y z t) : Delivers b r (x ++ y) z t :=
  ⟨by rw [h.before, List.append_assoc], h'.after, h'.markf.trans h.markf, h'.markc.trans h.markc,
    h'.brv.trans h.brv, h'.ends.trans h.ends⟩

theorem Delivers.took {b : Input} {r r' : Stream} {x rest : List Bool} (h : Delivers b r x rest r') :
    Took b r rest r' := ⟨h.after, h.markf, h.markc, h.brv, h.ends⟩

theorem Delivers.refl (b : Input) (r : Stream) : Delivers b r [] (streamBits b r) r :=
  ⟨rfl, rfl, rfl, rfl, rfl, rfl⟩

/-- With bits held, the next one is the first of the stream. -/
theorem deliverBit_delivers (b : Input) (r : Stream) (h : r.cnt ≠ 0) :
    ∃ rest, Delivers b r [(deliverBit r).1] rest (deliverBit r).2 := by
  obtain ⟨n, hn⟩ : ∃ n, r.cnt.val = n + 1 := Nat.exists_eq_succ_of_ne_zero fun h0 => h (Fin.ext h0)
  refine ⟨streamBits b (deliverBit r).2, ?_, rfl, rfl, rfl, rfl, rfl⟩
  simp only [streamBits, deliverBit, hn, numberBits_succ, Nat.add_sub_cancel, BitVec.getLsbD]
  rfl

theorem fetch_got {b : Input} (hb : b.len < 2 ^ 32) {r r' : Stream} (hc : r.cnt = 0)
    (h : fetchByte b r = (.got (), r')) :
    Delivers b r [] (streamBits b r) r' ∧ r'.cnt = 8 := by
  unfold fetchByte at h
  split at h
  · simp at h
  · next hmf =>
    split at h
    · simp at h
    · next hlen =>
      have hlen' : r.pos.toNat < b.len := by omega
      obtain ⟨f, hf⟩ : ∃ f, b.len - r.pos.toNat = f + 1 := ⟨b.len - r.pos.toNat - 1, by omega⟩
      split at h
      · next hff =>
        simp only [Prod.mk.injEq, true_and] at h
        subst h
        have hp : (r.pos + 1).toNat = r.pos.toNat + 1 := by rw [BitVec.toNat_add]; simp; omega
        refine ⟨⟨rfl, ?_, rfl, rfl, rfl, ?_⟩, rfl⟩
        · simp only [streamBits, hmf, hc, hp, hf, dataBits, if_neg (show ¬ b.len ≤ r.pos.toNat by omega), if_pos hff]
          simp only [show b.len - (r.pos.toNat + 1) = f by omega]
          simp
        · simp only [streamEnd, hmf, hp, hf, dataEnd, if_neg (show ¬ b.len ≤ r.pos.toNat by omega), if_pos hff]
          simp [show b.len - (r.pos.toNat + 1) = f by omega]
      · next hff =>
        split at h
        · simp at h
        · next hlen2 =>
          split at h
          · next h00 =>
            simp only [Prod.mk.injEq, true_and] at h
            subst h
            have hp : (r.pos + 2).toNat = r.pos.toNat + 2 := by rw [BitVec.toNat_add]; simp; omega
            refine ⟨⟨rfl, ?_, rfl, rfl, rfl, ?_⟩, rfl⟩
            · simp only [streamBits, hmf, hc, hp, hf, dataBits, if_neg (show ¬ b.len ≤ r.pos.toNat by omega),
                if_neg hff, if_neg hlen2, if_pos h00]
              rw [dataBits_fuel b (m := b.len - (r.pos.toNat + 2)) (n := f) (by omega) (by omega)]
              simp
            · simp only [streamEnd, hmf, hp, hf, dataEnd, if_neg (show ¬ b.len ≤ r.pos.toNat by omega),
                if_neg hff, if_neg hlen2, if_pos h00]
              rw [dataEnd_fuel b (m := b.len - (r.pos.toNat + 2)) (n := f) (by omega) (by omega)]
              simp
          · simp at h

/-- A byte that cannot be fetched means that no data is left. -/
theorem fetch_none {b : Input} {r : Stream} (hc : r.cnt = 0) (h : (fetchByte b r).1 ≠ .got ()) :
    streamBits b r = [] := by
  unfold fetchByte at h
  simp only [streamBits, hc]
  split at h
  · next hm => simp [hm]
  · next hmf =>
    split at h
    · next hlen => simp [hmf, show b.len - r.pos.toNat = 0 by omega, dataBits]
    · next hlen =>
      obtain ⟨f, hf⟩ : ∃ f, b.len - r.pos.toNat = f + 1 := ⟨b.len - r.pos.toNat - 1, by omega⟩
      split at h
      · simp at h
      · next hff =>
        split at h
        · next hl2 =>
          simp only [hmf, hf, dataBits, if_neg (show ¬ b.len ≤ r.pos.toNat by omega), if_neg hff, if_pos hl2]
          rfl
        · next hl2 =>
          split at h
          · simp at h
          · next h00 =>
            simp only [hmf, hf, dataBits, if_neg (show ¬ b.len ≤ r.pos.toNat by omega), if_neg hff, if_neg hl2,
              if_neg h00]
            rfl

/-- `next_bit()` delivers the first bit of the stream, if there is one (R90, R93). -/
theorem nextBit_cons {b : Input} (hb : b.len < 2 ^ 32) {r : Stream} {x : Bool} {rest : List Bool}
    (h : streamBits b r = x :: rest) : ∃ r', nextBit b r = (.got x, r') ∧ Delivers b r [x] rest r' := by
  have finish : ∀ q : Stream, q.cnt ≠ 0 → streamBits b q = x :: rest →
      (deliverBit q).1 = x ∧ Delivers b q [x] rest (deliverBit q).2 := by
    intro q hq hs
    obtain ⟨rest', hd⟩ := deliverBit_delivers b q hq
    have := hs.symm.trans hd.before
    simp only [List.cons_append, List.nil_append, List.cons.injEq] at this
    obtain ⟨h1, h2⟩ := this
    subst h2
    rw [h1]
    exact ⟨rfl, hd⟩
  by_cases hc : r.cnt = 0
  · rcases hfb : fetchByte b r with ⟨_ | _ | _, r1⟩
    · obtain ⟨hd, h8⟩ := fetch_got hb hc hfb
      obtain ⟨h1, h2⟩ := finish r1 (by rw [h8]; decide) (hd.after.trans h)
      refine ⟨(deliverBit r1).2, by simp [nextBit, hc, hfb, h1], ?_⟩
      exact ⟨h, h2.after, h2.markf.trans hd.markf, h2.markc.trans hd.markc, h2.brv.trans hd.brv,
        h2.ends.trans hd.ends⟩
    · simp [fetch_none hc (by rw [hfb]; simp)] at h
    · simp [fetch_none hc (by rw [hfb]; simp)] at h
  · obtain ⟨h1, h2⟩ := finish r hc h
    exact ⟨(deliverBit r).2, by simp [nextBit, hc, h1], h2⟩

/-- `next_bit()` delivers nothing when no bit is left. -/
theorem nextBit_nil {b : Input} {r : Stream} (h : streamBits b r = []) :
    (nextBit b r).1 = .marker ∨ (nextBit b r).1 = .endOfData := by
  have hc : r.cnt = 0 := by
    by_contra hc
    obtain ⟨rest, hd⟩ := deliverBit_delivers b r hc
    simp [hd.before] at h
  have hg : ∀ r1, fetchByte b r ≠ (.got (), r1) := by
    intro r1 hf
    unfold fetchByte at hf
    simp only [streamBits, hc] at h
    split at hf
    · simp at hf
    · next hm =>
      split at hf
      · simp at hf
      · next hlen =>
        obtain ⟨f, hf'⟩ : ∃ f, b.len - r.pos.toNat = f + 1 := ⟨b.len - r.pos.toNat - 1, by omega⟩
        simp only [hm, hf', dataBits, if_neg (show ¬ b.len ≤ r.pos.toNat by omega)] at h
        split at hf
        · next hff => rw [if_pos hff] at h; simp [numberBits_succ] at h
        · next hff =>
          split at hf
          · simp at hf
          · next hl =>
            split at hf
            · next h00 =>
              rw [if_neg hff, if_neg hl, if_pos h00] at h
              simp [numberBits_succ] at h
            · simp at hf
  rcases hfb : fetchByte b r with ⟨_ | _ | _, r1⟩
  · exact absurd hfb (hg r1)
  · left; simp [nextBit, hc, hfb]
  · right; simp [nextBit, hc, hfb]

theorem nextBitsFrom_append {b : Input} (hb : b.len < 2 ^ 32) {r : Stream} {taken rest : List Bool} (v : Nat)
    (h : streamBits b r = taken ++ rest) :
    ∃ r', nextBitsFrom b taken.length v r = (.got (v * 2 ^ taken.length + bitsValue taken), r') ∧
      Delivers b r taken rest r' := by
  induction taken generalizing r v with
  | nil => exact ⟨r, by simp [nextBitsFrom], ⟨h, h, rfl, rfl, rfl, rfl⟩⟩
  | cons x taken ih =>
    obtain ⟨r1, h1, hd⟩ := nextBit_cons hb (rest := taken ++ rest) h
    obtain ⟨r2, h2, hd2⟩ := ih (2 * v + x.toNat) hd.after
    refine ⟨r2, ?_, hd.trans hd2⟩
    simp only [List.length_cons, nextBitsFrom, h1, h2, bitsValue_cons]
    rw [pow_succ]
    congr 2
    ring

/-- `next_bits(n)` delivers the next `n` bits as one value (R94). -/
theorem nextBits_append {b : Input} (hb : b.len < 2 ^ 32) {r : Stream} {taken rest : List Bool}
    (h : streamBits b r = taken ++ rest) :
    ∃ r', nextBits b taken.length r = (.got (bitsValue taken), r') ∧ Delivers b r taken rest r' := by
  obtain ⟨r', h1, h2⟩ := nextBitsFrom_append hb 0 h
  exact ⟨r', by simpa [nextBits] using h1, h2⟩

/-- `next_bits(n)` delivers nothing when fewer than `n` bits are left. -/
theorem nextBitsFrom_short {b : Input} (hb : b.len < 2 ^ 32) {r : Stream} {n : Nat} (v : Nat)
    (h : (streamBits b r).length < n) :
    (nextBitsFrom b n v r).1 = .marker ∨ (nextBitsFrom b n v r).1 = .endOfData := by
  induction n generalizing r v with
  | zero => omega
  | succ n ih =>
    cases hs : streamBits b r with
    | nil =>
      have := nextBit_nil hs
      rcases hn : nextBit b r with ⟨_ | _ | _, r1⟩
      · simp [hn] at this
      · left; simp [nextBitsFrom, hn]
      · right; simp [nextBitsFrom, hn]
    | cons x rest =>
      obtain ⟨r1, h1, hd⟩ := nextBit_cons hb hs
      simp only [nextBitsFrom, h1]
      exact ih _ (by rw [hd.after]; rw [hs, List.length_cons] at h; omega)

theorem needBit_cons {b : Input} (hb : b.len < 2 ^ 32) {r : Stream} {x : Bool} {rest : List Bool}
    (h : streamBits b r = x :: rest) : ∃ r', needBit b r = .ok x r' ∧ Delivers b r [x] rest r' := by
  obtain ⟨r', h1, h2⟩ := nextBit_cons hb h
  exact ⟨r', by simp [needBit, needed, h1], h2⟩

theorem needBits_append {b : Input} (hb : b.len < 2 ^ 32) {r : Stream} {taken rest : List Bool}
    (h : streamBits b r = taken ++ rest) :
    ∃ r', needBits b taken.length r = .ok (bitsValue taken) r' ∧ Delivers b r taken rest r' := by
  obtain ⟨r', h1, h2⟩ := nextBits_append hb h
  exact ⟨r', by simp [needBits, needed, h1], h2⟩

/-- With fewer than eight bits left the cursor stands where the data ends. -/
theorem pos_eq_streamEnd {b : Input} {r : Stream} (h : (streamBits b r).length < 8) : r.pos.toNat = streamEnd b r := by
  unfold streamBits at h
  unfold streamEnd
  split
  · rfl
  · next hm =>
    rw [if_neg hm, List.length_append] at h
    have hl := dataBits_length b (b.len - r.pos.toNat) r.pos.toNat
    have : dataBits b (b.len - r.pos.toNat) r.pos.toNat = [] := List.length_eq_zero_iff.1 (by omega)
    exact (dataEnd_of_nil this).symm

/-- What a request finds when no bit is left: the marker that ends the data, or the end of the buffer (R90, R91). -/
theorem nextBit_end {b : Input} {r : Stream} (h : streamBits b r = []) :
    streamBits b (nextBit b r).2 = [] ∧
    (r.markf = true ∨ streamEnd b r + 1 < b.len → (nextBit b r).1 = .marker ∧ (nextBit b r).2.markf = true ∧
      (nextBit b r).2.markc = if r.markf then r.markc else b.byte (streamEnd b r + 1)) ∧
    (r.markf = false → b.len ≤ streamEnd b r + 1 → (nextBit b r).1 = .endOfData ∧ (nextBit b r).2.markf = false) := by
  have hpos := pos_eq_streamEnd (b := b) (r := r) (by rw [h]; simp)
  have hc : r.cnt = 0 := by
    by_contra hc
    obtain ⟨rest, hd⟩ := deliverBit_delivers b r hc
    simp [hd.before] at h
  rw [← hpos]
  have hn : nextBit b r = ((fetchByte b r).1.map fun _ => false, (fetchByte b r).2) ∨ (fetchByte b r).1 = .got () := by
    rcases hf : fetchByte b r with ⟨_ | _ | _, r1⟩
    · exact .inr rfl
    · left; simp [nextBit, hc, hf, BitResult.map]
    · left; simp [nextBit, hc, hf, BitResult.map]
  have hg : (fetchByte b r).1 ≠ .got () := by
    intro hg
    rcases nextBit_nil h with h1 | h1 <;>
    · rcases hf : fetchByte b r with ⟨x, r1⟩
      rw [hf] at hg
      simp only at hg
      subst hg
      simp [nextBit, hc, hf] at h1
  rcases hn with hn | hn
  · rw [hn]
    simp only
    unfold fetchByte at hg ⊢
    split
    · next hm => exact ⟨h, fun _ => ⟨rfl, hm, rfl⟩, fun hf => by simp [hm] at hf⟩
    · next hm' =>
      rw [if_neg hm'] at hg
      have hm : r.markf = false := by simpa using hm'
      split
      · next hl => exact ⟨h, fun hor => by rw [hm] at hor; simp at hor; omega, fun _ _ => ⟨rfl, hm⟩⟩
      · next hl =>
        split
        · next hff => rw [if_neg hl, if_pos hff] at hg; exact absurd rfl hg
        · next hff =>
          split
          · next hl2 => exact ⟨h, fun hor => by rw [hm] at hor; simp at hor; omega, fun _ _ => ⟨rfl, hm⟩⟩
          · next hl2 =>
            split
            · next h0 => rw [if_neg hl, if_neg hff, if_neg hl2, if_pos h0] at hg; exact absurd rfl hg
            · next h0 =>
              refine ⟨by simp [streamBits, hc], fun _ => ⟨rfl, rfl, by simp⟩, fun _ hle => by omega⟩
  · exact absurd hn hg

/-- Where fewer than `n` bits are left they are all taken, then the reader says what ended them. -/
theorem nextBitsFrom_end {b : Input} (hb : b.len < 2 ^ 32) {r : Stream} {n : Nat} (v : Nat)
    (h : (streamBits b r).length < n) :
    streamBits b (nextBitsFrom b n v r).2 = [] ∧
    (r.markf = true ∨ streamEnd b r + 1 < b.len → (nextBitsFrom b n v r).1 = .marker ∧
      (nextBitsFrom b n v r).2.markf = true ∧
      (nextBitsFrom b n v r).2.markc = if r.markf then r.markc else b.byte (streamEnd b r + 1)) ∧
    (r.markf = false → b.len ≤ streamEnd b r + 1 →
      (nextBitsFrom b n v r).1 = .endOfData ∧ (nextBitsFrom b n v r).2.markf = false) := by
  induction n generalizing r v with
  | zero => omega
  | succ n ih =>
    cases hs : streamBits b r with
    | nil =>
      have he := nextBit_end hs
      have hn := nextBit_nil hs
      rw [nextBitsFrom]
      rcases hx : nextBit b r with ⟨_ | _ | _, r1⟩
      · simp [hx] at hn
      · rw [hx] at he
        exact ⟨he.1, fun hor => ⟨rfl, (he.2.1 hor).2⟩, fun h1 h2 => by simpa using (he.2.2 h1 h2).1⟩
      · rw [hx] at he
        exact ⟨he.1, fun hor => by simpa using (he.2.1 hor).1, fun h1 h2 => ⟨rfl, (he.2.2 h1 h2).2⟩⟩
    | cons x rest =>
      obtain ⟨r1, h1, hd⟩ := nextBit_cons hb hs
      have := ih (2 * v + x.toNat) (r := r1) (by rw [hd.after]; rw [hs, List.length_cons] at h; omega)
      rw [hd.markf, hd.markc, hd.ends] at this
      simp only [nextBitsFrom, h1]
      exact this

/-- A decoder that needs more bits than are left faults (R96). -/
theorem needBits_end {b : Input} (hb : b.len < 2 ^ 32) {r : Stream} {n : Nat} (h : (streamBits b r).length < n) :
    ∃ r', needBits b n r = .raised .unexpectedEndOfStream r' ∧ streamBits b r' = [] := by
  have he := (nextBitsFrom_end hb 0 h).1
  have hn := nextBitsFrom_short hb 0 h
  refine ⟨_, ?_, he⟩
  unfold needBits nextBits
  rcases hx : nextBitsFrom b n 0 r with ⟨_ | _ | _, r1⟩
  · simp [hx] at hn
  · rfl
  · rfl

theorem needBit_end {b : Input} {r : Stream} (h : streamBits b r = []) :
    ∃ r', needBit b r = .raised .unexpectedEndOfStream r' ∧ streamBits b r' = [] := by
  refine ⟨_, ?_, (nextBit_end h).1⟩
  have hn := nextBit_nil h
  unfold needBit
  rcases hx : nextBit b r with ⟨_ | _ | _, r1⟩
  · simp [hx] at hn
  · rfl
  · rfl

/-- `IN_LEN` is a 32-bit number. -/
theorem inBuf_len_lt (s : State) : s.inBuf.len < 2 ^ 32 := s.setup.inLen.isLt

end Sys2Proof.Laws
end

