-- ==== Sys2Proof/Laws/Geometry.lean ====
section
/-! SUPPORT. The geometry of an accepted configuration: factors and plane bounds (R23, R24, `spec/20_memory.md` R51). -/

namespace Sys2Proof.Laws

open Sys2Proof.Machine

theorem mem_comps {u : Setup} {c : Fin 4} : c ∈ u.comps ↔ c.val < u.numComps := by
  simp [Setup.comps]

theorem foldl_max_le {α : Type} (l : List α) (f : α → Nat) (m : Nat) :
    m ≤ l.foldl (fun m c => max m (f c)) m ∧ ∀ x ∈ l, f x ≤ l.foldl (fun m c => max m (f c)) m := by
  induction l generalizing m with
  | nil => simp
  | cons a l ih =>
    obtain ⟨h1, h2⟩ := ih (max m (f a))
    simp only [List.foldl_cons, List.mem_cons, forall_eq_or_imp]
    exact ⟨by omega, by omega, h2⟩

theorem foldl_max_lt {α : Type} (l : List α) (f : α → Nat) (m b : Nat) (hm : m ≤ b) (h : ∀ x ∈ l, f x ≤ b) :
    l.foldl (fun m c => max m (f c)) m ≤ b := by
  induction l generalizing m with
  | nil => exact hm
  | cons a l ih =>
    exact ih _ (max_le hm (h a (by simp))) fun x hx => h x (by simp [hx])

/-- No component's factor exceeds `Hmax`. -/
theorem hOf_le_hMax {u : Setup} {c : Fin 4} (h : c.val < u.numComps) : u.hOf c ≤ u.hMax :=
  (foldl_max_le u.comps u.hOf 0).2 c (mem_comps.2 h)

theorem vOf_le_vMax {u : Setup} {c : Fin 4} (h : c.val < u.numComps) : u.vOf c ≤ u.vMax :=
  (foldl_max_le u.comps u.vOf 0).2 c (mem_comps.2 h)

/-- The parts of an accepted configuration (R144 steps 2 to 6). -/
theorem accepted_parts {u : Setup} (h : u.accepted = true) :
    u.proc = 0 ∧ u.countOk = true ∧ 0 < u.w ∧ 0 < u.ht ∧
    (∀ c : Fin 4, c.val < u.numComps → 1 ≤ u.hOf c ∧ u.hOf c ≤ 4 ∧ 1 ≤ u.vOf c ∧ u.vOf c ≤ 4) ∧
    (∀ c : Fin 4, c.val < u.numComps → u.hMax % u.hOf c = 0 ∧ u.vMax % u.vOf c = 0) := by
  simp only [Setup.accepted, Bool.and_eq_true, beq_iff_eq, bne_iff_ne, ne_eq, Setup.factorsOk, Setup.ratiosOk,
    List.all_eq_true, decide_eq_true_eq, mem_comps] at h
  obtain ⟨⟨⟨⟨⟨h1, h2⟩, h3⟩, h4⟩, h5⟩, h6⟩ := h
  have pos : ∀ x : BitVec 16, x ≠ 0 → 0 < x.toNat := fun x hx =>
    Nat.pos_of_ne_zero fun h0 => hx (BitVec.eq_of_toNat_eq h0)
  exact ⟨h1, h2, pos _ h3, pos _ h4, h5, h6⟩

theorem numComps_pos {u : Setup} (h : u.accepted = true) : 0 < u.numComps := by
  have := (accepted_parts h).2.1
  simp only [Setup.countOk, Bool.or_eq_true, beq_iff_eq] at this
  omega

theorem numComps_le {u : Setup} (h : u.accepted = true) : u.numComps ≤ 4 := by
  have := (accepted_parts h).2.1
  simp only [Setup.countOk, Bool.or_eq_true, beq_iff_eq] at this
  omega

theorem hMax_bounds {u : Setup} (h : u.accepted = true) : 1 ≤ u.hMax ∧ u.hMax ≤ 4 ∧ 1 ≤ u.vMax ∧ u.vMax ≤ 4 := by
  obtain ⟨_, _, _, _, hf, _⟩ := accepted_parts h
  have h0 := numComps_pos h
  have hc := hf 0 h0
  have := hOf_le_hMax (u := u) (c := 0) h0
  have := vOf_le_vMax (u := u) (c := 0) h0
  refine ⟨by omega, foldl_max_lt _ _ _ _ (by omega) fun x hx => (hf x (mem_comps.1 hx)).2.1, by omega,
    foldl_max_lt _ _ _ _ (by omega) fun x hx => (hf x (mem_comps.1 hx)).2.2.2⟩

theorem le_ceilDiv_mul (a : Nat) {b : Nat} (hb : 0 < b) : a ≤ ceilDiv a b * b := by
  unfold ceilDiv
  have h1 := Nat.div_add_mod (a + b - 1) b
  have h2 := Nat.mod_lt (a + b - 1) hb
  rw [Nat.mul_comm] at h1
  generalize (a + b - 1) / b * b = p at h1 ⊢
  omega

theorem ceilDiv_le {a m : Nat} (ha : a < 65536) : ceilDiv a (8 * m) ≤ 8192 := by
  unfold ceilDiv
  rcases Nat.eq_zero_or_pos m with rfl | hm
  · simp
  · rw [← Nat.lt_succ_iff, Nat.div_lt_iff_lt_mul (by omega)]
    omega

/-- `MCUX` and `MCUY` are at most 8192 (R24, R281). -/
theorem mcu_le (u : Setup) : u.mcuX ≤ 8192 ∧ u.mcuY ≤ 8192 :=
  ⟨ceilDiv_le u.width.isLt, ceilDiv_le u.height.isLt⟩

/-- `NMCU ≤ 2^26`, so neither counter overflows (R24). -/
theorem nmcu_le (u : Setup) : u.nmcu ≤ 2 ^ 26 := by
  obtain ⟨h2, h4⟩ := mcu_le u
  calc u.nmcu = u.mcuX * u.mcuY := rfl
    _ ≤ 8192 * 8192 := Nat.mul_le_mul h2 h4
    _ = 2 ^ 26 := by norm_num

/-- A block of an MCU in the image lies inside its plane (R172). -/
theorem mcuBlocks_inside {u : Setup} {mx my : Nat} (hx : mx < u.mcuX) (hy : my < u.mcuY) {blk : Fin 4 × Nat × Nat}
    (h : blk ∈ u.mcuBlocks mx my) :
    blk.1.val < u.numComps ∧ blk.2.1 * 8 + 8 ≤ u.planeW blk.1 ∧ blk.2.2 * 8 + 8 ≤ u.planeH blk.1 := by
  simp only [Setup.mcuBlocks, List.mem_flatMap, List.mem_map, List.mem_range] at h
  obtain ⟨c, hc, v, hv, hh, hhh, rfl⟩ := h
  refine ⟨mem_comps.1 hc, ?_, ?_⟩
  · simp only [Setup.planeW]
    have : (mx + 1) * u.hOf c ≤ u.mcuX * u.hOf c := Nat.mul_le_mul_right _ hx
    nlinarith
  · simp only [Setup.planeH]
    have : (my + 1) * u.vOf c ≤ u.mcuY * u.vOf c := Nat.mul_le_mul_right _ hy
    nlinarith

/-- The upsampler reads inside the plane (`spec/20_memory.md` R51). -/
theorem scaled_inside {u : Setup} (h : u.accepted = true) {c : Fin 4} (hc : c.val < u.numComps) {x y : Nat}
    (hx : x < u.w) (hy : y < u.ht) :
    x * u.hOf c / u.hMax < u.planeW c ∧ y * u.vOf c / u.vMax < u.planeH c := by
  obtain ⟨h1, _, h3, _⟩ := hMax_bounds h
  obtain ⟨_, _, _, _, hf, _⟩ := accepted_parts h
  have hcf := hf c hc
  have hw : u.w ≤ u.mcuX * (8 * u.hMax) := le_ceilDiv_mul u.w (by omega)
  have hh : u.ht ≤ u.mcuY * (8 * u.vMax) := le_ceilDiv_mul u.ht (by omega)
  constructor
  · rw [Nat.div_lt_iff_lt_mul (by omega), Setup.planeW]
    calc x * u.hOf c < u.mcuX * (8 * u.hMax) * u.hOf c := by nlinarith
      _ = u.mcuX * 8 * u.hOf c * u.hMax := by ring
  · rw [Nat.div_lt_iff_lt_mul (by omega), Setup.planeH]
    calc y * u.vOf c < u.mcuY * (8 * u.vMax) * u.vOf c := by nlinarith
      _ = u.mcuY * 8 * u.vOf c * u.vMax := by ring

end Sys2Proof.Laws
end

