-- ==== Sys2Proof/Laws/Memory.lean ====
section
/-! SUPPORT. Memory: read after write, and that every memory operation keeps the canonical form. -/

namespace Sys2Proof.Laws

open Sys2Proof.Machine

@[simp] theorem read_nil (a : Nat) : Memory.read [] a = none := rfl

/-- A read after a write to the same address gives the byte written. -/
@[simp] theorem read_write_same (m : Memory) (a : Nat) (b : Byte) : (m.write a b).read a = some b := by
  induction m with
  | nil => simp [Memory.write, Memory.read]
  | cons c m ih =>
    obtain ⟨k, v⟩ := c
    simp only [Memory.write]
    split
    · simp [Memory.read]
    · split
      · simp [Memory.read]
      · rename_i h1 h2
        simp [Memory.read, Ne.symm h2, ih]

/-- A write leaves every other address alone. -/
theorem read_write_other (m : Memory) {a x : Nat} (b : Byte) (h : x ≠ a) : (m.write a b).read x = m.read x := by
  induction m with
  | nil => simp [Memory.write, Memory.read, Ne.symm h]
  | cons c m ih =>
    obtain ⟨k, v⟩ := c
    simp only [Memory.write]
    split
    · simp [Memory.read, Ne.symm h]
    · split
      · subst_vars; simp [Memory.read, Ne.symm h]
      · simp [Memory.read, ih]

/-- Every address of a written memory is the written one or was listed. -/
theorem mem_write {m : Memory} {a : Nat} {b : Byte} {c : Host.Cell} (h : c ∈ m.write a b) :
    c = (a, b) ∨ c ∈ m := by
  induction m with
  | nil => simpa [Memory.write] using h
  | cons d m ih =>
    obtain ⟨k, v⟩ := d
    simp only [Memory.write] at h
    split at h
    · simpa using h
    · split at h
      · rcases List.mem_cons.1 h with h | h
        · exact .inl h
        · exact .inr (List.mem_cons_of_mem _ h)
      · rcases List.mem_cons.1 h with h | h
        · exact .inr (h ▸ List.mem_cons_self)
        · exact (ih h).imp id (List.mem_cons_of_mem _)

/-- A write keeps the canonical form. -/
theorem write_wf {m : Memory} (h : m.wf) (a : Nat) (b : Byte) : (m.write a b).wf := by
  induction m with
  | nil => simp [Memory.write]
  | cons c m ih =>
    obtain ⟨k, v⟩ := c
    obtain ⟨hk, hm⟩ := List.pairwise_cons.1 h
    simp only [Memory.write]
    split
    · rename_i hlt
      refine List.pairwise_cons.2 ⟨fun d hd => ?_, h⟩
      rcases List.mem_cons.1 hd with rfl | hd
      · exact hlt
      · exact hlt.trans (hk d hd)
    · split
      · rename_i he
        subst he
        exact List.pairwise_cons.2 ⟨hk, hm⟩
      · refine List.pairwise_cons.2 ⟨fun d hd => ?_, ih hm⟩
        rcases mem_write hd with rfl | hd
        · simp only; omega
        · exact hk d hd

@[simp] theorem writeAll_nil (m : Memory) : m.writeAll [] = m := rfl

theorem writeAll_cons (m : Memory) (c : Host.Cell) (cells : List Host.Cell) :
    m.writeAll (c :: cells) = (m.write c.1 c.2).writeAll cells := rfl

theorem writeAll_append (m : Memory) (xs ys : List Host.Cell) :
    m.writeAll (xs ++ ys) = (m.writeAll xs).writeAll ys := List.foldl_append

/-- Writes keep the canonical form. -/
theorem writeAll_wf {m : Memory} (h : m.wf) (cells : List Host.Cell) : (m.writeAll cells).wf := by
  induction cells generalizing m with
  | nil => exact h
  | cons c cells ih => exact ih (write_wf h c.1 c.2)

/-- Writes leave every address they do not name alone. -/
theorem read_writeAll_other (m : Memory) (cells : List Host.Cell) {a : Nat} (h : ∀ c ∈ cells, c.1 ≠ a) :
    (m.writeAll cells).read a = m.read a := by
  induction cells generalizing m with
  | nil => rfl
  | cons c cells ih =>
    rw [writeAll_cons, ih _ (fun d hd => h d (List.mem_cons_of_mem _ hd)),
      read_write_other _ _ (Ne.symm (h c List.mem_cons_self))]

/-- Where the addresses written are all different, each reads as the byte written there. -/
theorem read_writeAll_mem (m : Memory) {cells : List Host.Cell} (hd : (cells.map (·.1)).Nodup) {c : Host.Cell}
    (hc : c ∈ cells) : (m.writeAll cells).read c.1 = some c.2 := by
  induction cells generalizing m with
  | nil => simp at hc
  | cons d cells ih =>
    rw [List.map_cons, List.nodup_cons] at hd
    rw [writeAll_cons]
    rcases List.mem_cons.1 hc with rfl | hc
    · have hne : ∀ e ∈ cells, e.1 ≠ c.1 := fun e he heq => hd.1 (List.mem_map.2 ⟨e, he, heq⟩)
      rw [read_writeAll_other _ _ hne, read_write_same]
    · exact ih _ hd.2 hc

/-- The canonical form is what makes equal memories equal data: the first address decides. -/
theorem read_of_lt_head {m : Memory} {c : Host.Cell} (h : Memory.wf (c :: m)) {a : Nat} (ha : a < c.1) :
    Memory.read (c :: m) a = none := by
  have key : ∀ {m : Memory}, (∀ d ∈ m, a < d.1) → m.read a = none := by
    intro m hm
    induction m with
    | nil => rfl
    | cons d m ih =>
      have := hm d List.mem_cons_self
      simp [Memory.read, show d.1 ≠ a by omega, ih fun e he => hm e (List.mem_cons_of_mem _ he)]
  exact key fun d hd => by
    rcases List.mem_cons.1 hd with rfl | hd
    · exact ha
    · exact ha.trans ((List.pairwise_cons.1 h).1 d hd)

/-- Equal memories are equal data. -/
theorem memory_ext {m n : Memory} (hm : m.wf) (hn : n.wf) (h : ∀ a, m.read a = n.read a) : m = n := by
  induction m generalizing n with
  | nil =>
    cases n with
    | nil => rfl
    | cons d n => have := h d.1; simp [Memory.read] at this
  | cons c m ih =>
    cases n with
    | nil => have := h c.1; simp [Memory.read] at this
    | cons d n =>
      have hk : c.1 = d.1 := by
        rcases lt_trichotomy c.1 d.1 with hlt | he | hlt
        · have := h c.1; rw [read_of_lt_head hn hlt] at this; simp [Memory.read] at this
        · exact he
        · have := h d.1; rw [read_of_lt_head hm hlt] at this; simp [Memory.read] at this
      have hv : c.2 = d.2 := by have := h c.1; simpa [Memory.read, hk] using this
      have hcd : c = d := Prod.ext hk hv
      subst hcd
      refine congrArg _ (ih (List.pairwise_cons.1 hm).2 (List.pairwise_cons.1 hn).2 fun a => ?_)
      by_cases ha : c.1 = a
      · have hm' : Memory.read m a = none := by
          cases m with
          | nil => rfl
          | cons e m =>
            exact read_of_lt_head (List.pairwise_cons.1 hm).2
              (ha ▸ (List.pairwise_cons.1 hm).1 e List.mem_cons_self)
        have hn' : Memory.read n a = none := by
          cases n with
          | nil => rfl
          | cons e n =>
            exact read_of_lt_head (List.pairwise_cons.1 hn).2
              (ha ▸ (List.pairwise_cons.1 hn).1 e List.mem_cons_self)
        rw [hm', hn']
      · simpa [Memory.read, ha] using h a

end Sys2Proof.Laws
end

