-- ==== Sys2Proof/Laws/State.lean ====
section
/-! SUPPORT. One lemma per field of the state and update of it, each true by definition. -/

namespace Sys2Proof.Laws

open Sys2Proof Sys2Proof.Machine

variable (s : State)

/-! A fault latches `ERR`, `ERRPOS` and `STATUS.FAULT` and changes nothing else (R224). -/

@[simp] theorem raiseFault_status (k : FaultKind) : (raiseFault k s).status = { s.status with fault := true } := rfl
@[simp] theorem raiseFault_err (k : FaultKind) : (raiseFault k s).err = k.code := rfl
@[simp] theorem raiseFault_errpos (k : FaultKind) : (raiseFault k s).errpos = s.stream.pos := rfl
@[simp] theorem raiseFault_result (k : FaultKind) : (raiseFault k s).result = s.result := rfl
@[simp] theorem raiseFault_arg (k : FaultKind) : (raiseFault k s).arg = s.arg := rfl
@[simp] theorem raiseFault_setup (k : FaultKind) : (raiseFault k s).setup = s.setup := rfl
@[simp] theorem raiseFault_stream (k : FaultKind) : (raiseFault k s).stream = s.stream := rfl
@[simp] theorem raiseFault_walk (k : FaultKind) : (raiseFault k s).walk = s.walk := rfl
@[simp] theorem raiseFault_buf (k : FaultKind) : (raiseFault k s).buf = s.buf := rfl
@[simp] theorem raiseFault_tables (k : FaultKind) : (raiseFault k s).tables = s.tables := rfl
@[simp] theorem raiseFault_mem (k : FaultKind) : (raiseFault k s).mem = s.mem := rfl
@[simp] theorem raiseFault_input (k : FaultKind) : (raiseFault k s).input = s.input := rfl
@[simp] theorem raiseFault_watch (k : FaultKind) : (raiseFault k s).watch = s.watch := rfl
@[simp] theorem raiseFault_memCap (k : FaultKind) : (raiseFault k s).memCap = s.memCap := rfl
@[simp] theorem raiseFault_bus (k : FaultKind) : (raiseFault k s).bus = s.bus := rfl
@[simp] theorem raiseFault_rdata (k : FaultKind) : (raiseFault k s).rdata = s.rdata := rfl
@[simp] theorem raiseFault_draws (k : FaultKind) : (raiseFault k s).draws = s.draws := rfl
@[simp] theorem raiseFault_epoch (k : FaultKind) : (raiseFault k s).epoch = s.epoch := rfl

/-! A command's fault also leaves `RESULT` unspecified (R20). -/

@[simp] theorem faultCommand_status (k : FaultKind) :
    (faultCommand k s).status = { s.status with fault := true } := rfl
@[simp] theorem faultCommand_err (k : FaultKind) : (faultCommand k s).err = k.code := rfl
@[simp] theorem faultCommand_errpos (k : FaultKind) : (faultCommand k s).errpos = s.stream.pos := rfl
@[simp] theorem faultCommand_result (k : FaultKind) : (faultCommand k s).result = Config.faultedResult s.draws := rfl
@[simp] theorem faultCommand_arg (k : FaultKind) : (faultCommand k s).arg = s.arg := rfl
@[simp] theorem faultCommand_setup (k : FaultKind) : (faultCommand k s).setup = s.setup := rfl
@[simp] theorem faultCommand_stream (k : FaultKind) : (faultCommand k s).stream = s.stream := rfl
@[simp] theorem faultCommand_walk (k : FaultKind) : (faultCommand k s).walk = s.walk := rfl
@[simp] theorem faultCommand_buf (k : FaultKind) : (faultCommand k s).buf = s.buf := rfl
@[simp] theorem faultCommand_tables (k : FaultKind) : (faultCommand k s).tables = s.tables := rfl
@[simp] theorem faultCommand_mem (k : FaultKind) : (faultCommand k s).mem = s.mem := rfl
@[simp] theorem faultCommand_input (k : FaultKind) : (faultCommand k s).input = s.input := rfl
@[simp] theorem faultCommand_watch (k : FaultKind) : (faultCommand k s).watch = s.watch := rfl
@[simp] theorem faultCommand_memCap (k : FaultKind) : (faultCommand k s).memCap = s.memCap := rfl
@[simp] theorem faultCommand_bus (k : FaultKind) : (faultCommand k s).bus = s.bus := rfl
@[simp] theorem faultCommand_rdata (k : FaultKind) : (faultCommand k s).rdata = s.rdata := rfl
@[simp] theorem faultCommand_draws (k : FaultKind) : (faultCommand k s).draws = s.draws + 1 := rfl
@[simp] theorem faultCommand_epoch (k : FaultKind) : (faultCommand k s).epoch = s.epoch := rfl

/-! `RESULT <- v`. -/

@[simp] theorem setResult_status (v : Word) : (setResult v s).status = s.status := rfl
@[simp] theorem setResult_err (v : Word) : (setResult v s).err = s.err := rfl
@[simp] theorem setResult_errpos (v : Word) : (setResult v s).errpos = s.errpos := rfl
@[simp] theorem setResult_result (v : Word) : (setResult v s).result = v := rfl
@[simp] theorem setResult_arg (v : Word) : (setResult v s).arg = s.arg := rfl
@[simp] theorem setResult_setup (v : Word) : (setResult v s).setup = s.setup := rfl
@[simp] theorem setResult_stream (v : Word) : (setResult v s).stream = s.stream := rfl
@[simp] theorem setResult_walk (v : Word) : (setResult v s).walk = s.walk := rfl
@[simp] theorem setResult_buf (v : Word) : (setResult v s).buf = s.buf := rfl
@[simp] theorem setResult_tables (v : Word) : (setResult v s).tables = s.tables := rfl
@[simp] theorem setResult_mem (v : Word) : (setResult v s).mem = s.mem := rfl
@[simp] theorem setResult_input (v : Word) : (setResult v s).input = s.input := rfl
@[simp] theorem setResult_watch (v : Word) : (setResult v s).watch = s.watch := rfl
@[simp] theorem setResult_memCap (v : Word) : (setResult v s).memCap = s.memCap := rfl
@[simp] theorem setResult_bus (v : Word) : (setResult v s).bus = s.bus := rfl
@[simp] theorem setResult_rdata (v : Word) : (setResult v s).rdata = s.rdata := rfl
@[simp] theorem setResult_draws (v : Word) : (setResult v s).draws = s.draws := rfl
@[simp] theorem setResult_epoch (v : Word) : (setResult v s).epoch = s.epoch := rfl

/-! Start of a stream (R97). -/

@[simp] theorem startStream_status : (startStream s).status = s.status := rfl
@[simp] theorem startStream_err : (startStream s).err = s.err := rfl
@[simp] theorem startStream_errpos : (startStream s).errpos = s.errpos := rfl
@[simp] theorem startStream_result : (startStream s).result = s.result := rfl
@[simp] theorem startStream_arg : (startStream s).arg = s.arg := rfl
@[simp] theorem startStream_setup : (startStream s).setup = s.setup := rfl
@[simp] theorem startStream_stream :
    (startStream s).stream =
      { pos := s.arg, cur := 0, cnt := 0, markf := false, markc := 0, brv := true } := rfl
@[simp] theorem startStream_walk :
    (startStream s).walk =
      { s.walk with pred := Vector.replicate 4 0, mcucnt := 0, rstexp := 0 } := rfl
@[simp] theorem startStream_buf : (startStream s).buf = s.buf := rfl
@[simp] theorem startStream_tables : (startStream s).tables = s.tables := rfl
@[simp] theorem startStream_mem : (startStream s).mem = s.mem := rfl
@[simp] theorem startStream_input : (startStream s).input = s.input := rfl
@[simp] theorem startStream_watch : (startStream s).watch = InputWatch.reset := rfl
@[simp] theorem startStream_memCap : (startStream s).memCap = s.memCap := rfl
@[simp] theorem startStream_bus : (startStream s).bus = s.bus := rfl
@[simp] theorem startStream_rdata : (startStream s).rdata = s.rdata := rfl
@[simp] theorem startStream_draws : (startStream s).draws = s.draws := rfl
@[simp] theorem startStream_epoch : (startStream s).epoch = s.epoch := rfl

/-! Storing a DC coefficient (R133). -/

@[simp] theorem storeDc_status (c : Fin 4) (v : Int) : (storeDc c v s).status = s.status := rfl
@[simp] theorem storeDc_err (c : Fin 4) (v : Int) : (storeDc c v s).err = s.err := rfl
@[simp] theorem storeDc_errpos (c : Fin 4) (v : Int) : (storeDc c v s).errpos = s.errpos := rfl
@[simp] theorem storeDc_result (c : Fin 4) (v : Int) : (storeDc c v s).result = s.result := rfl
@[simp] theorem storeDc_arg (c : Fin 4) (v : Int) : (storeDc c v s).arg = s.arg := rfl
@[simp] theorem storeDc_setup (c : Fin 4) (v : Int) : (storeDc c v s).setup = s.setup := rfl
@[simp] theorem storeDc_stream (c : Fin 4) (v : Int) : (storeDc c v s).stream = s.stream := rfl
@[simp] theorem storeDc_walk (c : Fin 4) (v : Int) :
    (storeDc c v s).walk =
      { s.walk with pred := s.walk.pred.set c (BitVec.ofInt 16 v) } := rfl
@[simp] theorem storeDc_buf (c : Fin 4) (v : Int) :
    (storeDc c v s).buf = { s.buf with coef := s.buf.coef.set 0 (BitVec.ofInt 16 v) } := rfl
@[simp] theorem storeDc_tables (c : Fin 4) (v : Int) : (storeDc c v s).tables = s.tables := rfl
@[simp] theorem storeDc_mem (c : Fin 4) (v : Int) : (storeDc c v s).mem = s.mem := rfl
@[simp] theorem storeDc_input (c : Fin 4) (v : Int) : (storeDc c v s).input = s.input := rfl
@[simp] theorem storeDc_watch (c : Fin 4) (v : Int) : (storeDc c v s).watch = s.watch := rfl
@[simp] theorem storeDc_memCap (c : Fin 4) (v : Int) : (storeDc c v s).memCap = s.memCap := rfl
@[simp] theorem storeDc_bus (c : Fin 4) (v : Int) : (storeDc c v s).bus = s.bus := rfl
@[simp] theorem storeDc_rdata (c : Fin 4) (v : Int) : (storeDc c v s).rdata = s.rdata := rfl
@[simp] theorem storeDc_draws (c : Fin 4) (v : Int) : (storeDc c v s).draws = s.draws := rfl
@[simp] theorem storeDc_epoch (c : Fin 4) (v : Int) : (storeDc c v s).epoch = s.epoch := rfl

/-! Storing an AC coefficient (R135). -/

@[simp] theorem storeCoef_status (k : Fin 64) (v : Int) : (storeCoef k v s).status = s.status := rfl
@[simp] theorem storeCoef_err (k : Fin 64) (v : Int) : (storeCoef k v s).err = s.err := rfl
@[simp] theorem storeCoef_errpos (k : Fin 64) (v : Int) : (storeCoef k v s).errpos = s.errpos := rfl
@[simp] theorem storeCoef_result (k : Fin 64) (v : Int) : (storeCoef k v s).result = s.result := rfl
@[simp] theorem storeCoef_arg (k : Fin 64) (v : Int) : (storeCoef k v s).arg = s.arg := rfl
@[simp] theorem storeCoef_setup (k : Fin 64) (v : Int) : (storeCoef k v s).setup = s.setup := rfl
@[simp] theorem storeCoef_stream (k : Fin 64) (v : Int) : (storeCoef k v s).stream = s.stream := rfl
@[simp] theorem storeCoef_walk (k : Fin 64) (v : Int) : (storeCoef k v s).walk = s.walk := rfl
@[simp] theorem storeCoef_buf (k : Fin 64) (v : Int) :
    (storeCoef k v s).buf = { s.buf with coef := s.buf.coef.set k (BitVec.ofInt 16 v) } := rfl
@[simp] theorem storeCoef_tables (k : Fin 64) (v : Int) : (storeCoef k v s).tables = s.tables := rfl
@[simp] theorem storeCoef_mem (k : Fin 64) (v : Int) : (storeCoef k v s).mem = s.mem := rfl
@[simp] theorem storeCoef_input (k : Fin 64) (v : Int) : (storeCoef k v s).input = s.input := rfl
@[simp] theorem storeCoef_watch (k : Fin 64) (v : Int) : (storeCoef k v s).watch = s.watch := rfl
@[simp] theorem storeCoef_memCap (k : Fin 64) (v : Int) : (storeCoef k v s).memCap = s.memCap := rfl
@[simp] theorem storeCoef_bus (k : Fin 64) (v : Int) : (storeCoef k v s).bus = s.bus := rfl
@[simp] theorem storeCoef_rdata (k : Fin 64) (v : Int) : (storeCoef k v s).rdata = s.rdata := rfl
@[simp] theorem storeCoef_draws (k : Fin 64) (v : Int) : (storeCoef k v s).draws = s.draws := rfl
@[simp] theorem storeCoef_epoch (k : Fin 64) (v : Int) : (storeCoef k v s).epoch = s.epoch := rfl

/-! Clearing `COEF[1..63]` (R135). -/

@[simp] theorem clearAc_status : (clearAc s).status = s.status := rfl
@[simp] theorem clearAc_err : (clearAc s).err = s.err := rfl
@[simp] theorem clearAc_errpos : (clearAc s).errpos = s.errpos := rfl
@[simp] theorem clearAc_result : (clearAc s).result = s.result := rfl
@[simp] theorem clearAc_arg : (clearAc s).arg = s.arg := rfl
@[simp] theorem clearAc_setup : (clearAc s).setup = s.setup := rfl
@[simp] theorem clearAc_stream : (clearAc s).stream = s.stream := rfl
@[simp] theorem clearAc_walk : (clearAc s).walk = s.walk := rfl
@[simp] theorem clearAc_buf :
    (clearAc s).buf = { s.buf with coef := dcOnly s.buf.coef } := rfl
@[simp] theorem clearAc_tables : (clearAc s).tables = s.tables := rfl
@[simp] theorem clearAc_mem : (clearAc s).mem = s.mem := rfl
@[simp] theorem clearAc_input : (clearAc s).input = s.input := rfl
@[simp] theorem clearAc_watch : (clearAc s).watch = s.watch := rfl
@[simp] theorem clearAc_memCap : (clearAc s).memCap = s.memCap := rfl
@[simp] theorem clearAc_bus : (clearAc s).bus = s.bus := rfl
@[simp] theorem clearAc_rdata : (clearAc s).rdata = s.rdata := rfl
@[simp] theorem clearAc_draws : (clearAc s).draws = s.draws := rfl
@[simp] theorem clearAc_epoch : (clearAc s).epoch = s.epoch := rfl

/-! Clearing `COEF` (R137). -/

@[simp] theorem clearCoef_status : (clearCoef s).status = s.status := rfl
@[simp] theorem clearCoef_err : (clearCoef s).err = s.err := rfl
@[simp] theorem clearCoef_errpos : (clearCoef s).errpos = s.errpos := rfl
@[simp] theorem clearCoef_result : (clearCoef s).result = s.result := rfl
@[simp] theorem clearCoef_arg : (clearCoef s).arg = s.arg := rfl
@[simp] theorem clearCoef_setup : (clearCoef s).setup = s.setup := rfl
@[simp] theorem clearCoef_stream : (clearCoef s).stream = s.stream := rfl
@[simp] theorem clearCoef_walk : (clearCoef s).walk = s.walk := rfl
@[simp] theorem clearCoef_buf : (clearCoef s).buf = { s.buf with coef := Vector.replicate 64 0 } := rfl
@[simp] theorem clearCoef_tables : (clearCoef s).tables = s.tables := rfl
@[simp] theorem clearCoef_mem : (clearCoef s).mem = s.mem := rfl
@[simp] theorem clearCoef_input : (clearCoef s).input = s.input := rfl
@[simp] theorem clearCoef_watch : (clearCoef s).watch = s.watch := rfl
@[simp] theorem clearCoef_memCap : (clearCoef s).memCap = s.memCap := rfl
@[simp] theorem clearCoef_bus : (clearCoef s).bus = s.bus := rfl
@[simp] theorem clearCoef_rdata : (clearCoef s).rdata = s.rdata := rfl
@[simp] theorem clearCoef_draws : (clearCoef s).draws = s.draws := rfl
@[simp] theorem clearCoef_epoch : (clearCoef s).epoch = s.epoch := rfl

/-! Placing a tile (R172). -/

@[simp] theorem tilePut_status (c : Fin 4) (bx by' : Nat) : (tilePut c bx by' s).status = s.status := rfl
@[simp] theorem tilePut_err (c : Fin 4) (bx by' : Nat) : (tilePut c bx by' s).err = s.err := rfl
@[simp] theorem tilePut_errpos (c : Fin 4) (bx by' : Nat) : (tilePut c bx by' s).errpos = s.errpos := rfl
@[simp] theorem tilePut_result (c : Fin 4) (bx by' : Nat) : (tilePut c bx by' s).result = s.result := rfl
@[simp] theorem tilePut_arg (c : Fin 4) (bx by' : Nat) : (tilePut c bx by' s).arg = s.arg := rfl
@[simp] theorem tilePut_setup (c : Fin 4) (bx by' : Nat) : (tilePut c bx by' s).setup = s.setup := rfl
@[simp] theorem tilePut_stream (c : Fin 4) (bx by' : Nat) : (tilePut c bx by' s).stream = s.stream := rfl
@[simp] theorem tilePut_walk (c : Fin 4) (bx by' : Nat) : (tilePut c bx by' s).walk = s.walk := rfl
@[simp] theorem tilePut_buf (c : Fin 4) (bx by' : Nat) : (tilePut c bx by' s).buf = s.buf := rfl
@[simp] theorem tilePut_tables (c : Fin 4) (bx by' : Nat) : (tilePut c bx by' s).tables = s.tables := rfl
@[simp] theorem tilePut_mem (c : Fin 4) (bx by' : Nat) :
    (tilePut c bx by' s).mem =
      { s.mem with plane := s.mem.plane.set c (s.mem.plane[c].writeAll (tileCells (s.setup.planeW c) bx by' s.buf.tile)) } := rfl
@[simp] theorem tilePut_input (c : Fin 4) (bx by' : Nat) : (tilePut c bx by' s).input = s.input := rfl
@[simp] theorem tilePut_watch (c : Fin 4) (bx by' : Nat) : (tilePut c bx by' s).watch = s.watch := rfl
@[simp] theorem tilePut_memCap (c : Fin 4) (bx by' : Nat) : (tilePut c bx by' s).memCap = s.memCap := rfl
@[simp] theorem tilePut_bus (c : Fin 4) (bx by' : Nat) : (tilePut c bx by' s).bus = s.bus := rfl
@[simp] theorem tilePut_rdata (c : Fin 4) (bx by' : Nat) : (tilePut c bx by' s).rdata = s.rdata := rfl
@[simp] theorem tilePut_draws (c : Fin 4) (bx by' : Nat) : (tilePut c bx by' s).draws = s.draws := rfl
@[simp] theorem tilePut_epoch (c : Fin 4) (bx by' : Nat) : (tilePut c bx by' s).epoch = s.epoch := rfl

/-! Consuming a restart marker (R140). -/

@[simp] theorem consumeRestart_status : (consumeRestart s).status = s.status := rfl
@[simp] theorem consumeRestart_err : (consumeRestart s).err = s.err := rfl
@[simp] theorem consumeRestart_errpos : (consumeRestart s).errpos = s.errpos := rfl
@[simp] theorem consumeRestart_result : (consumeRestart s).result = s.result := rfl
@[simp] theorem consumeRestart_arg : (consumeRestart s).arg = s.arg := rfl
@[simp] theorem consumeRestart_setup : (consumeRestart s).setup = s.setup := rfl
@[simp] theorem consumeRestart_stream :
    (consumeRestart s).stream =
      { s.stream with pos := s.stream.pos + 2, markf := false, markc := 0 } := rfl
@[simp] theorem consumeRestart_walk :
    (consumeRestart s).walk =
      { s.walk with pred := Vector.replicate 4 0, mcucnt := 0, rstexp := s.walk.rstexp + 1 } := rfl
@[simp] theorem consumeRestart_buf : (consumeRestart s).buf = s.buf := rfl
@[simp] theorem consumeRestart_tables : (consumeRestart s).tables = s.tables := rfl
@[simp] theorem consumeRestart_mem : (consumeRestart s).mem = s.mem := rfl
@[simp] theorem consumeRestart_input : (consumeRestart s).input = s.input := rfl
@[simp] theorem consumeRestart_watch : (consumeRestart s).watch = s.watch := rfl
@[simp] theorem consumeRestart_memCap : (consumeRestart s).memCap = s.memCap := rfl
@[simp] theorem consumeRestart_bus : (consumeRestart s).bus = s.bus := rfl
@[simp] theorem consumeRestart_rdata : (consumeRestart s).rdata = s.rdata := rfl
@[simp] theorem consumeRestart_draws : (consumeRestart s).draws = s.draws := rfl
@[simp] theorem consumeRestart_epoch : (consumeRestart s).epoch = s.epoch := rfl

/-! Counting an MCU (R143). -/

@[simp] theorem countMcu_status : (countMcu s).status = s.status := rfl
@[simp] theorem countMcu_err : (countMcu s).err = s.err := rfl
@[simp] theorem countMcu_errpos : (countMcu s).errpos = s.errpos := rfl
@[simp] theorem countMcu_result : (countMcu s).result = s.walk.mcuidx + 1 := rfl
@[simp] theorem countMcu_arg : (countMcu s).arg = s.arg := rfl
@[simp] theorem countMcu_setup : (countMcu s).setup = s.setup := rfl
@[simp] theorem countMcu_stream : (countMcu s).stream = s.stream := rfl
@[simp] theorem countMcu_walk :
    (countMcu s).walk =
      { s.walk with mcucnt := s.walk.mcucnt + 1, mcuidx := s.walk.mcuidx + 1 } := rfl
@[simp] theorem countMcu_buf : (countMcu s).buf = s.buf := rfl
@[simp] theorem countMcu_tables : (countMcu s).tables = s.tables := rfl
@[simp] theorem countMcu_mem : (countMcu s).mem = s.mem := rfl
@[simp] theorem countMcu_input : (countMcu s).input = s.input := rfl
@[simp] theorem countMcu_watch : (countMcu s).watch = s.watch := rfl
@[simp] theorem countMcu_memCap : (countMcu s).memCap = s.memCap := rfl
@[simp] theorem countMcu_bus : (countMcu s).bus = s.bus := rfl
@[simp] theorem countMcu_rdata : (countMcu s).rdata = s.rdata := rfl
@[simp] theorem countMcu_draws : (countMcu s).draws = s.draws := rfl
@[simp] theorem countMcu_epoch : (countMcu s).epoch = s.epoch := rfl

/-! Entering scan mode (R144 step 10). -/

@[simp] theorem enterScan_status : (enterScan s).status = { s.status.clearDecode with scan := true } := rfl
@[simp] theorem enterScan_err : (enterScan s).err = s.err := rfl
@[simp] theorem enterScan_errpos : (enterScan s).errpos = s.errpos := rfl
@[simp] theorem enterScan_result : (enterScan s).result = BitVec.ofNat 32 s.setup.nmcu := rfl
@[simp] theorem enterScan_arg : (enterScan s).arg = s.arg := rfl
@[simp] theorem enterScan_setup : (enterScan s).setup = s.setup := rfl
@[simp] theorem enterScan_stream :
    (enterScan s).stream =
      { pos := s.arg, cur := 0, cnt := 0, markf := false, markc := 0, brv := true } := rfl
@[simp] theorem enterScan_walk :
    (enterScan s).walk =
      { pred := Vector.replicate 4 0, mcucnt := 0, rstexp := 0, mcuidx := 0 } := rfl
@[simp] theorem enterScan_buf : (enterScan s).buf = s.buf := rfl
@[simp] theorem enterScan_tables : (enterScan s).tables = s.tables := rfl
@[simp] theorem enterScan_mem : (enterScan s).mem = s.mem := rfl
@[simp] theorem enterScan_input : (enterScan s).input = s.input := rfl
@[simp] theorem enterScan_watch : (enterScan s).watch = InputWatch.reset := rfl
@[simp] theorem enterScan_memCap : (enterScan s).memCap = s.memCap := rfl
@[simp] theorem enterScan_bus : (enterScan s).bus = s.bus := rfl
@[simp] theorem enterScan_rdata : (enterScan s).rdata = s.rdata := rfl
@[simp] theorem enterScan_draws : (enterScan s).draws = s.draws := rfl
@[simp] theorem enterScan_epoch : (enterScan s).epoch = s.epoch := rfl

/-! Upsampling a component (R181). -/

@[simp] theorem upsample_status (c : Fin 4) :
    (upsample c s).status = { s.status with fullv := s.status.fullv.set c true } := rfl
@[simp] theorem upsample_err (c : Fin 4) : (upsample c s).err = s.err := rfl
@[simp] theorem upsample_errpos (c : Fin 4) : (upsample c s).errpos = s.errpos := rfl
@[simp] theorem upsample_result (c : Fin 4) : (upsample c s).result = s.result := rfl
@[simp] theorem upsample_arg (c : Fin 4) : (upsample c s).arg = s.arg := rfl
@[simp] theorem upsample_setup (c : Fin 4) : (upsample c s).setup = s.setup := rfl
@[simp] theorem upsample_stream (c : Fin 4) : (upsample c s).stream = s.stream := rfl
@[simp] theorem upsample_walk (c : Fin 4) : (upsample c s).walk = s.walk := rfl
@[simp] theorem upsample_buf (c : Fin 4) : (upsample c s).buf = s.buf := rfl
@[simp] theorem upsample_tables (c : Fin 4) : (upsample c s).tables = s.tables := rfl
@[simp] theorem upsample_mem (c : Fin 4) :
    (upsample c s).mem =
      { s.mem with full := s.mem.full.set c (s.mem.full[c].writeAll (upsampleCells c s)) } := rfl
@[simp] theorem upsample_input (c : Fin 4) : (upsample c s).input = s.input := rfl
@[simp] theorem upsample_watch (c : Fin 4) : (upsample c s).watch = s.watch := rfl
@[simp] theorem upsample_memCap (c : Fin 4) : (upsample c s).memCap = s.memCap := rfl
@[simp] theorem upsample_bus (c : Fin 4) : (upsample c s).bus = s.bus := rfl
@[simp] theorem upsample_rdata (c : Fin 4) : (upsample c s).rdata = s.rdata := rfl
@[simp] theorem upsample_draws (c : Fin 4) : (upsample c s).draws = s.draws := rfl
@[simp] theorem upsample_epoch (c : Fin 4) : (upsample c s).epoch = s.epoch := rfl

/-! Reset (R26, R250): `IN`, `MEM_CAP` and the host's side stay (R252). -/

@[simp] theorem resetBlock_status : (resetBlock s).status = Status.reset := rfl
@[simp] theorem resetBlock_err : (resetBlock s).err = 0 := rfl
@[simp] theorem resetBlock_errpos : (resetBlock s).errpos = 0 := rfl
@[simp] theorem resetBlock_result : (resetBlock s).result = 0 := rfl
@[simp] theorem resetBlock_arg : (resetBlock s).arg = 0 := rfl
@[simp] theorem resetBlock_setup : (resetBlock s).setup = Setup.reset := rfl
@[simp] theorem resetBlock_stream : (resetBlock s).stream = Stream.reset := rfl
@[simp] theorem resetBlock_walk : (resetBlock s).walk = Walk.reset := rfl
@[simp] theorem resetBlock_buf : (resetBlock s).buf = Buffers.reset (s.epoch + 1) := rfl
@[simp] theorem resetBlock_tables : (resetBlock s).tables = Tables.reset := rfl
@[simp] theorem resetBlock_mem : (resetBlock s).mem = Planes.reset := rfl
@[simp] theorem resetBlock_input : (resetBlock s).input = s.input := rfl
@[simp] theorem resetBlock_watch : (resetBlock s).watch = InputWatch.reset := rfl
@[simp] theorem resetBlock_memCap : (resetBlock s).memCap = s.memCap := rfl
@[simp] theorem resetBlock_bus : (resetBlock s).bus = s.bus := rfl
@[simp] theorem resetBlock_rdata : (resetBlock s).rdata = s.rdata := rfl
@[simp] theorem resetBlock_draws : (resetBlock s).draws = s.draws := rfl
@[simp] theorem resetBlock_epoch : (resetBlock s).epoch = s.epoch + 1 := rfl

/-- The input buffer depends on `IN_LEN` and `IN` only. -/
theorem inBuf_congr {s t : State} (h : t.setup.inLen = s.setup.inLen) (h' : t.input = s.input)
    (hw : t.watch = s.watch) : t.inBuf = s.inBuf := by
  simp [State.inBuf, h, h', hw]

end Sys2Proof.Laws
end

