-- ==== Sys2Proof/Laws/Recon.lean ====
section
/-! SUPPORT. The block reconstructor: exact products and sums, the zigzag permutation, rounding and clamping, tile
addresses. -/

namespace Sys2Proof.Laws

open Sys2Proof.Machine

/-! ### Dequantizer (R161) -/

/-- A number that fits in a signed register is held exactly. -/
theorem toInt_ofInt_of_fits {n : Nat} {v : Int} (hlo : -(2 ^ (n - 1) : Int) ≤ v) (hhi : v < 2 ^ (n - 1)) (hn : 0 < n) :
    (BitVec.ofInt n v).toInt = v := by
  obtain ⟨m, rfl⟩ : ∃ m, n = m + 1 := ⟨n - 1, by omega⟩
  simp only [Nat.add_sub_cancel] at hlo hhi
  rw [BitVec.toInt_ofInt]
  have h2 : (2 : Int) ^ (m + 1) = 2 * 2 ^ m := by rw [pow_succ]; ring
  rw [Int.bmod_def]
  push_cast
  rw [h2]
  have hpos : (0 : Int) < 2 ^ m := by positivity
  have hd : (2 * (2 : Int) ^ m + 1) / 2 = 2 ^ m := by omega
  rw [hd]
  rcases lt_or_ge v 0 with hv | hv
  · rw [show v % (2 * 2 ^ m) = v + 2 * 2 ^ m by
      rw [← Int.add_emod_right, Int.emod_eq_of_lt (by omega) (by omega)]]
    rw [if_neg (by omega)]
    omega
  · rw [Int.emod_eq_of_lt hv (by omega), if_pos hhi]

/-- The product of a signed and an unsigned 16-bit value fits 32 bits (R161). -/
theorem dequantize_toInt (coef q : Block (BitVec 16)) (i : Fin 64) :
    ((dequantize coef q)[i]).toInt = coef[i].toInt * (q[i].toNat : Int) := by
  simp only [dequantize, Fin.getElem_fin, Vector.getElem_ofFn]
  have h1 := BitVec.le_toInt (x := coef[i.val])
  have h2 := BitVec.toInt_lt (x := coef[i.val])
  have h3 := (q[i.val]).isLt
  simp only [Nat.add_one_sub_one] at h1 h2
  refine toInt_ofInt_of_fits (n := 32) ?_ ?_ (by omega) <;> norm_num at h1 h2 h3 ⊢ <;> nlinarith

/-! ### Zigzag (R163, R164) -/

theorem zz_injective : Function.Injective zz := by decide

theorem zz_bijective : Function.Bijective zz := Finite.injective_iff_bijective.1 zz_injective

/-- Setting different positions one after the other leaves each value where it was put. -/
theorem foldl_set_get {α : Type} {n m : Nat} (f : Fin n → Fin m) (hf : Function.Injective f) (v : Fin n → α)
    (l : List (Fin n)) (hl : l.Nodup) (init : Vector α m) (j : Fin m) :
    (l.foldl (fun acc i => acc.set (f i) (v i)) init)[j] =
      match l.find? (fun i => f i = j) with
      | some i => v i
      | none => init[j] := by
  induction l generalizing init with
  | nil => rfl
  | cons a l ih =>
    rw [List.nodup_cons] at hl
    rw [List.foldl_cons, ih hl.2, List.find?_cons]
    by_cases h : f a = j
    · have hn : l.find? (fun i => decide (f i = j)) = none := by
        rw [List.find?_eq_none]
        intro x hx
        simp only [decide_eq_true_eq]
        intro he
        exact hl.1 (hf (h.trans he.symm) ▸ hx)
      rw [hn]
      simp [h]
    · simp only [h, decide_false]
      cases l.find? (fun i => decide (f i = j)) with
      | some i => rfl
      | none =>
        have : (f a).val ≠ j.val := fun he => h (Fin.ext he)
        simp [this]

/-- Every entry of `NAT` is written once: position `ZZ[i]` gets `DEQ[i]` (R164). -/
@[simp] theorem scatter_zz (deq nat : Block Word) (i : Fin 64) : (scatter deq nat)[zz i] = deq[i] := by
  rw [scatter, foldl_set_get zz zz_injective (fun i => deq[i]) _ (List.nodup_finRange 64)]
  have : (List.finRange 64).find? (fun k => decide (zz k = zz i)) = some i := by
    rw [List.find?_eq_some_iff_getElem]
    refine ⟨by simp, i.val, by simp, by simp, ?_⟩
    intro j hj
    simp only [List.getElem_finRange, Bool.not_eq_eq_eq_not, Bool.not_true, decide_eq_false_iff_not]
    intro he
    have := congrArg Fin.val (zz_injective he)
    simp at this
    omega
  rw [this]

/-- What `NAT` held before does not matter. -/
theorem scatter_congr (deq nat nat' : Block Word) : scatter deq nat = scatter deq nat' := by
  refine Vector.ext fun j hj => ?_
  obtain ⟨i, hi⟩ := zz_bijective.2 ⟨j, hj⟩
  have h1 := scatter_zz deq nat i
  have h2 := scatter_zz deq nat' i
  have hv : (zz i).val = j := congrArg Fin.val hi
  simp only [Fin.getElem_fin] at h1 h2
  subst hv
  exact h1.trans h2.symm

/-! ### Inverse DCT (R166) -/

theorem kernel_bound (x : Fin 8) : (sum8 fun u => |kernel u x|) ≤ 21641 := by revert x; decide

theorem sum8_abs_le {f : Fin 8 → Int} {g : Fin 8 → Int} {B : Int} (h : ∀ u, |f u| ≤ g u * B) :
    |sum8 f| ≤ (sum8 g) * B := by
  have := h 0; have := h 1; have := h 2; have := h 3; have := h 4; have := h 5; have := h 6; have := h 7
  simp only [sum8]
  rw [add_mul, add_mul, add_mul, add_mul, add_mul, add_mul, add_mul]
  rw [abs_le] at *
  constructor <;> linarith [abs_le.1 (h 0), abs_le.1 (h 1), abs_le.1 (h 2), abs_le.1 (h 3), abs_le.1 (h 4),
    abs_le.1 (h 5), abs_le.1 (h 6), abs_le.1 (h 7)]

/-- Pass 1 stays within 21641·2^31 (R166). -/
theorem idctRows_bound (nat : Block Word) (i : Fin 64) : |(idctRows nat)[i]| ≤ 21641 * 2 ^ 31 := by
  simp only [idctRows, Fin.getElem_fin, Vector.getElem_ofFn]
  have hb : ∀ k : Fin 64, |nat[k.val].toInt| ≤ 2 ^ 31 := by
    intro k
    have h1 := BitVec.le_toInt (x := nat[k.val])
    have h2 := BitVec.toInt_lt (x := nat[k.val])
    rw [abs_le]
    norm_num at h1 h2 ⊢
    omega
  refine (sum8_abs_le (g := fun u => |kernel u (colOf i)|) (B := 2 ^ 31) fun u => ?_).trans
    (mul_le_mul_of_nonneg_right (kernel_bound _) (by positivity))
  rw [abs_mul]
  exact mul_le_mul_of_nonneg_left (hb _) (abs_nonneg _)

/-- `|ACC| < 2^60`, so a signed 64-bit register holds every sum exactly (R166). -/
theorem idctCols_bound (nat : Block Word) (i : Fin 64) : |(idctCols (idctRows nat))[i]| < 2 ^ 60 := by
  simp only [idctCols, Fin.getElem_fin, Vector.getElem_ofFn]
  refine lt_of_le_of_lt ((sum8_abs_le (g := fun v => |kernel v (rowOf i)|) (B := 21641 * 2 ^ 31) fun v => ?_).trans
    (mul_le_mul_of_nonneg_right (kernel_bound _) (by positivity))) (by norm_num)
  rw [abs_mul]
  have := idctRows_bound nat (cell v (colOf i))
  exact mul_le_mul_of_nonneg_left (by simpa using this) (abs_nonneg _)

theorem idct2d_get (nat : Block Word) (i : Fin 64) :
    (idct2d nat)[i] = BitVec.ofInt 64 (idctCols (idctRows nat))[i] := by
  unfold idct2d
  generalize idctCols (idctRows nat) = t
  simp only [Fin.getElem_fin, Vector.getElem_ofFn]

/-- `ACC` holds the exact sums. -/
theorem idct2d_toInt (nat : Block Word) (i : Fin 64) : ((idct2d nat)[i]).toInt = (idctCols (idctRows nat))[i] := by
  have h := abs_lt.1 (idctCols_bound nat i)
  rw [idct2d_get]
  generalize (idctCols (idctRows nat))[i] = v at h ⊢
  refine toInt_ofInt_of_fits (n := 64) ?_ ?_ (by omega) <;> norm_num at h ⊢ <;> omega

@[simp] theorem rowOf_cell (y x : Fin 8) : rowOf (cell y x) = y := by
  ext; simp only [rowOf, cell]; omega

@[simp] theorem colOf_cell (y x : Fin 8) : colOf (cell y x) = x := by
  ext; simp only [colOf, cell]; omega

theorem idctRows_get (nat : Block Word) (i : Fin 64) :
    (idctRows nat)[i] = sum8 fun u => kernel u (colOf i) * nat[cell (rowOf i) u].toInt := by
  simp only [idctRows, Fin.getElem_fin, Vector.getElem_ofFn, Fin.eta]

theorem idctCols_get (t : Block Int) (i : Fin 64) :
    (idctCols t)[i] = sum8 fun v => kernel v (rowOf i) * t[cell v (colOf i)] := by
  simp only [idctCols, Fin.getElem_fin, Vector.getElem_ofFn, Fin.eta]

/-- `ACC[8·y + x]` as one double sum over the kernel (R166). -/
theorem idct2d_cell (nat : Block Word) (y x : Fin 8) :
    ((idct2d nat)[cell y x]).toInt =
      sum8 fun v => kernel v y * sum8 fun u => kernel u x * nat[cell v u].toInt := by
  rw [idct2d_toInt, idctCols_get]
  simp only [idctRows_get, rowOf_cell, colOf_cell]

theorem sum_finRange (f : Fin 8 → Int) : ((List.finRange 8).map f).sum = sum8 f := by
  simp [List.finRange_succ, sum8, ← add_assoc]

/-! ### Level shift (R168) -/

theorem clamp_bounds (v : Int) : 0 ≤ clamp 0 255 v ∧ clamp 0 255 v ≤ 255 := by
  unfold clamp; split <;> [skip; split] <;> omega

@[simp] theorem sampleByte_toNat (v : Int) : ((sampleByte v).toNat : Int) = clamp 0 255 v := by
  have h := clamp_bounds v
  simp only [sampleByte, BitVec.toNat_ofInt]
  norm_num
  omega

/-! ### Tiles (R172) -/

theorem cell_rowOf_colOf (i : Fin 64) : cell (rowOf i) (colOf i) = i := by
  ext; simp [cell, rowOf, colOf]; omega

/-- The addresses of a tile are all different. -/
theorem tileCells_nodup {width bx by' : Nat} (tile : Block Byte) (h : bx * 8 + 8 ≤ width) :
    ((tileCells width bx by' tile).map (·.1)).Nodup := by
  simp only [tileCells, List.map_map]
  refine (List.nodup_finRange 64).map ?_
  intro i j hij
  simp only [Function.comp, tileAddress] at hij
  have hi : (colOf i).val < 8 := (colOf i).isLt
  have hj : (colOf j).val < 8 := (colOf j).isLt
  have key : ∀ a b c d : Nat, c < width → d < width → a * width + c = b * width + d → a = b ∧ c = d := by
    intro a b c d hc hd he
    have hw : 0 < width := by omega
    have h1 := congrArg (· / width) he
    have h2 := congrArg (· % width) he
    simp only [Nat.mul_comm _ width, Nat.mul_add_div hw, Nat.div_eq_of_lt hc, Nat.div_eq_of_lt hd] at h1
    simp only [Nat.mul_comm _ width, Nat.mul_add_mod, Nat.mod_eq_of_lt hc, Nat.mod_eq_of_lt hd] at h2
    omega
  have := key _ _ _ _ (by omega) (by omega) hij
  rw [← cell_rowOf_colOf i, ← cell_rowOf_colOf j, show rowOf i = rowOf j from Fin.ext (by omega),
    show colOf i = colOf j from Fin.ext (by omega)]

/-- The four steps of `recon` leave the tile of the coefficients (R170). -/
theorem reconstructed_tile (f : Buffers) (q : Block (BitVec 16)) :
    (f.reconstructed q).tile = Spec.tileOf f.coef q := by
  simp only [Buffers.reconstructed, Buffers.shifted, Buffers.transformed, Buffers.scattered, Buffers.dequantized,
    Spec.tileOf]
  rw [scatter_congr (dequantize f.coef q) f.nat (Vector.replicate 64 0)]

theorem reconstructed_coef (f : Buffers) (q : Block (BitVec 16)) : (f.reconstructed q).coef = f.coef := by
  simp only [Buffers.reconstructed, Buffers.shifted, Buffers.transformed, Buffers.scattered, Buffers.dequantized]

end Sys2Proof.Laws
end

