-- ==== Sys2Proof/Laws/Color.lean ====
section
/-! SUPPORT. The upsampler and the colour converter: each pixel is written once, so each address holds its pixel's
value afterwards. -/

namespace Sys2Proof.Laws

open Sys2Proof.Machine

theorem mem_pixels {u : Setup} {p : Nat × Nat} : p ∈ u.pixels ↔ p.1 < u.ht ∧ p.2 < u.w := by
  obtain ⟨y, x⟩ := p
  simp only [Setup.pixels, List.mem_flatMap, List.mem_map, List.mem_range, Prod.mk.injEq]
  constructor
  · rintro ⟨y', hy, x', hx, rfl, rfl⟩; exact ⟨hy, hx⟩
  · rintro ⟨hy, hx⟩; exact ⟨y, hy, x, hx, rfl, rfl⟩

/-- The pixels in row-major order stand at the addresses 0, 1, 2, … (R43). -/
theorem pixels_addresses (u : Setup) :
    u.pixels.map (fun p => pixelAddress u.w p.1 p.2) = List.range (u.ht * u.w) := by
  simp only [Setup.pixels, pixelAddress]
  induction u.ht with
  | zero => simp
  | succ n ih =>
    rw [List.range_succ, List.flatMap_append, List.map_append, ih, Nat.succ_mul, List.range_add]
    simp

theorem pixelAddress_inj {w y x y' x' : Nat} (hx : x < w) (hx' : x' < w)
    (h : pixelAddress w y x = pixelAddress w y' x') : y = y' ∧ x = x' := by
  unfold pixelAddress at h
  have hw : 0 < w := by omega
  have h1 : (y * w + x) / w = y := by rw [Nat.mul_comm, Nat.mul_add_div hw, Nat.div_eq_of_lt hx]; omega
  have h2 : (y' * w + x') / w = y' := by rw [Nat.mul_comm, Nat.mul_add_div hw, Nat.div_eq_of_lt hx']; omega
  have : y = y' := by rw [← h1, ← h2, h]
  subst this
  omega

/-- After UP.RUN every pixel of `FULL[c]` holds the plane sample that covers it (R180). -/
theorem upsample_read (c : Fin 4) (s : State) {y x : Nat} (hy : y < s.setup.ht) (hx : x < s.setup.w) :
    (s.mem.full[c].writeAll (upsampleCells c s)).read (pixelAddress s.setup.w y x) =
      some (s.planeByte c (scaledAddress (s.setup.planeW c) (s.setup.vOf c) s.setup.vMax (s.setup.hOf c) s.setup.hMax
        y x)) := by
  have hnd : ((upsampleCells c s).map (·.1)).Nodup := by
    rw [upsampleCells, List.map_map]
    rw [show ((fun x : Host.Cell => x.1) ∘ fun p : Nat × Nat => (pixelAddress s.setup.w p.1 p.2,
      s.planeByte c (scaledAddress (s.setup.planeW c) (s.setup.vOf c) s.setup.vMax
        (s.setup.hOf c) s.setup.hMax p.1 p.2))) = fun p => pixelAddress s.setup.w p.1 p.2 from rfl, pixels_addresses]
    exact List.nodup_range
  exact read_writeAll_mem _ hnd (List.mem_map.2 ⟨(y, x), mem_pixels.2 ⟨hy, hx⟩, rfl⟩)

/-- No address outside the image is written. -/
theorem upsample_read_other (c : Fin 4) (s : State) {a : Nat} (ha : s.setup.ht * s.setup.w ≤ a) :
    (s.mem.full[c].writeAll (upsampleCells c s)).read a = s.mem.full[c].read a := by
  refine read_writeAll_other _ _ fun cell hc => ?_
  simp only [upsampleCells, List.mem_map] at hc
  obtain ⟨p, hp, rfl⟩ := hc
  have hm : pixelAddress s.setup.w p.1 p.2 ∈ List.range (s.setup.ht * s.setup.w) := by
    rw [← pixels_addresses]; exact List.mem_map.2 ⟨p, hp, rfl⟩
  simp only [List.mem_range] at hm
  simp only
  omega

theorem range_triples (n : Nat) : (List.range n).flatMap (fun a => [3 * a, 3 * a + 1, 3 * a + 2]) = List.range (3 * n) := by
  induction n with
  | zero => rfl
  | succ n ih =>
    rw [List.range_succ, List.flatMap_append, ih, Nat.mul_succ, List.range_add]
    rfl

/-- The addresses CC.RUN writes: one byte a pixel for one component, three otherwise, each once (R43, R186). -/
theorem outCells_addresses (s : State) :
    (s.setup.pixels.flatMap (outCells s)).map (·.1) =
      if s.setup.numComps = 1 then List.range (s.setup.ht * s.setup.w)
      else List.range (3 * (s.setup.ht * s.setup.w)) := by
  rw [List.map_flatMap]
  split
  · next h =>
    rw [show (fun p => (outCells s p).map (·.1)) = fun p => [pixelAddress s.setup.w p.1 p.2] from
      funext fun p => by simp [outCells, h]]
    rw [← pixels_addresses]
    induction s.setup.pixels with
    | nil => rfl
    | cons p l ih => rw [List.flatMap_cons, ih]; rfl
  · next h =>
    rw [← range_triples, ← pixels_addresses, List.flatMap_map]
    refine congrArg (fun f => s.setup.pixels.flatMap f) (funext fun p => ?_)
    simp [outCells, h]

/-- After CC.RUN every byte of a pixel's group holds its value. -/
theorem out_read (s : State) {y x : Nat} (hy : y < s.setup.ht) (hx : x < s.setup.w) {cell : Host.Cell}
    (h : cell ∈ outCells s (y, x)) :
    (s.mem.out.writeAll (s.setup.pixels.flatMap (outCells s))).read cell.1 = some cell.2 := by
  refine read_writeAll_mem _ ?_ (List.mem_flatMap.2 ⟨(y, x), mem_pixels.2 ⟨hy, hx⟩, h⟩)
  rw [outCells_addresses]
  split <;> exact List.nodup_range

/-- The neutral chroma leaves the luma (R184). -/
theorem clamp_byte (y : Byte) : clamp 0 255 (y.toNat : Int) = y.toNat := by
  have := y.isLt
  unfold clamp
  rw [if_neg (by omega), if_neg (by omega)]

end Sys2Proof.Laws
end

