-- ==== Sys2Proof/Laws/Huffman.lean ====
section
/-! SUPPORT. Huffman tables: what a built table holds (R112), and that it decodes every assigned code to its symbol and
rejects every sequence of bits that begins with no code (R115, R116). -/

namespace Sys2Proof.Laws

open Sys2Proof.Machine Sys2Proof.Spec

/-- The rows `build` makes follow R112 from any start, and its check holds at every length. -/
theorem buildRows_spec {counts : List Nat} {l code k : Nat} {rows : List (Nat × Nat)}
    (h : buildRows counts l code k = some rows) :
    rows.length = counts.length ∧ (counts ≠ [] → rows.getD 0 (0, 0) = (code, k)) ∧
    (∀ i < counts.length, (rows.getD i (0, 0)).1 + counts.getD i 0 ≤ 2 ^ (l + i)) ∧
    ∀ i, i + 1 < counts.length → rows.getD (i + 1) (0, 0) =
      (2 * ((rows.getD i (0, 0)).1 + counts.getD i 0), (rows.getD i (0, 0)).2 + counts.getD i 0) := by
  induction counts generalizing l code k rows with
  | nil => simp [buildRows] at h; subst h; simp
  | cons n counts ih =>
    simp only [buildRows] at h
    split at h
    · simp at h
    · next hle =>
      obtain ⟨rest, hr, rfl⟩ := Option.map_eq_some_iff.1 h
      obtain ⟨hlen, h0, hle', hs⟩ := ih hr
      refine ⟨by simp [hlen], fun _ => by simp, fun i hi => ?_, fun i hi => ?_⟩
      · cases i with
        | zero => simp; omega
        | succ i =>
          have := hle' i (by simpa using hi)
          simp only [List.getD_cons_succ]
          rw [show l + (i + 1) = l + 1 + i by omega]
          exact this
      · cases i with
        | zero =>
          have hne : counts ≠ [] := by rintro rfl; simp at hi
          simpa using h0 hne
        | succ i => simpa using hs i (by simpa using hi)

/-- Where the check of R113 holds for the rows R112 asks for, `build` makes them. -/
theorem buildRows_total {counts : List Nat} {l code k : Nat} (first : Nat → Nat) (h0 : first 0 = code)
    (hs : ∀ i, i + 1 < counts.length → first (i + 1) = 2 * (first i + counts.getD i 0))
    (hle : ∀ i < counts.length, first i + counts.getD i 0 ≤ 2 ^ (l + i)) :
    ∃ rows, buildRows counts l code k = some rows := by
  induction counts generalizing l code k first with
  | nil => exact ⟨_, rfl⟩
  | cons n counts ih =>
    have hn := hle 0 (by simp)
    simp only [List.getD_cons_zero, Nat.add_zero, h0] at hn
    have hr : ∃ rows, buildRows counts (l + 1) (2 * (code + n)) (k + n) = some rows := by
      cases counts with
      | nil => exact ⟨_, rfl⟩
      | cons m counts =>
        refine ih (fun i => first (i + 1)) (by simpa [h0] using hs 0 (by simp))
          (fun i hi => by simpa using hs (i + 1) (by simpa using hi)) fun i hi => ?_
        have := hle (i + 1) (by simpa using hi)
        rw [show l + 1 + i = l + (i + 1) by omega]
        simpa using this
    obtain ⟨rows, hr⟩ := hr
    exact ⟨_, by simp only [buildRows, if_neg (show ¬ 2 ^ l < code + n by omega), hr]; rfl⟩

@[simp] theorem countList_length (counts : Vector Byte 16) : (countList counts).length = 16 := by simp [countList]

theorem countList_getD (counts : Vector Byte 16) {i : Nat} (h : i < 16) :
    (countList counts).getD i 0 = (counts[i]).toNat := by
  simp [countList, List.getD_eq_getElem?_getD, h]

/-- A built table as R112 describes it. -/
structure CanonicalRows (t : HuffTable) : Prop where
  firstZero : t.first[0] = 0
  firstSucc : ∀ i, (h : i + 1 < 16) → t.first[i + 1] = 2 * (t.first[i] + (t.counts[i]).toNat)
  offsetZero : t.offset[0] = 0
  offsetSucc : ∀ i, (h : i + 1 < 16) → t.offset[i + 1] = t.offset[i] + (t.counts[i]).toNat
  room : ∀ i, (h : i < 16) → t.first[i] + (t.counts[i]).toNat ≤ 2 ^ (i + 1)

theorem buildTable_canonical {counts : Vector Byte 16} {sym : List Byte} {t : HuffTable}
    (h : buildTable counts sym = some t) :
    t.counts = counts ∧ t.sym = sym ∧ t.nsym = symbolCount counts ∧ CanonicalRows t := by
  obtain ⟨rows, hr, rfl⟩ := Option.map_eq_some_iff.1 h
  obtain ⟨_, h0, hle, hs⟩ := buildRows_spec hr
  have h0 := h0 (by intro h; simpa [h] using countList_length counts)
  simp only [countList_length] at hle hs
  refine ⟨rfl, rfl, rfl, ?_, ?_, ?_, ?_, ?_⟩
  · rw [Vector.getElem_ofFn]; simp only; rw [h0]
  · intro i hi
    simp only [Vector.getElem_ofFn]
    rw [hs i hi, countList_getD counts (show i < 16 by omega)]
  · rw [Vector.getElem_ofFn]; simp only; rw [h0]
  · intro i hi
    simp only [Vector.getElem_ofFn]
    rw [hs i hi, countList_getD counts (show i < 16 by omega)]
  · intro i hi
    have := hle i hi
    rw [countList_getD counts hi, Nat.add_comm 1 i] at this
    simpa using this

theorem Built.canonical {t : HuffTable} (h : t.Built) : CanonicalRows t := (buildTable_canonical h.1).2.2.2

/-- The codes of a longer length all lie behind those of a shorter one: no code is a prefix of another. -/
theorem CanonicalRows.behind {t : HuffTable} (h : CanonicalRows t) {i j : Nat} (hij : i < j) (hj : j < 16) :
    2 ^ (j - i) * (t.first[i] + (t.counts[i]).toNat) ≤ t.first[j] := by
  induction j with
  | zero => omega
  | succ j ih =>
    rw [h.firstSucc j hj]
    rcases Nat.lt_succ_iff_lt_or_eq.1 hij with hlt | rfl
    · have := ih hlt (by omega)
      rw [show j + 1 - i = (j - i) + 1 by omega, pow_succ]
      nlinarith
    · simp

/-- A code is a number of its length. -/
theorem CanonicalRows.code_lt {t : HuffTable} (h : CanonicalRows t) {c : Code} (hc : c.Assigned t) :
    t.first[c.l] + c.j < 2 ^ (c.l.val + 1) := by
  have := h.room c.l.val c.l.isLt
  simp only [Code.Assigned, Fin.getElem_fin] at hc ⊢
  omega

/-- In a built table no code is a prefix of another (R111, R115). -/
theorem code_prefix {t : HuffTable} (ht : t.Built) {c c' : Code} (hc : c.Assigned t) (hc' : c'.Assigned t)
    (h : c.bits t <+: c'.bits t) : c = c' := by
  have hcan := Built.canonical ht
  obtain ⟨rest, hr⟩ := h
  have hlen : c'.l.val = c.l.val + rest.length := by
    have := congrArg List.length hr
    simp only [Code.bits, List.length_append, numberBits_length] at this
    omega
  have hval := congrArg bitsValue hr
  have happ : ∀ x y : List Bool, bitsValue (x ++ y) = bitsValue x * 2 ^ y.length + bitsValue y := by
    intro x y
    unfold bitsValue
    rw [List.foldl_append]
    exact bitsValue_foldl y _
  rw [happ] at hval
  simp only [Code.bits, bitsValue_numberBits] at hval
  rw [Nat.mod_eq_of_lt (hcan.code_lt hc), Nat.mod_eq_of_lt (hcan.code_lt hc')] at hval
  have hbr := bitsValue_lt rest
  obtain ⟨⟨l, hl⟩, j⟩ := c
  obtain ⟨⟨l', hl'⟩, j'⟩ := c'
  simp only [Code.Assigned, Fin.getElem_fin] at *
  subst hlen
  rcases Nat.eq_zero_or_pos rest.length with h0 | h0
  · rw [List.length_eq_zero_iff] at h0
    subst h0
    simp at hval ⊢
    omega
  · have hbeh := hcan.behind (i := l) (j := l + rest.length) (by omega) hl'
    rw [Nat.add_sub_cancel_left] at hbeh
    have : (t.first[l] + j + 1) * 2 ^ rest.length ≤ (t.first[l] + (t.counts[l]).toNat) * 2 ^ rest.length :=
      Nat.mul_le_mul_right _ (by omega)
    rw [Nat.mul_comm] at hbeh
    nlinarith

theorem testBit_toNat (v n : Nat) : 2 * (v / 2 ^ (n + 1)) + (v.testBit n).toNat = v / 2 ^ n := by
  rw [Nat.testBit_eq_decide_div_mod_eq, pow_succ, ← Nat.div_div_eq_div_mul]
  rcases Nat.mod_two_eq_zero_or_one (v / 2 ^ n) with h | h <;> simp [h] <;> omega

/-- The loop of R116, having read the first bits of a code, finds the code's symbol and takes exactly its bits. -/
theorem decodeSymbolFrom_code {b : Input} (hb : b.len < 2 ^ 32) {t : HuffTable} (ht : CanonicalRows t) {c : Code}
    (hc : c.Assigned t) {fuel : Nat} (hf : 16 - fuel ≤ c.l.val) (hf' : fuel ≤ 16) (hf0 : fuel ≠ 0) {r : Stream}
    {rest : List Bool}
    (hs : streamBits b r = numberBits (c.l.val + 1 - (16 - fuel)) (t.first[c.l] + c.j) ++ rest) :
    ∃ r', decodeSymbolFrom b t fuel ((t.first[c.l] + c.j) / 2 ^ (c.l.val + 1 - (16 - fuel))) r
        = .ok (c.symbol t) r' ∧
      Delivers b r (numberBits (c.l.val + 1 - (16 - fuel)) (t.first[c.l] + c.j)) rest r' := by
  obtain ⟨l, j⟩ := c
  simp only at *
  generalize hv : t.first[l] + j = v at *
  induction fuel generalizing r with
  | zero => exact absurd rfl hf0
  | succ fuel ih =>
    obtain ⟨d, hd⟩ : ∃ d, l.val + 1 - (16 - (fuel + 1)) = d + 1 := ⟨l.val - (16 - (fuel + 1)), by omega⟩
    rw [hd, numberBits_succ] at hs ⊢
    obtain ⟨r1, h1, hd1⟩ := needBit_cons hb (rest := numberBits d v ++ rest) hs
    have hl15 : (15 - fuel) % 16 = 15 - fuel := Nat.mod_eq_of_lt (by omega)
    simp only [decodeSymbolFrom, h1, bind_ok, testBit_toNat, Fin.ofNat_eq_cast, Fin.getElem_fin, Fin.val_natCast, hl15]
    have hlt := l.isLt
    rcases Nat.lt_or_ge (15 - fuel) l.val with hlt' | hge
    · -- a shorter length: the candidate lies behind every code of that length
      have hdd : d = l.val - (15 - fuel) := by omega
      have hbeh := ht.behind hlt' l.isLt
      have hpow : 0 < 2 ^ d := by positivity
      have hle : t.first[15 - fuel] + (t.counts[15 - fuel]).toNat ≤ v / 2 ^ d := by
        rw [Nat.le_div_iff_mul_le hpow, Nat.mul_comm, hdd]
        simp only [Fin.getElem_fin] at hv
        omega
      rw [if_neg (by omega)]
      have hd2 : l.val + 1 - (16 - fuel) = d := by omega
      have ih := ih (r := r1) (by omega) (by omega) (by omega) hv (by rw [hd2]; exact hd1.after)
      rw [hd2] at ih
      obtain ⟨r2, h2, hd3⟩ := ih
      exact ⟨r2, h2, by simpa using hd1.trans hd3⟩
    · -- the code's own length
      have hle : 15 - fuel = l.val := by omega
      have hd0 : d = 0 := by omega
      subst hd0
      simp only [hle, pow_zero, Nat.div_one]
      simp only [Code.Assigned, Fin.getElem_fin] at hc hv
      rw [if_pos (by omega)]
      refine ⟨r1, ?_, by simpa using hd1⟩
      simp only [Code.symbol, Fin.getElem_fin]
      congr 2
      omega

/-- A built table decodes every assigned code to its symbol (R115). -/
theorem decodeSymbol_code {b : Input} (hb : b.len < 2 ^ 32) {t : HuffTable} (ht : t.Built) {c : Code}
    (hc : c.Assigned t) {r : Stream} {rest : List Bool} (hs : streamBits b r = c.bits t ++ rest) :
    ∃ r', decodeSymbol b (some t) r = .ok (c.symbol t) r' ∧ Delivers b r (c.bits t) rest r' := by
  have hcan := Built.canonical ht
  have := decodeSymbolFrom_code hb hcan hc (fuel := 16) (by simp) le_rfl (by simp) (r := r) (rest := rest)
    (by simpa [Code.bits] using hs)
  have h0 : (t.first[c.l] + c.j) / 2 ^ (c.l.val + 1 - (16 - 16)) = 0 := Nat.div_eq_of_lt (hcan.code_lt hc)
  rw [h0] at this
  exact this

/-- Sixteen bits that begin with no assigned code are rejected after the 16th (R116). -/
theorem decodeSymbolFrom_reject {b : Input} (hb : b.len < 2 ^ 32) {t : HuffTable} {fuel code : Nat} (hf : fuel ≤ 16)
    {r : Stream} {taken rest : List Bool} (hl : taken.length = fuel) (hs : streamBits b r = taken ++ rest)
    (hno : ∀ n, (h : n < fuel) → ∀ i : Fin 16, i.val = 16 - fuel + n →
      ¬ (t.first[i] ≤ code * 2 ^ (n + 1) + bitsValue (taken.take (n + 1)) ∧
        code * 2 ^ (n + 1) + bitsValue (taken.take (n + 1)) < t.first[i] + (t.counts[i]).toNat)) :
    ∃ r', decodeSymbolFrom b t fuel code r = .raised .invalidHuffmanCode r' ∧ Delivers b r taken rest r' := by
  induction fuel generalizing r taken code with
  | zero =>
    rw [List.length_eq_zero_iff] at hl
    subst hl
    exact ⟨r, rfl, ⟨hs, hs, rfl, rfl, rfl, rfl⟩⟩
  | succ fuel ih =>
    cases taken with
    | nil => simp at hl
    | cons x taken =>
      simp only [List.length_cons, Nat.add_right_cancel_iff] at hl
      obtain ⟨r1, h1, hd1⟩ := needBit_cons hb (rest := taken ++ rest) hs
      have hl15 : (15 - fuel) % 16 = 15 - fuel := Nat.mod_eq_of_lt (by omega)
      have h0 := hno 0 (by omega) (Fin.ofNat 16 (15 - fuel)) (by simp [hl15])
      simp only [Nat.zero_add, pow_one, List.take_succ_cons, List.take_zero, bitsValue_cons, List.length_nil, pow_zero,
        Nat.mul_one, bitsValue_nil, Nat.add_zero] at h0
      simp only [decodeSymbolFrom, h1, bind_ok]
      rw [if_neg (by intro h; apply h0; constructor <;> omega)]
      obtain ⟨r2, h2, hd2⟩ := ih (code := 2 * code + x.toNat) (by omega) hl hd1.after (by
        intro n hn i hi
        have := hno (n + 1) (by omega) i (by omega)
        have hlen : (taken.take (n + 1)).length = n + 1 := by rw [List.length_take]; omega
        rw [List.take_succ_cons, bitsValue_cons, hlen] at this
        have he : code * 2 ^ (n + 1 + 1) + (x.toNat * 2 ^ (n + 1) + bitsValue (taken.take (n + 1)))
            = (2 * code + x.toNat) * 2 ^ (n + 1) + bitsValue (taken.take (n + 1)) := by
          rw [pow_succ 2 (n + 1)]; ring
        rwa [he] at this)
      exact ⟨r2, h2, hd1.trans hd2⟩

/-- A candidate that is an assigned code of its length is the bits of that code. -/
theorem candidate_code {t : HuffTable} {l : List Bool} {i : Fin 16} (hl : l.length = i.val + 1)
    (h : t.first[i] ≤ bitsValue l ∧ bitsValue l < t.first[i] + (t.counts[i]).toNat) :
    Code.Assigned ⟨i, bitsValue l - t.first[i]⟩ t ∧ Code.bits ⟨i, bitsValue l - t.first[i]⟩ t = l := by
  refine ⟨?_, ?_⟩
  · change bitsValue l - t.first[i] < (t.counts[i]).toNat
    omega
  · change numberBits (i.val + 1) (t.first[i] + (bitsValue l - t.first[i])) = l
    rw [Nat.add_sub_of_le h.1, ← hl, numberBits_bitsValue]

/-- Sixteen bits that begin with no assigned code end in `InvalidHuffmanCode` (R115, R116). -/
theorem decodeSymbol_reject {b : Input} (hb : b.len < 2 ^ 32) {t : HuffTable} {r : Stream} {taken rest : List Bool}
    (hl : taken.length = 16) (hs : streamBits b r = taken ++ rest)
    (hno : ∀ c : Code, c.Assigned t → ¬ c.bits t <+: taken) :
    ∃ r', decodeSymbol b (some t) r = .raised .invalidHuffmanCode r' ∧ Delivers b r taken rest r' := by
  refine decodeSymbolFrom_reject hb (code := 0) le_rfl hl hs fun n hn i hi hin => ?_
  simp only [Nat.zero_mul, Nat.zero_add] at hin
  have hlen : (taken.take (n + 1)).length = i.val + 1 := by rw [List.length_take]; omega
  obtain ⟨ha, hbits⟩ := candidate_code hlen hin
  refine hno _ ha ?_
  rw [hbits]
  exact List.take_prefix _ _

/-- Fewer than sixteen bits that begin with no assigned code end in `UnexpectedEndOfStream` (R116). -/
theorem decodeSymbolFrom_short {b : Input} (hb : b.len < 2 ^ 32) {t : HuffTable} {fuel : Nat} (hf : fuel ≤ 16)
    {r : Stream} {before : List Bool} (hbe : before.length = 16 - fuel) (hs : (streamBits b r).length < fuel)
    (hno : ∀ c : Code, c.Assigned t → ¬ c.bits t <+: before ++ streamBits b r) :
    ∃ r', decodeSymbolFrom b t fuel (bitsValue before) r = .raised .unexpectedEndOfStream r' ∧
      streamBits b r' = [] := by
  induction fuel generalizing r before with
  | zero => omega
  | succ fuel ih =>
    cases hsb : streamBits b r with
    | nil =>
      obtain ⟨r', h1, h2⟩ := needBit_end hsb
      exact ⟨r', by simp [decodeSymbolFrom, h1], h2⟩
    | cons x rest =>
      obtain ⟨r1, h1, hd⟩ := needBit_cons hb hsb
      have hl15 : (15 - fuel) % 16 = 15 - fuel := Nat.mod_eq_of_lt (by omega)
      have hv : 2 * bitsValue before + x.toNat = bitsValue (before ++ [x]) := (bitsValue_snoc before x).symm
      rw [hsb] at hs hno
      have hnot : ¬ (t.first[Fin.ofNat 16 (15 - fuel)] ≤ bitsValue (before ++ [x]) ∧
          bitsValue (before ++ [x]) - t.first[Fin.ofNat 16 (15 - fuel)] <
            (t.counts[Fin.ofNat 16 (15 - fuel)]).toNat) := by
        intro hin
        obtain ⟨ha, hbits⟩ := candidate_code (t := t) (l := before ++ [x]) (i := Fin.ofNat 16 (15 - fuel))
          (by simp [hl15]; omega) ⟨hin.1, by omega⟩
        refine hno _ ha ?_
        rw [hbits]
        exact ⟨rest, by simp⟩
      obtain ⟨r2, h2, h3⟩ := ih (r := r1) (before := before ++ [x]) (by omega) (by simp; omega)
        (by rw [hd.after]; simp at hs; omega) (by rw [hd.after]; simpa using hno)
      refine ⟨r2, ?_, h3⟩
      simp only [decodeSymbolFrom, h1, bind_ok, hv]
      rw [if_neg hnot]
      exact h2

theorem decodeSymbolFrom_moved {b : Input} (hb : b.len < 2 ^ 32) (t : HuffTable) (fuel code : Nat) (r : Stream) :
    Leaves (Moved b r) (decodeSymbolFrom b t fuel code r) := by
  induction fuel generalizing code r with
  | zero => exact .refl b r
  | succ fuel ih =>
    refine (needBit_moved hb r).bind fun bit r' h => ?_
    simp only
    split
    · exact h
    · exact (ih _ _).mono fun s hs => h.trans hs

theorem decodeSymbol_moved {b : Input} (hb : b.len < 2 ^ 32) (slot : Option HuffTable) (r : Stream) :
    Leaves (Moved b r) (decodeSymbol b slot r) := by
  cases slot with
  | none => exact .refl b r
  | some t => exact decodeSymbolFrom_moved hb t 16 0 r

/-- What HT.LOAD reads from `IN` is a built table. -/
theorem readDefinition_built {b : Input} {a : Nat} {t : HuffTable} (h : readDefinition b a = some t) : t.Built := by
  unfold readDefinition at h
  split at h
  · simp at h
  · split at h
    · simp at h
    · next hn =>
      split at h
      · simp at h
      · obtain ⟨hc, hsy, hns, _⟩ := buildTable_canonical h
        refine ⟨by rw [hc, hsy]; exact h, ?_, ?_⟩
        · rw [hsy, hns]; simp [symbolsAt]
        · rw [hns]; omega

@[simp] theorem huff_setHuff_same (t : Tables) (cl : Fin 2) (id : Fin 16) (slot : HuffTable) :
    (t.setHuff cl id slot).huff cl id = some slot := by
  simp [Tables.huff, Tables.setHuff]

theorem huff_setHuff_other (t : Tables) {cl cl' : Fin 2} {id id' : Fin 16} (slot : HuffTable)
    (h : cl' ≠ cl ∨ id' ≠ id) : (t.setHuff cl id slot).huff cl' id' = t.huff cl' id' := by
  simp only [Tables.huff, Tables.setHuff, Fin.getElem_fin]
  by_cases hcl : cl.val = cl'.val
  · have hid : id.val ≠ id'.val := fun he => h.elim (fun h => h (Fin.ext hcl.symm)) (fun h => h (Fin.ext he.symm))
    have : cl = cl' := Fin.ext hcl
    subst this
    simp [hid]
  · simp [hcl]

end Sys2Proof.Laws
end

