-- ==== Sys2Proof/Laws/Entropy.lean ====
section
/-! SUPPORT. The entropy decoder against coded data: a coded value, block and MCU at the front of the stream is decoded
to what it stands for (R131, R133, R135, R137, R143), and what each function can change. -/

namespace Sys2Proof.Laws

open Sys2Proof.Machine Sys2Proof.Spec

/-! ### Sign extension (R130) -/

/-- `extend` of `s ≤ 11` bits is between −2047 and 2047 (R281). -/
theorem extend_bounds {v s : Nat} (hv : v < 2 ^ s) (hs : s ≤ 11) : -2047 ≤ extend v s ∧ extend v s ≤ 2047 := by
  have h : 2 ^ s ≤ 2 ^ 11 := Nat.pow_le_pow_right (by omega) hs
  have hc : ((2 : Int) ^ s) = ((2 ^ s : Nat) : Int) := by push_cast; rfl
  unfold extend
  split
  · omega
  · split <;> rw [hc] at * <;> omega

/-- `receive_extend` takes `s` bits off the stream and extends them (R131). -/
theorem receiveExtend_bits {b : Input} (hb : b.len < 2 ^ 32) {n v : Nat} (hv : v < 2 ^ n) {r : Stream}
    {rest : List Bool} (hs : streamBits b r = numberBits n v ++ rest) :
    ∃ r', receiveExtend b n r = .ok (extend v n) r' ∧ Delivers b r (numberBits n v) rest r' := by
  obtain ⟨r', h1, h2⟩ := needBits_append hb hs
  rw [numberBits_length, bitsValue_numberBits, Nat.mod_eq_of_lt hv] at h1
  exact ⟨r', by simp [receiveExtend, h1], h2⟩

theorem receiveExtend_moved {b : Input} (hb : b.len < 2 ^ 32) (n : Nat) (r : Stream) :
    Leaves (Moved b r) (receiveExtend b n r) := (needBits_moved hb n r).map

/-! ### The loop of `decode_ac` -/

/-- Fuel beyond the end of the block adds nothing: the loop ends by itself. -/
theorem decodeAcFrom_fuel (slot : Option HuffTable) {m n k : Nat} (hm : 64 ≤ k + m) (hn : 64 ≤ k + n) (s : State) :
    decodeAcFrom slot m k s = decodeAcFrom slot n k s := by
  induction m generalizing n k s with
  | zero =>
    cases n with
    | zero => rfl
    | succ n => simp [decodeAcFrom, show 63 < k by omega]
  | succ m ih =>
    cases n with
    | zero => simp [decodeAcFrom, show 63 < k by omega]
    | succ n =>
      simp only [decodeAcFrom]
      split
      · rfl
      · congr 1
        funext sym s1
        cases h : acStep sym k with
        | stop => rfl
        | fault kind => rfl
        | skip next =>
          have : k + 16 = next := by
            unfold acStep at h; simp only at h; split at h
            · split at h
              · simp at h
              · split at h
                · split at h <;> simp at h; exact h
                · simp at h
            · split at h
              · simp at h
              · split at h <;> simp at h
          exact ih (by omega) (by omega) s1
        | coefficient at' size =>
          have : k ≤ at'.val := by
            unfold acStep at h; simp only at h; split at h
            · split at h
              · simp at h
              · split at h
                · split at h <;> simp at h
                · simp at h
            · split at h
              · simp at h
              · split at h
                · simp only [AcStep.coefficient.injEq] at h; rw [← h.1]; simp
                · simp at h
          simp only
          congr 1
          funext v s2
          exact ih (by omega) (by omega) _

/-- What `RESULT` holds does not matter to decoding, and decoding does not write it. -/
theorem decodeAcFrom_setResult (slot : Option HuffTable) (fuel k : Nat) (v : Word) (s : State) :
    decodeAcFrom slot fuel k (setResult v s) =
      match decodeAcFrom slot fuel k s with
      | .ok k' t => .ok k' (setResult v t)
      | .raised kind t => .raised kind (setResult v t) := by
  induction fuel generalizing k s with
  | zero => rfl
  | succ fuel ih =>
    simp only [decodeAcFrom]
    split
    · rfl
    · rw [show (setResult v s).inBuf = s.inBuf from rfl, setResult_stream]
      cases decodeSymbol s.inBuf slot s.stream with
      | raised kind r => rfl
      | ok sym r =>
        simp only [onStream_ok, bind_ok]
        cases acStep sym k with
        | stop => rfl
        | fault kind => rfl
        | skip next => exact ih next { s with stream := r }
        | coefficient at' size =>
          simp only
          rw [show State.inBuf { setResult v s with stream := r } = State.inBuf { s with stream := r } from rfl]
          cases receiveExtend (State.inBuf { s with stream := r }) size r with
          | raised kind r' => rfl
          | ok x r' => exact ih (at'.val + 1) (storeCoef at' x { s with stream := r' })

/-! ### Coded data at the front of the stream -/

/-- `RRRR` and `SSSS` are the high and the low half of the symbol. -/
theorem acFields (sym : Byte) : (sym.extractLsb' 4 4).toNat = runField sym ∧ (sym.extractLsb' 0 4).toNat = sizeField sym := by
  have := sym.isLt
  constructor
  · simp only [BitVec.extractLsb'_toNat, runField, Nat.shiftRight_eq_div_pow]; omega
  · simp only [BitVec.extractLsb'_toNat, sizeField, Nat.shiftRight_eq_div_pow]; omega

theorem acStep_stop (k : Nat) : acStep (0#8) k = .stop := by simp [acStep]

theorem tokensBits_cons (ta : HuffTable) (t : AcToken) (l : List AcToken) :
    tokensBits ta (t :: l) = t.code.bits ta ++ (numberBits (sizeField (t.code.symbol ta)) t.extra ++ tokensBits ta l) := by
  simp [tokensBits, AcToken.bits]

/-- The next position never goes back, stays within the block, and position 0 is never written. -/
theorem expandAc_bounds {ta : HuffTable} {toks : List AcToken} {k k' : Nat} {f g : Block (BitVec 16)} (hk : 1 ≤ k)
    (hk64 : k ≤ 64) (h : expandAc ta toks k f = some (k', g)) : k ≤ k' ∧ k' ≤ 64 ∧ g[0] = f[0] := by
  induction toks generalizing k f with
  | nil =>
    simp only [expandAc, Option.some.injEq, Prod.mk.injEq] at h
    obtain ⟨rfl, rfl⟩ := h
    exact ⟨le_rfl, hk64, rfl⟩
  | cons tok toks ih =>
    simp only [expandAc] at h
    split at h
    · split at h
      · split at h
        · obtain ⟨h1, h2, h3⟩ := ih (by omega) (by omega) h
          exact ⟨by omega, h2, h3⟩
        · simp at h
      · split at h
        · next hb =>
          obtain ⟨h1, h2, h3⟩ := ih (by omega) (by omega) h
          refine ⟨by omega, h2, h3.trans ?_⟩
          rw [Vector.getElem_set_ne _ _ (by omega)]
        · simp at h
    · simp at h

/-- The decoder reads a legal sequence of tokens and goes on behind it (R135). -/
theorem decodeAcFrom_tokens {ta : HuffTable} (ht : ta.Built) {toks : List AcToken} {k k' : Nat} {s : State}
    {g : Block (BitVec 16)} {rest : List Bool} (hk1 : 1 ≤ k) (hk : k ≤ 64)
    (he : expandAc ta toks k s.buf.coef = some (k', g))
    (hs : streamBits s.inBuf s.stream = tokensBits ta toks ++ rest) :
    ∃ r', decodeAcFrom (some ta) (64 - k) k s =
        decodeAcFrom (some ta) (64 - k') k' { s with stream := r', buf := { s.buf with coef := g } } ∧
      Delivers s.inBuf s.stream (tokensBits ta toks) rest r' := by
  have hb := inBuf_len_lt s
  induction toks generalizing k s with
  | nil =>
    simp only [expandAc, Option.some.injEq, Prod.mk.injEq] at he
    obtain ⟨rfl, rfl⟩ := he
    exact ⟨s.stream, rfl, ⟨hs, hs, rfl, rfl, rfl, rfl⟩⟩
  | cons tok toks ih =>
    have hkk := expandAc_bounds hk1 hk he
    simp only [expandAc] at he
    split at he
    · next ha =>
      have hk63 : k ≤ 63 := by
        split at he
        · split at he
          · omega
          · simp at he
        · split at he
          · next h => omega
          · simp at he
      obtain ⟨fuel, hfuel⟩ : ∃ f, 64 - k = f + 1 := ⟨63 - k, by omega⟩
      rw [hfuel]
      simp only [tokensBits_cons, List.append_assoc] at hs
      obtain ⟨r1, h1, hd1⟩ := decodeSymbol_code hb ht ha hs
      simp only [decodeAcFrom, show ¬ 63 < k by omega, if_false, h1, onStream_ok, bind_ok, acStep,
        (acFields _).1, (acFields _).2]
      split at he
      · next hs0 =>
        split at he
        · next hz =>
          obtain ⟨hr15, hk16, hx0⟩ := hz
          simp only [hs0, if_true, hr15, if_neg (show ¬ 64 < k + 16 by omega), show ¬ (15 = 0) by omega, if_false]
          have hd1' := hd1.after
          simp only [hs0, numberBits_zero, List.nil_append] at hd1'
          obtain ⟨r2, h2, hd2⟩ := ih (k := k + 16) (s := { s with stream := r1 }) (by omega) (by omega) he
            (by simpa [State.inBuf] using hd1') hb
          refine ⟨r2, ?_, ?_⟩
          · rw [decodeAcFrom_fuel (some ta) (m := fuel) (n := 64 - (k + 16)) (by omega) (by omega)]
            exact h2
          · have := Delivers.trans (by simpa [hs0] using hd1) (show Delivers s.inBuf r1 _ rest r2 from hd2)
            simpa [tokensBits_cons, hs0] using this
        · simp at he
      · next hs0 =>
        split at he
        · next h =>
          obtain ⟨hs11, hx, hkr⟩ := h
          simp only [hs0, if_false, if_neg (show ¬ 11 < sizeField (tok.code.symbol ta) by omega), dif_pos hkr]
          obtain ⟨r2, h2, hd2⟩ := receiveExtend_bits (show (State.inBuf { s with stream := r1 }).len < 2 ^ 32 from hb) hx
            (r := r1) hd1.after
          simp only [h2, onStream_ok, bind_ok]
          obtain ⟨r3, h3, hd3⟩ := ih (k := k + runField (tok.code.symbol ta) + 1)
            (s := storeCoef ⟨k + runField (tok.code.symbol ta), hkr⟩ (extend tok.extra (sizeField (tok.code.symbol ta)))
              { s with stream := r2 }) (by omega) (by omega)
            (by simpa using he) (by simpa [State.inBuf] using hd2.after) hb
          refine ⟨r3, ?_, ?_⟩
          · rw [decodeAcFrom_fuel (some ta) (m := fuel) (n := 64 - (k + runField (tok.code.symbol ta) + 1)) (by omega)
              (by omega)]
            exact h3
          · have hd3' : Delivers s.inBuf r2 (tokensBits ta toks) rest r3 := hd3
            have hd1' : Delivers s.inBuf s.stream (tok.code.bits ta)
                ((numberBits (sizeField (tok.code.symbol ta)) tok.extra ++ tokensBits ta toks) ++ rest) r1 := by
              simpa [List.append_assoc] using hd1
            have := hd1'.trans (Delivers.trans (show Delivers s.inBuf r1 _ (tokensBits ta toks ++ rest) r2 by
              simpa [State.inBuf] using hd2) hd3')
            simpa [tokensBits_cons, List.append_assoc] using this
        · simp at he
    · simp at he

/-- Then an EOB ends the block, unless it is full. -/
theorem decodeAcFrom_eob {ta : HuffTable} (ht : ta.Built) {eob : Option Code} {k : Nat} {s : State} {rest : List Bool}
    (hend : match eob with
      | some e => k ≤ 63 ∧ e.Assigned ta ∧ e.symbol ta = 0
      | none => k = 64)
    (hs : streamBits s.inBuf s.stream = eobBits ta eob ++ rest) :
    ∃ r', decodeAcFrom (some ta) (64 - k) k s = .ok k { s with stream := r' } ∧
      Delivers s.inBuf s.stream (eobBits ta eob) rest r' := by
  cases eob with
  | none =>
    subst hend
    exact ⟨s.stream, rfl, ⟨hs, hs, rfl, rfl, rfl, rfl⟩⟩
  | some e =>
    obtain ⟨h63, hea, he0⟩ := hend
    obtain ⟨fuel, hfuel⟩ : ∃ f, 64 - k = f + 1 := ⟨63 - k, by omega⟩
    obtain ⟨r', h1, h2⟩ := decodeSymbol_code (inBuf_len_lt s) ht hea (rest := rest) hs
    refine ⟨r', ?_, h2⟩
    rw [hfuel]
    simp [decodeAcFrom, show ¬ 63 < k by omega, h1, he0, acStep_stop]

/-- `decode_dc` of a coded DC value (R133). -/
theorem decodeDc_coded {c : Fin 4} {s : State} {td : HuffTable} {cb : CodedBlock} {d : Int} {rest : List Bool}
    (hh : s.tables.huff 0 (slotOfId s.setup.comp[c].td) = some td) (ht : td.Built) (hd : cb.difference td = some d)
    (hfit : Fits16 (s.walk.pred[c].toInt + d)) (hs : bitsOf s = cb.dcBits td ++ rest) :
    ∃ r', decodeDc c s =
        .ok (s.walk.pred[c].toInt + d) (storeDc c (s.walk.pred[c].toInt + d) { s with stream := r' }) ∧
      Delivers s.inBuf s.stream (cb.dcBits td) rest r' := by
  have hb := inBuf_len_lt s
  unfold CodedBlock.difference at hd
  split at hd
  · next h =>
    obtain ⟨ha, h11, hx⟩ := h
    simp only [Option.some.injEq] at hd
    subst hd
    simp only [bitsOf, CodedBlock.dcBits, List.append_assoc] at hs
    obtain ⟨r1, h1, hd1⟩ := decodeSymbol_code hb ht ha hs
    obtain ⟨r2, h2, hd2⟩ := receiveExtend_bits hb hx hd1.after
    refine ⟨r2, ?_, hd1.trans hd2⟩
    simp only [decodeDc, hh, h1, onStream_ok, bind_ok]
    rw [if_neg (by omega)]
    simp only [show State.inBuf { s with stream := r1 } = s.inBuf from rfl, h2, onStream_ok, bind_ok]
    obtain ⟨hlo, hhi⟩ := hfit
    rw [if_neg (by omega)]
  · simp at hd

/-- `decode_ac` of the AC part of a coded block (R135). -/
theorem decodeAc_coded {c : Fin 4} {s : State} {ta : HuffTable} {cb : CodedBlock} {k : Nat} {f : Block (BitVec 16)}
    {rest : List Bool} (hh : s.tables.huff 1 (slotOfId s.setup.comp[c].ta) = some ta) (ht : ta.Built)
    (hc : cb.coefficients ta s.buf.coef = some (k, f)) (hs : bitsOf s = cb.acBits ta ++ rest) :
    ∃ r', decodeAc c s = .ok k { s with stream := r', buf := { s.buf with coef := f } } ∧
      Delivers s.inBuf s.stream (cb.acBits ta) rest r' := by
  unfold CodedBlock.coefficients at hc
  have hx : ∃ k' g, expandAc ta cb.ac 1 (dcOnly s.buf.coef) = some (k', g) ∧
      (match cb.eob with
        | some e => k' ≤ 63 ∧ e.Assigned ta ∧ e.symbol ta = 0
        | none => k' = 64) ∧ k' = k ∧ g = f := by
    change (match expandAc ta cb.ac 1 (dcOnly s.buf.coef), cb.eob with
      | some (k, g), some e => if k ≤ 63 ∧ e.Assigned ta ∧ e.symbol ta = 0 then some (k, g) else none
      | some (k, g), none => if k = 64 then some (k, g) else none
      | none, _ => none) = some (k, f) at hc
    cases hE : expandAc ta cb.ac 1 (dcOnly s.buf.coef) with
    | none => simp [hE] at hc
    | some p =>
      obtain ⟨k', g⟩ := p
      cases heob : cb.eob with
      | none =>
        simp only [hE, heob] at hc
        split at hc
        · next h => simp at hc; exact ⟨k', g, rfl, h, hc.1, hc.2⟩
        · simp at hc
      | some e =>
        simp only [hE, heob] at hc
        split at hc
        · next h => simp at hc; exact ⟨k', g, rfl, h, hc.1, hc.2⟩
        · simp at hc
  obtain ⟨k', g, hE, hend, rfl, rfl⟩ := hx
  rw [bitsOf, CodedBlock.acBits, List.append_assoc] at hs
  obtain ⟨r1, h1, hd1⟩ := decodeAcFrom_tokens ht (k := 1) (s := clearAc s) (by omega) (by omega) hE hs
  obtain ⟨r2, h2, hd2⟩ := decodeAcFrom_eob ht (s := { clearAc s with
    stream := r1, buf := { s.buf with coef := g } }) hend (rest := rest) hd1.after
  refine ⟨r2, ?_, hd1.trans hd2⟩
  simp only [decodeAc, hh]
  rw [decodeAcFrom_fuel (some ta) (m := 64) (n := 64 - 1) (by omega) (by omega)]
  exact h1.trans h2

/-- `decode_block` of a coded block (R137): the DC value, then the AC part over a cleared buffer. -/
theorem decodeBlock_coded {c : Fin 4} {s : State} {td ta : HuffTable} {cb : CodedBlock} {d : Int} {k : Nat}
    {f : Block (BitVec 16)} {rest : List Bool}
    (hd : s.tables.huff 0 (slotOfId s.setup.comp[c].td) = some td)
    (ha : s.tables.huff 1 (slotOfId s.setup.comp[c].ta) = some ta) (htd : td.Built) (hta : ta.Built)
    (hdiff : cb.difference td = some d) (hfit : Fits16 (s.walk.pred[c].toInt + d))
    (hc : cb.coefficients ta ((Vector.replicate 64 0).set 0 (BitVec.ofInt 16 (s.walk.pred[c].toInt + d))) = some (k, f))
    (hs : bitsOf s = cb.bits td ta ++ rest) :
    ∃ r', decodeBlock c s = .ok k { s with
        stream := r', walk := { s.walk with pred := s.walk.pred.set c (BitVec.ofInt 16 (s.walk.pred[c].toInt + d)) }
        buf := { s.buf with coef := f } } ∧
      Delivers s.inBuf s.stream (cb.bits td ta) rest r' := by
  obtain ⟨r1, h1, hd1⟩ := decodeDc_coded (s := clearCoef s) hd htd hdiff hfit (rest := cb.acBits ta ++ rest)
    (by simpa [CodedBlock.bits, bitsOf, State.inBuf] using hs)
  obtain ⟨r2, h2, hd2⟩ := decodeAc_coded (c := c)
    (s := storeDc c (s.walk.pred[c].toInt + d) { clearCoef s with stream := r1 }) ha hta hc
    (by simpa [bitsOf, State.inBuf] using hd1.after)
  refine ⟨r2, ?_, hd1.trans hd2⟩
  rw [decodeBlock, show decodeDc c (clearCoef s) = _ from h1, bind_ok]
  exact h2

/-! ### What decoding can change -/

/-- The part of the state block decoding can change: the stream, the predictors, the buffers and the planes; and how the
stream may have moved. -/
structure Decoding (s t : State) : Prop where
  only : t = { s with
    stream := t.stream, walk := { s.walk with pred := t.walk.pred }, buf := t.buf
    mem := { s.mem with plane := t.mem.plane } }
  moved : Moved s.inBuf s.stream t.stream
  wf : (∀ c : Fin 4, s.mem.plane[c].wf) → ∀ c : Fin 4, t.mem.plane[c].wf

theorem Decoding.refl (s : State) : Decoding s s := ⟨rfl, .refl _ _, id⟩

theorem Decoding.inBuf {s t : State} (h : Decoding s t) : t.inBuf = s.inBuf := by rw [h.only]; rfl

theorem Decoding.trans {s t u : State} (h : Decoding s t) (h' : Decoding t u) : Decoding s u := by
  refine ⟨?_, h.moved.trans (h.inBuf ▸ h'.moved), fun hw => h'.wf (h.wf hw)⟩
  have := h'.only
  rw [h.only] at this
  exact this

theorem Decoding.stream {s : State} {r : Stream} (h : Moved s.inBuf s.stream r) : Decoding s { s with stream := r } :=
  ⟨rfl, h, id⟩

theorem Decoding.setup {s t : State} (h : Decoding s t) : t.setup = s.setup := by rw [h.only]
theorem Decoding.tables {s t : State} (h : Decoding s t) : t.tables = s.tables := by rw [h.only]
theorem Decoding.status {s t : State} (h : Decoding s t) : t.status = s.status := by rw [h.only]

/-- What decoding a block of component `c` can change: the stream, the component's predictor and `COEF`. -/
structure Coding (c : Fin 4) (s t : State) : Prop where
  only : t = { s with
    stream := t.stream, walk := { s.walk with pred := t.walk.pred }, buf := { s.buf with coef := t.buf.coef } }
  moved : Moved s.inBuf s.stream t.stream
  pred : ∀ c' : Fin 4, c' ≠ c → t.walk.pred[c'] = s.walk.pred[c']

theorem Coding.refl (c : Fin 4) (s : State) : Coding c s s := ⟨rfl, .refl _ _, fun _ _ => rfl⟩

theorem Coding.mem {c : Fin 4} {s t : State} (h : Coding c s t) : t.mem = s.mem := by rw [h.only]

theorem Coding.decoding {c : Fin 4} {s t : State} (h : Coding c s t) : Decoding s t := by
  refine ⟨?_, h.moved, fun hw => by rw [h.mem]; exact hw⟩
  have hb : t.buf = { s.buf with coef := t.buf.coef } := congrArg State.buf h.only
  have hm : ({ s.mem with plane := t.mem.plane } : Planes) = s.mem := by rw [h.mem]
  rw [hm]
  have := h.only
  rw [← hb] at this
  exact this

theorem Coding.inBuf {c : Fin 4} {s t : State} (h : Coding c s t) : t.inBuf = s.inBuf := h.decoding.inBuf

theorem Coding.trans {c : Fin 4} {s t u : State} (h : Coding c s t) (h' : Coding c t u) : Coding c s u := by
  refine ⟨?_, h.moved.trans (h.inBuf ▸ h'.moved), fun c' hc => (h'.pred c' hc).trans (h.pred c' hc)⟩
  have := h'.only
  rw [h.only] at this
  exact this

theorem Coding.then {α : Type} {c : Fin 4} {s t : State} {r : Res State α} (h : Coding c s t)
    (hr : Leaves (Coding c t) r) : Leaves (Coding c s) r := hr.mono fun _ => h.trans

theorem Coding.stream (c : Fin 4) {s : State} {r : Stream} (h : Moved s.inBuf s.stream r) :
    Coding c s { s with stream := r } := ⟨rfl, h, fun _ _ => rfl⟩

theorem decodeSymbol_coding (c : Fin 4) (s : State) (slot : Option HuffTable) :
    Leaves (Coding c s) ((decodeSymbol s.inBuf slot s.stream).onStream s) :=
  Leaves.onStream ((decodeSymbol_moved (inBuf_len_lt s) slot s.stream).mono fun _ => .stream c)

theorem receiveExtend_coding (c : Fin 4) (s : State) (n : Nat) :
    Leaves (Coding c s) ((receiveExtend s.inBuf n s.stream).onStream s) :=
  Leaves.onStream ((receiveExtend_moved (inBuf_len_lt s) n s.stream).mono fun _ => .stream c)

theorem storeDc_coding (c : Fin 4) (v : Int) (s : State) : Coding c s (storeDc c v s) := by
  refine ⟨rfl, .refl _ _, fun c' hc => ?_⟩
  simp only [storeDc_walk, Fin.getElem_fin]
  rw [Vector.getElem_set_ne _ _ fun he => hc (Fin.ext he.symm)]

theorem storeCoef_coding (c : Fin 4) (k : Fin 64) (v : Int) (s : State) : Coding c s (storeCoef k v s) :=
  ⟨rfl, .refl _ _, fun _ _ => rfl⟩

theorem clearAc_coding (c : Fin 4) (s : State) : Coding c s (clearAc s) := ⟨rfl, .refl _ _, fun _ _ => rfl⟩

theorem clearCoef_coding (c : Fin 4) (s : State) : Coding c s (clearCoef s) := ⟨rfl, .refl _ _, fun _ _ => rfl⟩

theorem decodeDc_coding (c : Fin 4) (s : State) : Leaves (Coding c s) (decodeDc c s) := by
  refine (decodeSymbol_coding c s _).bind fun sym s1 h1 => ?_
  split
  · exact h1
  · refine (h1.then (receiveExtend_coding c s1 _)).bind fun d s2 h2 => ?_
    simp only
    split
    · exact h2
    · exact h2.trans (storeDc_coding c _ s2)

/-- A property that no change of the stream breaks. -/
theorem leaves_onStream {α : Type} {P : State → Prop} {s : State} (r : Res Stream α)
    (h : ∀ q : Stream, P { s with stream := q }) : Leaves P (r.onStream s) := by
  cases r <;> exact h _

/-- `decode_dc` writes no coefficient but `COEF[0]`. -/
theorem decodeDc_coef (c : Fin 4) (s : State) :
    Leaves (fun t => ∀ k : Fin 64, k ≠ 0 → t.buf.coef[k] = s.buf.coef[k]) (decodeDc c s) := by
  refine Leaves.bind (leaves_onStream _ fun _ _ _ => rfl) fun sym s1 h1 => ?_
  split
  · exact h1
  · refine Leaves.bind (leaves_onStream _ fun _ => h1) fun d s2 h2 => ?_
    simp only
    split
    · exact h2
    · intro k hk
      rw [← h2 k hk]
      simp only [storeDc_buf, Fin.getElem_fin]
      exact Vector.getElem_set_ne _ _ fun he => hk (Fin.ext he.symm)

/-- `decode_ac` writes no predictor, and not `COEF[0]`. -/
theorem decodeAcFrom_keeps (slot : Option HuffTable) {fuel k : Nat} (hk : 1 ≤ k) (s : State) :
    Leaves (fun t => t.walk = s.walk ∧ t.buf.coef[0] = s.buf.coef[0]) (decodeAcFrom slot fuel k s) := by
  induction fuel generalizing k s with
  | zero => exact ⟨rfl, rfl⟩
  | succ fuel ih =>
    rw [decodeAcFrom]
    split
    · exact ⟨rfl, rfl⟩
    · refine Leaves.bind (leaves_onStream _ fun _ => ⟨rfl, rfl⟩) fun sym s1 h1 => ?_
      split
      · exact h1
      · next next hn =>
        have : 1 ≤ next := by
          unfold acStep at hn; simp only at hn; split at hn
          · split at hn
            · simp at hn
            · split at hn
              · split at hn <;> simp at hn; omega
              · simp at hn
          · split at hn
            · simp at hn
            · split at hn <;> simp at hn
        exact (ih this s1).mono fun t ht => ⟨ht.1.trans h1.1, ht.2.trans h1.2⟩
      · exact h1
      · next at' size hat =>
        have hpos : 1 ≤ at'.val := by
          unfold acStep at hat; simp only at hat; split at hat
          · split at hat
            · simp at hat
            · split at hat
              · split at hat <;> simp at hat
              · simp at hat
          · split at hat
            · simp at hat
            · split at hat
              · simp only [AcStep.coefficient.injEq] at hat; rw [← hat.1]; simp only; omega
              · simp at hat
        refine Leaves.bind (leaves_onStream _ fun _ => h1) fun v s2 h2 => ?_
        refine (ih (by omega) _).mono fun t ht => ⟨ht.1.trans h2.1, ht.2.trans ?_⟩
        rw [← h2.2, storeCoef_buf]
        exact Vector.getElem_set_ne at'.isLt (by omega) (by omega)

theorem decodeAc_keeps (c : Fin 4) (s : State) :
    Leaves (fun t => t.walk = s.walk ∧ t.buf.coef[0] = s.buf.coef[0]) (decodeAc c s) := by
  refine (decodeAcFrom_keeps _ le_rfl _).mono fun t ht => ⟨ht.1, ht.2.trans ?_⟩
  rw [clearAc_buf]
  exact Vector.getElem_set_self _

theorem decodeAcFrom_coding (c : Fin 4) (slot : Option HuffTable) (fuel k : Nat) (s : State) :
    Leaves (Coding c s) (decodeAcFrom slot fuel k s) := by
  induction fuel generalizing k s with
  | zero => exact .refl c s
  | succ fuel ih =>
    rw [decodeAcFrom]
    split
    · exact .refl c s
    · refine (decodeSymbol_coding c s slot).bind fun sym s1 h1 => ?_
      split
      · exact h1
      · exact h1.then (ih _ _)
      · exact h1
      · refine (h1.then (receiveExtend_coding c s1 _)).bind fun v s2 h2 => ?_
        exact (h2.trans (storeCoef_coding c _ v s2)).then (ih _ _)

theorem decodeAc_coding (c : Fin 4) (s : State) : Leaves (Coding c s) (decodeAc c s) :=
  (clearAc_coding c s).then (decodeAcFrom_coding c _ _ _ _)

theorem decodeBlock_coding (c : Fin 4) (s : State) : Leaves (Coding c s) (decodeBlock c s) :=
  ((clearCoef_coding c s).then (decodeDc_coding c _)).bind fun _ t h => h.then (decodeAc_coding c t)

theorem recon_decoding (c : Fin 4) (s : State) : Leaves (fun t => Decoding s t ∧ t.mem = s.mem) (recon c s) := by
  unfold recon
  split
  · exact ⟨.refl s, rfl⟩
  · exact ⟨⟨rfl, .refl _ _, id⟩, rfl⟩

theorem tilePut_decoding (c : Fin 4) (bx by' : Nat) (s : State) : Decoding s (tilePut c bx by' s) := by
  refine ⟨rfl, .refl _ _, fun h c' => ?_⟩
  simp only [tilePut, Fin.getElem_fin, Vector.getElem_set]
  split
  · exact writeAll_wf (h c) _
  · exact h c'

/-- A byte of a plane that is no sample of the tile stays. -/
theorem tilePut_read (c : Fin 4) (bx by' : Nat) (s : State) (c' : Fin 4) (a : Nat)
    (h : c' = c → ∀ row < 8, ∀ col < 8, a ≠ tileAddress (s.setup.planeW c) bx by' row col) :
    (tilePut c bx by' s).mem.plane[c'].read a = s.mem.plane[c'].read a := by
  simp only [tilePut_mem, Fin.getElem_fin, Vector.getElem_set]
  split
  · next he =>
    have : c = c' := Fin.ext he
    subst this
    refine read_writeAll_other _ _ fun cell hc => ?_
    simp only [tileCells, List.mem_map, List.mem_finRange, true_and] at hc
    obtain ⟨i, rfl⟩ := hc
    exact fun he => h rfl _ (rowOf i).isLt _ (colOf i).isLt he.symm
  · rfl

/-- The address is no sample of a block's tile. -/
def OutsideTile (u : Setup) (blk : Fin 4 × Nat × Nat) (c : Fin 4) (a : Nat) : Prop :=
  c = blk.1 → ∀ row < 8, ∀ col < 8, a ≠ tileAddress (u.planeW blk.1) blk.2.1 blk.2.2 row col

/-- What placing blocks can change: as `Decoding`, and in the planes their tiles only. -/
structure Placing (blks : List (Fin 4 × Nat × Nat)) (s t : State) : Prop where
  decoding : Decoding s t
  reads : ∀ (c : Fin 4) (a : Nat), (∀ blk ∈ blks, OutsideTile s.setup blk c a) →
    t.mem.plane[c].read a = s.mem.plane[c].read a

theorem Placing.of_mem {blks : List (Fin 4 × Nat × Nat)} {s t : State} (h : Decoding s t) (hm : t.mem = s.mem) :
    Placing blks s t := ⟨h, fun _ _ _ => by rw [hm]⟩

theorem placeBlock_placing (blk : Fin 4 × Nat × Nat) (s : State) : Leaves (Placing [blk] s) (placeBlock blk s) := by
  refine Leaves.bind' (Q := fun t => Decoding s t ∧ t.mem = s.mem)
    ((decodeBlock_coding _ s).mono fun t h => ⟨h.decoding, h.mem⟩) (fun t h => .of_mem h.1 h.2) fun _ t h => ?_
  refine Leaves.bind' (Q := fun t => Decoding s t ∧ t.mem = s.mem)
    ((recon_decoding _ t).mono fun u hu => ⟨h.1.trans hu.1, hu.2.trans h.2⟩) (fun t h => .of_mem h.1 h.2)
    fun _ u hu => ?_
  refine ⟨hu.1.trans (tilePut_decoding _ _ _ u), fun c a ha => ?_⟩
  rw [tilePut_read _ _ _ _ _ _ (by rw [hu.1.setup]; exact ha blk (List.mem_singleton_self _)), hu.2]

theorem placeBlocks_placing (blks : List (Fin 4 × Nat × Nat)) (s : State) :
    Leaves (Placing blks s) (placeBlocks blks s) := by
  induction blks generalizing s with
  | nil => exact .of_mem (.refl s) rfl
  | cons blk blks ih =>
    refine Leaves.bind' (placeBlock_placing blk s)
      (fun t h => ⟨h.decoding, fun c a ha => h.reads c a fun b hb => ha b (by simp at hb; simp [hb])⟩) fun _ t h => ?_
    refine (ih t).mono fun u hu => ⟨h.decoding.trans hu.decoding, fun c a ha => ?_⟩
    rw [hu.reads c a fun b hb => by rw [h.decoding.setup]; exact ha b (List.mem_cons_of_mem _ hb)]
    exact h.reads c a fun b hb => ha b (by simp at hb; simp [hb])

theorem placeBlock_decoding (blk : Fin 4 × Nat × Nat) (s : State) : Leaves (Decoding s) (placeBlock blk s) :=
  (placeBlock_placing blk s).mono fun _ h => h.decoding

theorem placeBlocks_decoding (blks : List (Fin 4 × Nat × Nat)) (s : State) :
    Leaves (Decoding s) (placeBlocks blks s) := (placeBlocks_placing blks s).mono fun _ h => h.decoding

/-! ### Coded blocks and MCUs -/

/-- Only the tables and the configuration matter to what coded blocks stand for. -/
theorem tablesOf_congr {s t : State} (hc : t.setup = s.setup) (ht : t.tables = s.tables) (c : Fin 4) :
    tablesOf t c = tablesOf s c := by
  simp only [tablesOf, hc, ht]

theorem addBlocks_congr {s t : State} (hc : t.setup = s.setup) (ht : t.tables = s.tables)
    (blks : List (Fin 4 × Nat × Nat)) (cbs : List CodedBlock) (p : Picture) :
    addBlocks t blks cbs p = addBlocks s blks cbs p := by
  induction blks generalizing cbs p with
  | nil => cases cbs <;> rfl
  | cons blk blks ih =>
    cases cbs with
    | nil => rfl
    | cons cb cbs => simp only [addBlocks, tablesOf_congr hc ht, hc, ih]

theorem blocksBits_congr {s t : State} (hc : t.setup = s.setup) (ht : t.tables = s.tables)
    (blks : List (Fin 4 × Nat × Nat)) (cbs : List CodedBlock) : blocksBits t blks cbs = blocksBits s blks cbs := by
  induction blks generalizing cbs with
  | nil => cases cbs <;> rfl
  | cons blk blks ih =>
    cases cbs with
    | nil => rfl
    | cons cb cbs => simp only [blocksBits, tablesOf_congr hc ht, ih]

/-- Every loaded Huffman slot holds a built table. -/
def AllBuilt (s : State) : Prop := ∀ (cl : Fin 2) (id : Fin 16) (t : HuffTable), s.tables.huff cl id = some t → t.Built

theorem tablesOf_some {s : State} {c : Fin 4} {k : CompTables} (h : tablesOf s c = some k) :
    s.tables.huff 0 (slotOfId s.setup.comp[c].td) = some k.td ∧
    s.tables.huff 1 (slotOfId s.setup.comp[c].ta) = some k.ta ∧
    s.tables.quant (slotOfId s.setup.comp[c].tq) = some k.q := by
  unfold tablesOf at h
  split at h
  · next h1 h2 h3 => cases h; exact ⟨h1, h2, h3⟩
  · simp at h

/-- One coded block is decoded, reconstructed and placed as `Spec.addBlock` says (R143). -/
theorem placeBlock_coded {blk : Fin 4 × Nat × Nat} {s : State} {k : CompTables} {cb : CodedBlock} {p : Picture}
    {rest : List Bool} (hB : AllBuilt s) (hk : tablesOf s blk.1 = some k)
    (hp : addBlock k (s.setup.planeW blk.1) blk cb (pictureOf s) = some p)
    (hs : bitsOf s = cb.bits k.td k.ta ++ rest) :
    ∃ t, placeBlock blk s = .ok () t ∧ pictureOf t = p ∧
      Delivers s.inBuf s.stream (cb.bits k.td k.ta) rest t.stream := by
  obtain ⟨h1, h2, h3⟩ := tablesOf_some hk
  unfold addBlock at hp
  split at hp
  · simp at hp
  · next d hd =>
    simp only at hp
    split at hp
    · simp at hp
    · next kk f hc =>
      split at hp
      · next hfit =>
        simp only [Option.some.injEq] at hp
        subst hp
        obtain ⟨r', hr, hdel⟩ := decodeBlock_coded h1 h2 (hB _ _ _ h1) (hB _ _ _ h2) hd hfit hc hs
        have hpl : placeBlock blk s = .ok () (tilePut blk.1 blk.2.1 blk.2.2 { s with
            stream := r'
            walk := { s.walk with pred := s.walk.pred.set blk.1 (BitVec.ofInt 16 (s.walk.pred[blk.1].toInt + d)) }
            buf := ({ s.buf with coef := f } : Buffers).reconstructed k.q }) := by
          simp only [placeBlock, hr, bind_ok, recon, h3]
        refine ⟨_, hpl, ?_, hdel⟩
        rw [pictureOf, tilePut_walk, tilePut_mem]
        simp only [reconstructed_tile]
        rfl
      · simp at hp

theorem placeBlocks_coded {blks : List (Fin 4 × Nat × Nat)} {cbs : List CodedBlock} {s : State} {p : Picture}
    {rest : List Bool} (hB : AllBuilt s) (hp : addBlocks s blks cbs (pictureOf s) = some p)
    (hs : bitsOf s = blocksBits s blks cbs ++ rest) :
    ∃ t, placeBlocks blks s = .ok () t ∧ pictureOf t = p ∧
      Delivers s.inBuf s.stream (blocksBits s blks cbs) rest t.stream := by
  induction blks generalizing cbs s with
  | nil =>
    cases cbs with
    | nil =>
      simp only [addBlocks, Option.some.injEq] at hp
      exact ⟨s, rfl, hp, ⟨hs, hs, rfl, rfl, rfl, rfl⟩⟩
    | cons cb cbs => simp [addBlocks] at hp
  | cons blk blks ih =>
    cases cbs with
    | nil => simp [addBlocks] at hp
    | cons cb cbs =>
      simp only [addBlocks] at hp
      split at hp
      · simp at hp
      · next k hk =>
        split at hp
        · simp at hp
        · next p1 hp1 =>
          simp only [blocksBits, hk, List.append_assoc] at hs
          obtain ⟨t, ht, hpt, hd⟩ := placeBlock_coded hB hk hp1 hs
          have hdec := placeBlock_decoding blk s
          rw [ht] at hdec
          simp only [leaves_ok] at hdec
          have hBt : AllBuilt t := by unfold AllBuilt; rw [hdec.tables]; exact hB
          obtain ⟨u, hu, hpu, hd'⟩ := ih (s := t) (cbs := cbs) hBt
            (by rw [addBlocks_congr hdec.setup hdec.tables, hpt]; exact hp)
            (by rw [blocksBits_congr hdec.setup hdec.tables, bitsOf, hdec.inBuf]; exact hd.after)
          refine ⟨u, by simp [placeBlocks, ht, hu], hpu, ?_⟩
          rw [hdec.inBuf, blocksBits_congr hdec.setup hdec.tables] at hd'
          simp only [blocksBits, hk]
          exact hd.trans hd'

end Sys2Proof.Laws
end

