-- ==== Sys2Proof/Laws/Scan.lean ====
section
/-! SUPPORT. Restarts, one MCU, a whole scan: what they do to coded data (R140, R143, R145, R146) and what they can
change. -/

namespace Sys2Proof.Laws

open Sys2Proof.Machine Sys2Proof.Spec

/-! ### Restart -/

theorem toNat_add_two {p : Word} {n : Nat} (hn : n < 2 ^ 32) (h : p.toNat + 1 < n) : (p + 2).toNat = p.toNat + 2 := by
  rw [BitVec.toNat_add]; simp; omega

/-- A restart that finds its marker (R140). -/
theorem restartSync_ok {s : State} (h : restartMarkerAt s.inBuf s.stream.pos.toNat s.walk.rstexp = true) :
    restartSync s = .ok s.walk.rstexp (consumeRestart { s with stream := alignStream s.stream }) := if_pos h

/-- A restart that does not (R140). -/
theorem restartSync_missing {s : State} (h : restartMarkerAt s.inBuf s.stream.pos.toNat s.walk.rstexp = false) :
    restartSync s = .raised .restartSyncError { s with stream := alignStream s.stream } :=
  if_neg (by
    change ¬ restartMarkerAt s.inBuf s.stream.pos.toNat s.walk.rstexp = true
    rw [h]
    exact Bool.false_ne_true)

theorem restartMarkerAt_inside {b : Input} {pos : Nat} {m : BitVec 3} (h : restartMarkerAt b pos m = true) :
    pos + 1 < b.len := by
  simp only [restartMarkerAt, Bool.and_eq_true, decide_eq_true_eq] at h
  exact h.1.1

/-! ### What an MCU can change -/

/-- What a run inside an MCU can change, from its start on: as `Decoding`, and a restart clears predictors and `MCUCNT`
and moves `RSTEXP` on. -/
structure Walking (s t : State) : Prop where
  only : t = { s with
    stream := t.stream, walk := { t.walk with mcuidx := s.walk.mcuidx }, buf := t.buf
    mem := { s.mem with plane := t.mem.plane } }
  moved : Moved s.inBuf s.stream t.stream
  wf : (∀ c : Fin 4, s.mem.plane[c].wf) → ∀ c : Fin 4, t.mem.plane[c].wf
  mcucnt : t.walk.mcucnt = s.walk.mcucnt ∨ t.walk.mcucnt = 0

theorem Walking.refl (s : State) : Walking s s := ⟨rfl, .refl _ _, id, .inl rfl⟩

theorem Decoding.walking {s t : State} (h : Decoding s t) : Walking s t := by
  have hw : t.walk = { s.walk with pred := t.walk.pred } := by
    have := h.only
    exact congrArg State.walk this
  refine ⟨?_, h.moved, h.wf, .inl (by rw [hw])⟩
  have h2 := h.only
  rw [← hw] at h2
  rw [show ({ t.walk with mcuidx := s.walk.mcuidx } : Walk) = t.walk by rw [hw]]
  exact h2

theorem Walking.inBuf {s t : State} (h : Walking s t) : t.inBuf = s.inBuf := by rw [h.only]; rfl
theorem Walking.setup {s t : State} (h : Walking s t) : t.setup = s.setup := by rw [h.only]
theorem Walking.tables {s t : State} (h : Walking s t) : t.tables = s.tables := by rw [h.only]
theorem Walking.status {s t : State} (h : Walking s t) : t.status = s.status := by rw [h.only]
theorem Walking.mcuidx {s t : State} (h : Walking s t) : t.walk.mcuidx = s.walk.mcuidx := by rw [h.only]

theorem Walking.trans {s t u : State} (h : Walking s t) (h' : Walking t u) : Walking s u := by
  refine ⟨?_, h.moved.trans (h.inBuf ▸ h'.moved), fun hw => h'.wf (h.wf hw), ?_⟩
  · have := h'.only
    rw [h.mcuidx] at this
    rw [h.only] at this
    exact this
  · rcases h'.mcucnt with h1 | h1
    · rw [h1]; exact h.mcucnt
    · exact .inr h1

theorem restartSync_walking (s : State) : Leaves (Walking s) (restartSync s) := by
  have hb := inBuf_len_lt s
  cases h : restartMarkerAt s.inBuf s.stream.pos.toNat s.walk.rstexp
  · rw [restartSync_missing h]
    exact ⟨rfl, ⟨rfl, le_rfl, id⟩, id, .inl rfl⟩
  · rw [restartSync_ok h]
    have hin := restartMarkerAt_inside h
    have hp := toNat_add_two hb hin
    refine ⟨rfl, ⟨rfl, ?_, fun _ => ?_⟩, id, .inr rfl⟩
    · change _ ≤ (s.stream.pos + 2).toNat; omega
    · change (s.stream.pos + 2).toNat ≤ _; omega

theorem restartIfDue_walking (s : State) : Leaves (Walking s) (restartIfDue s) := by
  unfold restartIfDue
  split
  · exact (restartSync_walking s).map
  · exact .refl s

/-- After the restart step the interval is not used up. -/
theorem restartIfDue_interval {s t : State} (h : restartIfDue s = .ok () t) (hri : s.setup.ri ≠ 0)
    (hle : s.walk.mcucnt.toNat ≤ s.setup.ri.toNat) : t.walk.mcucnt.toNat < s.setup.ri.toNat := by
  have hpos : 0 < s.setup.ri.toNat := by
    rcases Nat.eq_zero_or_pos s.setup.ri.toNat with h0 | h0
    · exact absurd (BitVec.eq_of_toNat_eq h0) hri
    · exact h0
  unfold restartIfDue at h
  split at h
  · cases hm : restartMarkerAt s.inBuf s.stream.pos.toNat s.walk.rstexp
    · rw [restartSync_missing hm] at h; simp at h
    · rw [restartSync_ok hm] at h
      simp only [map_ok, Res.ok.injEq, true_and] at h
      subst h
      exact hpos
  · next hd =>
    simp only [Res.ok.injEq, true_and] at h
    subst h
    refine lt_of_le_of_ne hle fun he => hd ?_
    simp only [State.restartDue, Bool.and_eq_true, bne_iff_ne, ne_eq, hri, not_false_eq_true, beq_iff_eq, true_and]
    apply BitVec.eq_of_toNat_eq
    rw [BitVec.toNat_setWidth, Nat.mod_eq_of_lt (by have := s.setup.ri.isLt; omega)]
    exact he

/-- An MCU that ends: as `Walking`, then both counters go up by one and `RESULT` is the new `MCUIDX` (R143). -/
theorem mcuBody_ok {s u : State} (h : mcuBody s = .ok () u) :
    ∃ t t', restartIfDue s = .ok () t ∧ Walking s t ∧ Decoding t t' ∧
      placeBlocks (mcuBlocksAt t t.walk.mcuidx.toNat) t = .ok () t' ∧ u = countMcu t' := by
  unfold mcuBody at h
  obtain ⟨_, t, h1, h2⟩ := bind_eq_ok.1 h
  obtain ⟨_, t', h3, h4⟩ := bind_eq_ok.1 h2
  have hw := restartIfDue_walking s
  rw [h1] at hw
  have hd := placeBlocks_decoding (t.setup.mcuBlocks (t.walk.mcuidx.toNat % t.setup.mcuX)
    (t.walk.mcuidx.toNat / t.setup.mcuX)) t
  rw [h3] at hd
  simp only [Res.ok.injEq, true_and] at h4
  exact ⟨t, t', h1, hw, hd, h3, h4.symm⟩

/-- An MCU that faults leaves what it did so far (R228). -/
theorem mcuBody_raised {s u : State} {k : FaultKind} (h : mcuBody s = .raised k u) : Walking s u := by
  unfold mcuBody at h
  have hw := restartIfDue_walking s
  cases h1 : restartIfDue s with
  | raised k' t =>
    rw [h1] at h hw
    simp only [bind_raised, Res.raised.injEq] at h
    exact h.2 ▸ hw
  | ok _ t =>
    rw [h1] at h hw
    simp only [bind_ok] at h
    have hd := placeBlocks_decoding (t.setup.mcuBlocks (t.walk.mcuidx.toNat % t.setup.mcuX)
      (t.walk.mcuidx.toNat / t.setup.mcuX)) t
    cases h2 : placeBlocks (t.setup.mcuBlocks (t.walk.mcuidx.toNat % t.setup.mcuX)
      (t.walk.mcuidx.toNat / t.setup.mcuX)) t with
    | ok _ t' => rw [h2] at h; simp at h
    | raised k' t' =>
      rw [h2] at h hd
      simp only [bind_raised, Res.raised.injEq] at h
      exact h.2 ▸ Walking.trans hw hd.walking

/-- A coded MCU with no restart before it (R143). -/
theorem mcuBody_coded {s : State} {m : List CodedBlock} {p : Picture} {rest : List Bool} (hB : AllBuilt s)
    (hr : s.restartDue = false)
    (hp : addBlocks s (mcuBlocksAt s s.walk.mcuidx.toNat) m (pictureOf s) = some p)
    (hs : bitsOf s = blocksBits s (mcuBlocksAt s s.walk.mcuidx.toNat) m ++ rest) :
    ∃ t, mcuBody s = .ok () (countMcu t) ∧ Decoding s t ∧ pictureOf t = p ∧
      Delivers s.inBuf s.stream (blocksBits s (mcuBlocksAt s s.walk.mcuidx.toNat) m) rest t.stream := by
  obtain ⟨t, ht, hpt, hd⟩ := placeBlocks_coded hB hp hs
  have hdec := placeBlocks_decoding (mcuBlocksAt s s.walk.mcuidx.toNat) s
  rw [ht] at hdec
  refine ⟨t, ?_, hdec, hpt, hd⟩
  have h1 : restartIfDue s = .ok () s := by simp [restartIfDue, hr]
  rw [mcuBody, h1, bind_ok]
  rw [show placeBlocks (s.setup.mcuBlocks (s.walk.mcuidx.toNat % s.setup.mcuX)
    (s.walk.mcuidx.toNat / s.setup.mcuX)) s = .ok () t from ht]
  rfl

/-- What a run over the MCUs numbered in `ns` writes in the planes: their blocks' tiles only. -/
def McuReads (ns : Nat → Prop) (s t : State) : Prop :=
  ∀ (c : Fin 4) (a : Nat), (∀ n, ns n → ∀ blk ∈ mcuBlocksAt s n, OutsideTile s.setup blk c a) →
    t.mem.plane[c].read a = s.mem.plane[c].read a

theorem restartIfDue_mem (s : State) : Leaves (fun t => t.mem = s.mem) (restartIfDue s) := by
  unfold restartIfDue
  split
  · cases h : restartMarkerAt s.inBuf s.stream.pos.toNat s.walk.rstexp
    · rw [restartSync_missing h]; rfl
    · rw [restartSync_ok h]; rfl
  · rfl

/-- One MCU writes the tiles of its own blocks only (R143, R172). -/
theorem mcuBody_reads (s : State) : Leaves (McuReads (· = s.walk.mcuidx.toNat) s) (mcuBody s) := by
  refine Leaves.bind' (Q := fun t => Walking s t ∧ t.mem = s.mem) ?_ (fun t h c a _ => by rw [h.2]) fun _ t h => ?_
  · have h1 := restartIfDue_walking s
    have h2 := restartIfDue_mem s
    cases hr : restartIfDue s <;> rw [hr] at h1 h2 <;> exact ⟨h1, h2⟩
  · have hblk : t.setup.mcuBlocks (t.walk.mcuidx.toNat % t.setup.mcuX) (t.walk.mcuidx.toNat / t.setup.mcuX) =
        mcuBlocksAt s s.walk.mcuidx.toNat := by rw [h.1.setup, h.1.mcuidx]; rfl
    rw [hblk]
    have key : ∀ u, Placing (mcuBlocksAt s s.walk.mcuidx.toNat) t u → McuReads (· = s.walk.mcuidx.toNat) s u := by
      intro u hu c a ha
      rw [hu.reads c a fun blk hb => by rw [h.1.setup]; exact ha _ rfl blk hb, h.2]
    refine Leaves.bind' (placeBlocks_placing _ t) key fun _ u hu => ?_
    exact key u hu

theorem mcuBlocksAt_congr {s t : State} (h : t.setup = s.setup) (n : Nat) : mcuBlocksAt t n = mcuBlocksAt s n := by
  simp only [mcuBlocksAt, h]

/-- `n` MCUs write the tiles of their blocks only. -/
theorem mcus_reads (s : State) (n : Nat) (hn : s.walk.mcuidx.toNat + n < 2 ^ 32) :
    Leaves (McuReads (fun i => s.walk.mcuidx.toNat ≤ i ∧ i < s.walk.mcuidx.toNat + n) s) (mcus n s) := by
  induction n generalizing s with
  | zero => exact fun _ _ _ => rfl
  | succ n ih =>
    have hm := mcuBody_reads s
    rw [mcus]
    cases hb : mcuBody s with
    | raised k u =>
      rw [hb] at hm
      exact fun c a ha => hm c a fun i hi => ha i (by subst hi; omega)
    | ok _ u =>
      rw [hb] at hm
      obtain ⟨t, t', _, hw, hd, _, rfl⟩ := mcuBody_ok hb
      have hwt := hw.trans hd.walking
      have e1 : (countMcu t').walk.mcuidx.toNat = s.walk.mcuidx.toNat + 1 := by
        simp only [countMcu_walk, hwt.mcuidx, BitVec.toNat_add]; simp; omega
      refine (ih (countMcu t') (by omega)).mono fun v hv c a ha => ?_
      rw [hv c a fun i hi blk hblk => ?_]
      · exact hm c a fun i hi => ha i (by subst hi; omega)
      · have hset : (countMcu t').setup = s.setup := hwt.setup
        rw [mcuBlocksAt_congr hset] at hblk
        rw [hset]
        simp only [e1] at hi
        exact ha i (by simp only; omega) blk hblk

theorem addMcus_congr {s t : State} (hc : t.setup = s.setup) (ht : t.tables = s.tables)
    (ms : List (List CodedBlock)) (i : Nat) (p : Picture) : addMcus t ms i p = addMcus s ms i p := by
  induction ms generalizing i p with
  | nil => rfl
  | cons m ms ih => simp only [addMcus, addBlocks_congr hc ht, mcuBlocksAt, hc, ih]

theorem mcusBits_congr {s t : State} (hc : t.setup = s.setup) (ht : t.tables = s.tables)
    (ms : List (List CodedBlock)) (i : Nat) : mcusBits t ms i = mcusBits s ms i := by
  induction ms generalizing i with
  | nil => rfl
  | cons m ms ih => simp only [mcusBits, blocksBits_congr hc ht, mcuBlocksAt, hc, ih]

/-- Coded MCUs one after the other, without restarts: the counters go up by their number, the picture is theirs. -/
theorem mcus_coded {s : State} {ms : List (List CodedBlock)} {p : Picture} {rest : List Bool} (hB : AllBuilt s)
    (hri : s.setup.ri = 0) (hidx : s.walk.mcuidx.toNat + ms.length < 2 ^ 32)
    (hp : addMcus s ms s.walk.mcuidx.toNat (pictureOf s) = some p)
    (hs : bitsOf s = mcusBits s ms s.walk.mcuidx.toNat ++ rest) :
    ∃ t, mcus ms.length s = .ok () t ∧ pictureOf t = p ∧
      t.walk.mcuidx.toNat = s.walk.mcuidx.toNat + ms.length ∧
      t.walk.mcucnt = s.walk.mcucnt + BitVec.ofNat 32 ms.length ∧ t.walk.rstexp = s.walk.rstexp ∧
      (ms ≠ [] → t.result = t.walk.mcuidx) ∧
      t = { s with
        stream := t.stream, walk := t.walk, buf := t.buf, mem := { s.mem with plane := t.mem.plane }
        result := t.result } ∧
      Delivers s.inBuf s.stream (mcusBits s ms s.walk.mcuidx.toNat) rest t.stream := by
  induction ms generalizing s with
  | nil =>
    simp only [addMcus, Option.some.injEq] at hp
    exact ⟨s, rfl, hp, rfl, by simp, rfl, by simp, rfl, ⟨hs, hs, rfl, rfl, rfl, rfl⟩⟩
  | cons m ms ih =>
    simp only [addMcus] at hp
    split at hp
    · simp at hp
    · next p1 hp1 =>
      simp only [mcusBits, List.append_assoc] at hs
      have hr : s.restartDue = false := by simp [State.restartDue, hri]
      obtain ⟨t, ht, hdec, hpt, hd⟩ := mcuBody_coded hB hr hp1 hs
      have hc : (countMcu t).setup = s.setup := hdec.setup
      have htab : (countMcu t).tables = s.tables := hdec.tables
      have hw : t.walk.mcuidx = s.walk.mcuidx ∧ t.walk.mcucnt = s.walk.mcucnt ∧ t.walk.rstexp = s.walk.rstexp := by
        rw [hdec.only]; exact ⟨rfl, rfl, rfl⟩
      simp only [List.length_cons] at hidx
      have hi1 : (countMcu t).walk.mcuidx.toNat = s.walk.mcuidx.toNat + 1 := by
        simp only [countMcu_walk, hw.1, BitVec.toNat_add]
        simp
        omega
      have hin : (countMcu t).inBuf = s.inBuf := inBuf_congr (by rw [hc]) (by rw [hdec.only]; rfl) (by rw [hdec.only]; rfl)
      obtain ⟨u, hu, hpu, hidx', hcnt, hrst, hres, honly, hd'⟩ := ih (s := countMcu t)
        (by unfold AllBuilt; rw [htab]; exact hB) (by rw [hc]; exact hri) (by omega)
        (by rw [addMcus_congr hc htab, hi1, show pictureOf (countMcu t) = p1 from hpt]; exact hp)
        (by rw [mcusBits_congr hc htab, hi1, bitsOf, hin]; exact hd.after)
      refine ⟨u, by simp [mcus, ht, hu], hpu, ?_, ?_, ?_, ?_, ?_, ?_⟩
      · rw [hidx', hi1, List.length_cons]; omega
      · rw [hcnt, countMcu_walk, hw.2.1]
        apply BitVec.eq_of_toNat_eq
        simp [BitVec.toNat_add]
        omega
      · rw [hrst, countMcu_walk]; exact hw.2.2
      · intro _
        by_cases hms : ms = []
        · subst hms
          simp only [List.length_nil, mcus, Res.ok.injEq, true_and] at hu
          rw [← hu]
          rfl
        · exact hres hms
      · rw [honly]
        rw [hdec.only]
        rfl
      · rw [mcusBits_congr hc htab, hi1, hin] at hd'
        simp only [mcusBits]
        exact hd.trans hd'

end Sys2Proof.Laws
end

