-- ==== Sys2Proof/Laws/Invariant.lean ====
section
/-! SUPPORT. The pseudocode of every command keeps `State.Inv`, whether it ends or raises a fault. -/

namespace Sys2Proof.Laws

open Sys2Proof.Machine Sys2Proof.Spec

/-! ### The kinds a run raises -/

/-- If a run raises, the kind is one the block raises: not `NotAJpeg` (R211). -/
def BlockKind {σ α : Type} : Res σ α → Prop
  | .ok _ _ => True
  | .raised k _ => k ≠ .notAJpeg

variable {σ α β : Type}

theorem BlockKind.bind {r : Res σ α} {f : α → σ → Res σ β} (h : BlockKind r) (hf : ∀ a s, BlockKind (f a s)) :
    BlockKind (r.bind f) := by
  cases r with
  | ok a s => exact hf a s
  | raised k s => exact h

theorem BlockKind.map {r : Res σ α} {f : α → β} (h : BlockKind r) : BlockKind (r.map f) := by cases r <;> exact h

theorem BlockKind.onStream {s : State} {r : Res Stream α} (h : BlockKind r) : BlockKind (r.onStream s) := by
  cases r <;> exact h

theorem needed_kind (p : BitResult α × Stream) : BlockKind (needed p) := by
  obtain ⟨x, r⟩ := p
  cases x
  · exact True.intro
  · simp [needed, BlockKind]
  · simp [needed, BlockKind]

theorem decodeSymbol_kind (b : Input) (slot : Option HuffTable) (r : Stream) : BlockKind (decodeSymbol b slot r) := by
  cases slot with
  | none => simp [decodeSymbol, BlockKind]
  | some t =>
    change BlockKind (decodeSymbolFrom b t 16 0 r)
    generalize 16 = fuel
    generalize 0 = code
    induction fuel generalizing code r with
    | zero => simp [decodeSymbolFrom, BlockKind]
    | succ fuel ih =>
      refine (needed_kind _).bind fun bit r' => ?_
      simp only
      split
      · exact True.intro
      · exact ih _ _

theorem receiveExtend_kind (b : Input) (n : Nat) (r : Stream) : BlockKind (receiveExtend b n r) := (needed_kind _).map

theorem decodeDc_kind (c : Fin 4) (s : State) : BlockKind (decodeDc c s) := by
  refine (decodeSymbol_kind _ _ _).onStream.bind fun sym s1 => ?_
  split
  · simp [BlockKind]
  · refine (receiveExtend_kind _ _ _).onStream.bind fun d s2 => ?_
    simp only
    split
    · simp [BlockKind]
    · exact True.intro

theorem acStep_kind {sym : Byte} {k : Nat} {kind : FaultKind} (h : acStep sym k = .fault kind) : kind ≠ .notAJpeg := by
  unfold acStep at h
  simp only at h
  split at h
  · split at h
    · simp at h
    · split at h
      · split at h
        · simp only [AcStep.fault.injEq] at h; rw [← h]; simp
        · simp at h
      · simp only [AcStep.fault.injEq] at h; rw [← h]; simp
  · split at h
    · simp only [AcStep.fault.injEq] at h; rw [← h]; simp
    · split at h
      · simp at h
      · simp only [AcStep.fault.injEq] at h; rw [← h]; simp

theorem decodeAcFrom_kind (slot : Option HuffTable) (fuel k : Nat) (s : State) :
    BlockKind (decodeAcFrom slot fuel k s) := by
  induction fuel generalizing k s with
  | zero => exact True.intro
  | succ fuel ih =>
    rw [decodeAcFrom]
    split
    · exact True.intro
    · refine (decodeSymbol_kind _ _ _).onStream.bind fun sym s1 => ?_
      split
      · exact True.intro
      · exact ih _ _
      · next h => exact acStep_kind h
      · exact (receiveExtend_kind _ _ _).onStream.bind fun v s2 => ih _ _

theorem decodeBlock_kind (c : Fin 4) (s : State) : BlockKind (decodeBlock c s) :=
  (decodeDc_kind c _).bind fun _ _ => decodeAcFrom_kind _ _ _ _

theorem recon_kind (c : Fin 4) (s : State) : BlockKind (recon c s) := by
  unfold recon
  split
  · simp [BlockKind]
  · exact True.intro

theorem placeBlocks_kind (blks : List (Fin 4 × Nat × Nat)) (s : State) : BlockKind (placeBlocks blks s) := by
  induction blks generalizing s with
  | nil => exact True.intro
  | cons blk blks ih =>
    have hp : BlockKind (placeBlock blk s) := by
      refine (decodeBlock_kind _ _).bind fun _ t => BlockKind.bind (recon_kind _ t) fun _ _ => ?_
      exact True.intro
    exact hp.bind fun _ t => ih t

theorem restartSync_kind (s : State) : BlockKind (restartSync s) := by
  unfold restartSync
  simp only
  split
  · exact True.intro
  · simp [BlockKind]

theorem mcuBody_kind (s : State) : BlockKind (mcuBody s) := by
  refine BlockKind.bind ?_ fun _ t => (placeBlocks_kind _ t).bind fun _ t' => True.intro
  unfold restartIfDue
  split
  · exact (restartSync_kind s).map
  · exact True.intro

/-! ### Keeping the invariant -/

/-- A run keeps the invariant: the state it leaves has it, and a kind raised is one the block raises. -/
def Keeps (r : Res State α) : Prop := Leaves State.Inv r ∧ BlockKind r

theorem code_bounds {k : FaultKind} (h : k ≠ .notAJpeg) : 2 ≤ k.code.toNat ∧ k.code.toNat ≤ 11 := by
  cases k <;> first | exact absurd rfl h | decide

theorem raiseFault_inv {s : State} (h : s.Inv) {k : FaultKind} (hk : k ≠ .notAJpeg) : (raiseFault k s).Inv :=
  { h with
    errClear := fun hf => by simp at hf
    errSet := fun _ => code_bounds hk
    scanConfigured := fun hs => let c := h.scanConfigured hs; ⟨c.accepted, c.quants, c.huffs, c.fits, c.started⟩
    doneConfigured := fun hs => let c := h.doneConfigured hs; ⟨c.accepted, c.quants, c.huffs, c.fits, c.started⟩ }

theorem setResult_inv {s : State} (h : s.Inv) (v : Word) : (setResult v s).Inv :=
  { h with
    scanConfigured := fun hs => let c := h.scanConfigured hs; ⟨c.accepted, c.quants, c.huffs, c.fits, c.started⟩
    doneConfigured := fun hs => let c := h.doneConfigured hs; ⟨c.accepted, c.quants, c.huffs, c.fits, c.started⟩ }

theorem faultCommand_inv {s : State} (h : s.Inv) {k : FaultKind} (hk : k ≠ .notAJpeg) : (faultCommand k s).Inv :=
  let h' := raiseFault_inv h hk
  { h' with
    scanConfigured := fun hs => let c := h'.scanConfigured hs; ⟨c.accepted, c.quants, c.huffs, c.fits, c.started⟩
    doneConfigured := fun hs => let c := h'.doneConfigured hs; ⟨c.accepted, c.quants, c.huffs, c.fits, c.started⟩ }

/-- A command keeps the invariant if its pseudocode does where it runs. -/
theorem command_inv {ok : State → Bool} {body : State → Res State Unit} {s t : State} (h : s.Inv)
    (hb : s.status.fault = false → ok s = true → Keeps (body s)) (ht : command ok body s = .next t) : t.Inv := by
  rcases command_cases ht with ⟨_, rfl⟩ | ⟨_, _, rfl⟩ | ⟨hf, ho, hbt⟩ | ⟨hf, ho, k, u, hbt, rfl⟩
  · exact h
  · exact faultCommand_inv h (by simp)
  · have := (hb hf ho).1
    rwa [hbt] at this
  · have := hb hf ho
    rw [hbt] at this
    exact faultCommand_inv this.1 this.2

theorem rejectWord_inv {s : State} (h : s.Inv) : (rejectWord s).Inv := by
  unfold rejectWord
  split
  · exact h
  · exact faultCommand_inv h (by simp)

theorem quantMissing_congr {s t : State} (hc : t.setup = s.setup) (ht : t.tables = s.tables) :
    t.quantMissing = s.quantMissing := by simp only [State.quantMissing, hc, ht]

theorem huffMissing_congr {s t : State} (hc : t.setup = s.setup) (ht : t.tables = s.tables) :
    t.huffMissing = s.huffMissing := by simp only [State.huffMissing, hc, ht]

theorem Configured.congr {s t : State} (h : s.Configured) (hc : t.setup = s.setup) (ht : t.tables = s.tables)
    (hm : t.memCap = s.memCap) (hb : t.stream.brv = true) : t.Configured :=
  ⟨by rw [hc]; exact h.accepted, by rw [quantMissing_congr hc ht]; exact h.quants,
    by rw [huffMissing_congr hc ht]; exact h.huffs, by rw [hc, hm]; exact h.fits, hb⟩

/-- A run inside an MCU, or a decode in manual mode, with a cursor set. -/
theorem Walking.inv {s t : State} (hw : Walking s t) (h : s.Inv) (hb : s.stream.brv = true) : t.Inv := by
  have hbt : t.stream.brv = true := hw.moved.brv.trans hb
  have hst := hw.status
  have hse := hw.setup
  have hta := hw.tables
  have hid := hw.mcuidx
  have hme : t.memCap = s.memCap := by rw [hw.only]
  have herr : t.err = s.err ∧ t.errpos = s.errpos := by rw [hw.only]; exact ⟨rfl, rfl⟩
  have hin : t.input = s.input := by rw [hw.only]
  have hfu : t.mem.full = s.mem.full ∧ t.mem.out = s.mem.out := by
    have := congrArg State.mem hw.only
    exact ⟨by rw [this], by rw [this]⟩
  refine ⟨by rw [hin]; exact h.inputWf, hw.wf h.planeWf, fun c => by rw [hfu.1]; exact h.fullWf c,
    by rw [hfu.2]; exact h.outWf, by rw [hta]; exact h.tablesBuilt, by rw [hst, herr.1, herr.2]; exact h.errClear,
    by rw [hst, herr.1]; exact h.errSet, fun _ => hbt, fun hf => absurd (hbt.symm.trans hf) (by simp), ?_, by rw [hst]; exact h.scanNotDone, ?_, ?_, ?_, ?_, ?_,
    by rw [hst]; exact h.outvDone, by rw [hst, hse]; exact h.fullvDone⟩
  · rw [hst]; exact fun hs => Configured.congr (h.scanConfigured hs) hse hta hme hbt
  · rw [hst, hse]
    intro hs
    exact hw.moved.inside (h.scanCursor hs)
  · rw [hst, hid, hse]
    intro hs
    have := h.scanCounters hs
    rcases hw.mcucnt with hm | hm <;> rw [hm]
    · exact this
    · exact ⟨Nat.zero_le _, this.2⟩
  · rw [hst, hse]
    intro hs hri
    rcases hw.mcucnt with hm | hm <;> rw [hm]
    · exact h.scanInterval hs hri
    · exact Nat.zero_le _
  · rw [hst]; exact fun hs => Configured.congr (h.doneConfigured hs) hse hta hme hbt
  · rw [hst, hid, hse]; exact h.doneComplete

theorem Leaves.inv {s : State} {r : Res State α} (hw : Leaves (Decoding s) r) (h : s.Inv) (hb : s.stream.brv = true) :
    Leaves State.Inv r := hw.mono fun _ hd => hd.walking.inv h hb

theorem Keeps.result {r : Res State α} (h : Keeps r) (f : α → Word) :
    Keeps (r.bind fun v t => .ok () (setResult (f v) t)) := by
  cases r with
  | ok a t => exact ⟨setResult_inv h.1 _, True.intro⟩
  | raised k t => exact h

theorem manualStream_parts {s : State} (h : s.manualStream = true) : s.status.scan = false ∧ s.stream.brv = true := by
  simp only [State.manualStream, State.manual, Bool.and_eq_true, Bool.not_eq_true'] at h
  exact h

/-! ### The commands' pseudocode, unit by unit -/

theorem startStream_inv {s : State} (h : s.Inv) (hs : s.status.scan = false) : (startStream s).Inv :=
  { h with
    streamStarted := fun _ => rfl
    inputWatched := fun _ => rfl
    scanConfigured := fun h' => by simp [hs] at h'
    scanCursor := fun h' => by simp [hs] at h'
    scanCounters := fun h' => by simp [hs] at h'
    scanInterval := fun h' => by simp [hs] at h'
    doneConfigured := fun h' => Configured.congr (h.doneConfigured h') rfl rfl rfl rfl
    doneComplete := h.doneComplete }

theorem reportBits_keeps {s : State} (h : s.Inv) (hb : s.stream.brv = true) {p : BitResult Nat × Stream}
    (hm : Moved s.inBuf s.stream p.2) : Keeps (reportBits s p) := by
  obtain ⟨x, r⟩ := p
  have hi : State.Inv { s with stream := r } := (Decoding.stream hm).walking.inv h hb
  cases x
  · exact ⟨setResult_inv hi _, True.intro⟩
  · exact ⟨setResult_inv hi _, True.intro⟩
  · exact ⟨hi, by simp [reportBits, BlockKind]⟩

theorem align_decoding (s : State) : Decoding s { s with stream := alignStream s.stream } :=
  .stream ⟨rfl, le_rfl, id⟩

/-- Loading a slot leaves no table missing that was there. -/
theorem loadHuffman_keeps {s : State} (h : s.Inv) (hs : s.status.scan = false) (cl : Fin 2) (id : Fin 16) :
    Keeps (loadHuffman cl id s) := by
  unfold loadHuffman
  split
  · exact ⟨h, by simp [BlockKind]⟩
  · next t ht =>
    refine ⟨?_, True.intro⟩
    have hsome : ∀ cl' id', s.tables.huff cl' id' ≠ none → (s.tables.setHuff cl id t).huff cl' id' ≠ none := by
      intro cl' id' hne
      by_cases he : cl' = cl ∧ id' = id
      · rw [he.1, he.2, huff_setHuff_same]; simp
      · rwa [huff_setHuff_other _ _ (by tauto)]
    have hbt : ∀ (cl' : Fin 2) (id' : Fin 16) (u : HuffTable),
        (s.tables.setHuff cl id t).huff cl' id' = some u → u.Built := by
      intro cl' id' u hu
      by_cases he : cl' = cl ∧ id' = id
      · rw [he.1, he.2, huff_setHuff_same] at hu
        cases hu
        exact readDefinition_built ht
      · rw [huff_setHuff_other _ _ (by tauto)] at hu
        exact h.tablesBuilt _ _ _ hu
    exact
      { h with
        tablesBuilt := hbt
        scanConfigured := fun h' => absurd (h'.symm.trans hs) (by simp)
        doneConfigured := fun h' => by
          have hc := h.doneConfigured h'
          refine ⟨hc.accepted, hc.quants, ?_, hc.fits, hc.started⟩
          have hh := hc.huffs
          simp only [State.huffMissing, List.any_eq_false, Bool.or_eq_true, Option.isNone_iff_eq_none, not_or] at hh ⊢
          exact fun c hmem => ⟨hsome _ _ (hh c hmem).1, hsome _ _ (hh c hmem).2⟩ }

@[simp] theorem quant_setQuant_same (t : Tables) (id : Fin 16) (q : Block (BitVec 16)) :
    (t.setQuant id q).quant id = some q := by
  simp [Tables.quant, Tables.setQuant]

theorem quant_setQuant_other (t : Tables) {id id' : Fin 16} (q : Block (BitVec 16)) (h : id' ≠ id) :
    (t.setQuant id q).quant id' = t.quant id' := by
  have : id.val ≠ id'.val := fun he => h (Fin.ext he.symm)
  simp [Tables.quant, Tables.setQuant, this]

theorem loadQuant_keeps {s : State} (h : s.Inv) (hs : s.status.scan = false) (wide : Bool) (id : Fin 16) :
    Keeps (loadQuant wide id s) := by
  unfold loadQuant
  split
  · exact ⟨h, by simp [BlockKind]⟩
  · refine ⟨?_, True.intro⟩
    exact
      { h with
        scanConfigured := fun h' => absurd (h'.symm.trans hs) (by simp)
        doneConfigured := fun h' => by
          have hc := h.doneConfigured h'
          refine ⟨hc.accepted, ?_, hc.huffs, hc.fits, hc.started⟩
          have hq := hc.quants
          simp only [State.quantMissing, List.any_eq_false, Option.isNone_iff_eq_none] at hq ⊢
          intro c hmem
          change (s.tables.setQuant id _).quant (slotOfId s.setup.comp[c].tq) ≠ none
          by_cases he : slotOfId s.setup.comp[c].tq = id
          · rw [he, quant_setQuant_same]; simp
          · rw [quant_setQuant_other _ _ he]; exact hq c hmem }

/-- Only the buffers change. -/
theorem buffers_inv {s : State} (h : s.Inv) (f : Buffers) : State.Inv { s with buf := f } :=
  { h with
    scanConfigured := fun hs => let c := h.scanConfigured hs; ⟨c.accepted, c.quants, c.huffs, c.fits, c.started⟩
    doneConfigured := fun hs => let c := h.doneConfigured hs; ⟨c.accepted, c.quants, c.huffs, c.fits, c.started⟩ }

theorem multiplyBy_keeps {s : State} (h : s.Inv) (id : Fin 16) : Keeps (multiplyBy id s) := by
  unfold multiplyBy
  split
  · exact ⟨h, by simp [BlockKind]⟩
  · exact ⟨buffers_inv h _, True.intro⟩

theorem recon_keeps {s : State} (h : s.Inv) (c : Fin 4) : Keeps (recon c s) := by
  refine ⟨?_, recon_kind c s⟩
  unfold recon
  split
  · exact h
  · exact buffers_inv h _

theorem restartSync_keeps {s : State} (h : s.Inv) (hb : s.stream.brv = true) : Keeps (restartSync s) :=
  ⟨(restartSync_walking s).mono fun _ hw => hw.inv h hb, restartSync_kind s⟩

/-- One MCU in scan mode (R143). -/
theorem mcuBody_keeps {s : State} (h : s.Inv) (hs : s.status.scan = true)
    (hlt : s.walk.mcuidx.toNat < s.setup.nmcu) : Keeps (mcuBody s) := by
  have hb := (h.scanConfigured hs).started
  refine ⟨?_, mcuBody_kind s⟩
  cases hm : mcuBody s with
  | raised k u => exact (mcuBody_raised hm).inv h hb
  | ok _ u =>
    obtain ⟨t, t', h1, hw, hd, _, rfl⟩ := mcuBody_ok hm
    have hwt' : Walking s t' := hw.trans hd.walking
    have hi := hwt'.inv h hb
    have hn := nmcu_le s.setup
    have hid := hwt'.mcuidx
    have hse := hwt'.setup
    have hst : t'.status.scan = true := by rw [hwt'.status]; exact hs
    have hc := hi.scanCounters hst
    have e1 : (countMcu t').walk.mcuidx.toNat = s.walk.mcuidx.toNat + 1 := by
      simp only [countMcu_walk, hid, BitVec.toNat_add]; simp; omega
    have e2 : (countMcu t').walk.mcucnt.toNat = t'.walk.mcucnt.toNat + 1 := by
      rw [hid] at hc
      simp only [countMcu_walk, BitVec.toNat_add]; simp; omega
    rw [hid] at hc
    refine
      { hi with
        scanConfigured := fun h' => Configured.congr (hi.scanConfigured h') rfl rfl rfl (hi.scanConfigured h').started
        scanCounters := fun _ => ?_
        scanInterval := fun _ hri => ?_
        doneConfigured := fun h' => Configured.congr (hi.doneConfigured h') rfl rfl rfl (hi.doneConfigured h').started
        doneComplete := fun h' => ?_ }
    · rw [e1, e2, countMcu_setup, hse]; omega
    · rw [e2, countMcu_setup, hse]
      rw [countMcu_setup, hse] at hri
      have hint := restartIfDue_interval h1 hri (h.scanInterval hs hri)
      have : t'.walk.mcucnt = t.walk.mcucnt := by
        have := congrArg State.walk hd.only
        rw [this]
      rw [this]
      omega
    · have := hi.scanNotDone hst
      simp only [countMcu_status] at h'
      rw [this] at h'
      simp at h'

theorem scanEndBody_keeps {s : State} (h : s.Inv) (hs : s.status.scan = true)
    (heq : s.walk.mcuidx.toNat = s.setup.nmcu) : Keeps (scanEndBody s) := by
  have hb := (h.scanConfigured hs).started
  have hi := (align_decoding s).walking.inv h hb
  unfold scanEndBody
  simp only
  split
  · exact ⟨hi, by simp [BlockKind]⟩
  · split
    · exact ⟨hi, by simp [BlockKind]⟩
    · refine ⟨setResult_inv ?_ _, True.intro⟩
      have hnd := h.scanNotDone hs
      exact
        { hi with
          streamStarted := fun _ => hb
          inputWatched := fun hf => absurd (hb.symm.trans hf) (by simp)
          scanConfigured := fun h' => by simp at h'
          scanNotDone := fun h' => by simp at h'
          scanCursor := fun h' => by simp at h'
          scanCounters := fun h' => by simp at h'
          scanInterval := fun h' => by simp at h'
          doneConfigured := fun _ => Configured.congr (h.scanConfigured hs) rfl rfl rfl hb
          doneComplete := fun _ => heq
          outvDone := fun _ => rfl
          fullvDone := fun c hc => by
            have := (h.fullvDone c hc).1
            rw [hnd] at this
            simp at this }

/-- `n` MCUs in scan mode, as long as that many are left. -/
theorem mcus_keeps {s : State} (h : s.Inv) (hs : s.status.scan = true) {n : Nat}
    (hle : s.walk.mcuidx.toNat + n ≤ s.setup.nmcu) :
    Keeps (mcus n s) ∧ ∀ t, mcus n s = .ok () t →
      t.status.scan = true ∧ t.setup = s.setup ∧ t.walk.mcuidx.toNat = s.walk.mcuidx.toNat + n := by
  induction n generalizing s with
  | zero =>
    refine ⟨⟨h, True.intro⟩, fun t ht => ?_⟩
    simp only [mcus, Res.ok.injEq, true_and] at ht
    subst ht
    exact ⟨hs, rfl, rfl⟩
  | succ n ih =>
    have hk := mcuBody_keeps h hs (by omega)
    rw [mcus]
    cases hm : mcuBody s with
    | raised k u =>
      rw [hm] at hk
      exact ⟨hk, fun t ht => by simp at ht⟩
    | ok _ u =>
      rw [hm] at hk
      obtain ⟨t, t', _, hw, hd, _, rfl⟩ := mcuBody_ok hm
      have hwt := hw.trans hd.walking
      have hn := nmcu_le s.setup
      have e1 : (countMcu t').walk.mcuidx.toNat = s.walk.mcuidx.toNat + 1 := by
        simp only [countMcu_walk, hwt.mcuidx, BitVec.toNat_add]; simp; omega
      have e2 : (countMcu t').setup = s.setup := hwt.setup
      obtain ⟨h1, h2⟩ := ih hk.1 (by rw [countMcu_status, hwt.status]; exact hs) (by rw [e1, e2]; omega)
      refine ⟨h1, fun v hv => ?_⟩
      obtain ⟨h3, h4, h5⟩ := h2 v hv
      exact ⟨h3, h4.trans e2, by rw [h5, e1]; omega⟩

theorem scanBody_keeps {s : State} (h : s.Inv) (hs : s.status.scan = true) : Keeps (scanBody s) := by
  have hc := (h.scanCounters hs).2
  obtain ⟨h1, h2⟩ := mcus_keeps h hs (n := s.setup.nmcu - s.walk.mcuidx.toNat) (by omega)
  unfold scanBody
  cases hm : mcus (s.setup.nmcu - s.walk.mcuidx.toNat) s with
  | raised k u => rw [hm] at h1; exact h1
  | ok _ u =>
    rw [hm] at h1
    obtain ⟨h3, h4, h5⟩ := h2 u hm
    exact scanEndBody_keeps h1.1 h3 (by rw [h4, h5]; omega)

/-- No problem found by SCAN.START means that the scan is configured (R144). -/
theorem scanProblem_none {s : State} (h : s.scanProblem = none) :
    s.setup.accepted = true ∧ s.quantMissing = false ∧ s.huffMissing = false ∧ s.setup.fits s.memCap = true := by
  unfold State.scanProblem at h
  split at h
  · simp at h
  · next h1 =>
    split at h
    · simp at h
    · next h2 =>
      split at h
      · simp at h
      · next h3 =>
        split at h
        · simp at h
        · next h4 =>
          split at h
          · simp at h
          · next h5 =>
            split at h
            · simp at h
            · next h6 =>
              split at h
              · simp at h
              · next h7 =>
                split at h
                · simp at h
                · next h8 =>
                  simp only [ne_eq, not_not, Bool.not_eq_true', Bool.not_eq_false, not_or, Bool.not_eq_true] at *
                  refine ⟨?_, h6, h7, h8⟩
                  simp [Setup.accepted, h1, h2, h4, h5]
                  exact h3

theorem scanProblem_kind {s : State} {k : FaultKind} (h : s.scanProblem = some k) : k ≠ .notAJpeg := by
  rintro rfl
  unfold State.scanProblem at h
  repeat' split at h
  all_goals simp at h

theorem scanStartBody_keeps {s : State} (h : s.Inv) (hs : s.status.scan = false) (ha : s.argInBuffer = true) :
    Keeps (scanStartBody s) := by
  unfold scanStartBody
  split
  · next k hk => exact ⟨h, scanProblem_kind hk⟩
  · next hk =>
    obtain ⟨h1, h2, h3, h4⟩ := scanProblem_none hk
    refine ⟨?_, True.intro⟩
    simp only [State.argInBuffer, decide_eq_true_eq] at ha
    exact
      { startStream_inv h hs with
        streamStarted := fun _ => rfl
        inputWatched := fun _ => rfl
        scanConfigured := fun _ => ⟨h1, h2, h3, h4, rfl⟩
        scanNotDone := fun _ => rfl
        scanCursor := fun _ => ha
        scanCounters := fun _ => ⟨le_rfl, Nat.zero_le _⟩
        scanInterval := fun _ _ => Nat.zero_le _
        doneConfigured := fun h' => by simp [Status.clearDecode] at h'
        doneComplete := fun h' => by simp [Status.clearDecode] at h'
        outvDone := fun h' => by simp [Status.clearDecode] at h'
        fullvDone := fun c h' => by simp [Status.clearDecode] at h' }

theorem upsample_inv {s : State} (h : s.Inv) (hs : s.status.scan = false) (hd : s.status.done = true) {c : Fin 4}
    (hc : c.val < s.setup.numComps) : (upsample c s).Inv :=
  { h with
    fullWf := fun c' => by
      simp only [upsample_mem, Fin.getElem_fin, Vector.getElem_set]
      split
      · exact writeAll_wf (h.fullWf c) _
      · exact h.fullWf c'
    scanConfigured := fun h' => absurd (h'.symm.trans hs) (by simp)
    scanNotDone := fun h' => absurd (h'.symm.trans hs) (by simp)
    doneConfigured := fun h' => Configured.congr (h.doneConfigured h') rfl rfl rfl (h.doneConfigured h').started
    fullvDone := fun c' h' => by
      refine ⟨hd, ?_⟩
      simp only [upsample_status, Fin.getElem_fin, Vector.getElem_set] at h'
      split at h'
      · next he => rw [upsample_setup, ← he]; exact hc
      · exact (h.fullvDone c' h').2 }

theorem assembleOutput_keeps {s : State} (h : s.Inv) (hd : s.status.done = true) : Keeps (assembleOutput s) := by
  unfold assembleOutput
  split
  · exact ⟨h, by simp [BlockKind]⟩
  · refine ⟨?_, True.intro⟩
    exact
      { h with
        outWf := writeAll_wf h.outWf _
        scanConfigured := fun h' => Configured.congr (h.scanConfigured h') rfl rfl rfl (h.scanConfigured h').started
        doneConfigured := fun h' => Configured.congr (h.doneConfigured h') rfl rfl rfl (h.doneConfigured h').started
        outvDone := fun _ => hd }

theorem resetBlock_inv {s : State} (h : s.input.wf) : (resetBlock s).Inv where
  inputWf := h
  planeWf := fun c => by simp [Planes.reset]
  fullWf := fun c => by simp [Planes.reset]
  outWf := by simp [Planes.reset]
  tablesBuilt := fun cl id t ht => by simp [Tables.reset, Tables.huff] at ht
  errClear := fun _ => ⟨rfl, rfl⟩
  errSet := fun h' => by simp [Status.reset] at h'
  streamStarted := fun h' => by simp [Stream.reset] at h'
  inputWatched := fun _ => rfl
  scanConfigured := fun h' => by simp [Status.reset] at h'
  scanNotDone := fun h' => by simp [Status.reset] at h'
  scanCursor := fun h' => by simp [Status.reset] at h'
  scanCounters := fun h' => by simp [Status.reset] at h'
  scanInterval := fun h' => by simp [Status.reset] at h'
  doneConfigured := fun h' => by simp [Status.reset] at h'
  doneComplete := fun h' => by simp [Status.reset] at h'
  outvDone := fun h' => by simp [Status.reset] at h'
  fullvDone := fun c h' => by simp [Status.reset] at h'

/-! ### Host accesses -/

theorem writeSetup_inv {s : State} (h : s.Inv) (f : Setup → Setup) : (writeSetup f s).Inv := by
  unfold writeSetup
  split
  · exact raiseFault_inv h (by simp)
  · next hs =>
    exact
      { h with
        scanConfigured := fun h' => absurd h' hs
        scanNotDone := fun _ => rfl
        scanCursor := fun h' => absurd h' hs
        scanCounters := fun h' => absurd h' hs
        scanInterval := fun h' => absurd h' hs
        doneConfigured := fun h' => by simp [Status.clearDecode] at h'
        doneComplete := fun h' => by simp [Status.clearDecode] at h'
        outvDone := fun h' => by simp [Status.clearDecode] at h'
        fullvDone := fun c h' => by simp [Status.clearDecode] at h' }

theorem writeWindow_inv {s : State} (h : s.Inv) (f : Buffers → Buffers) : (writeWindow f s).Inv := by
  unfold writeWindow
  split
  · exact raiseFault_inv h (by simp)
  · exact buffers_inv h _

/-- Fields the invariant does not speak of may change. -/
theorem hostSide_inv {s : State} (h : s.Inv) (bus : List HostAccess) (arg rdata : Word) (draws : Nat) :
    State.Inv { s with bus := bus, arg := arg, rdata := rdata, draws := draws } :=
  { h with
    scanConfigured := fun h' => Configured.congr (h.scanConfigured h') rfl rfl rfl (h.scanConfigured h').started
    doneConfigured := fun h' => Configured.congr (h.doneConfigured h') rfl rfl rfl (h.doneConfigured h').started }

theorem writeReg_inv {s : State} (h : s.Inv) (r : Reg) (w : Word) : (writeReg r w s).Inv := by
  unfold writeReg
  split
  · exact h
  · split <;> first
      | exact writeSetup_inv h _
      | exact writeWindow_inv h _
      | exact hostSide_inv h s.bus w s.rdata s.draws
      | exact h

theorem readReg_inv {s : State} (h : s.Inv) (r : Reg) : (readReg r s).Inv := by
  unfold readReg
  split
  · exact hostSide_inv h s.bus s.arg _ _
  · exact hostSide_inv h s.bus s.arg _ s.draws

theorem hostStoreInput_inv {s : State} (h : s.Inv) (a : Word) (v : Byte) : (hostStoreInput a v s).Inv := by
  have hi : ∀ (watch : InputWatch) (draws : Nat), (s.stream.brv = false → watch = InputWatch.reset) →
      State.Inv { s with input := s.input.write a.toNat v, watch := watch, draws := draws } := fun _ _ hw =>
    { h with
      inputWf := write_wf h.inputWf _ _
      inputWatched := hw
      scanConfigured := fun h' => Configured.congr (h.scanConfigured h') rfl rfl rfl (h.scanConfigured h').started
      doneConfigured := fun h' => Configured.congr (h.doneConfigured h') rfl rfl rfl (h.doneConfigured h').started }
  unfold hostStoreInput
  simp only
  split
  · next hc =>
    simp only [Bool.and_eq_true] at hc
    exact hi _ _ fun hf => absurd (hc.1.symm.trans hf) (by simp)
  · exact hi s.watch s.draws h.inputWatched

theorem hostAccess_inv {s t : State} (h : s.Inv) {a : HostAccess} (ht : hostAccess a s = .next t) : t.Inv := by
  cases a with
  | write offset w =>
    simp only [hostAccess, hostWrite] at ht
    split at ht
    · simp at ht
    · split at ht <;> simp only [Host.Outcome.next.injEq] at ht <;> subst ht
      · exact h
      · exact writeReg_inv h _ _
  | read offset =>
    simp only [hostAccess, hostRead] at ht
    split at ht
    · simp at ht
    · split at ht <;> simp only [Host.Outcome.next.injEq] at ht <;> subst ht
      · exact h
      · exact readReg_inv h _
  | narrow offset =>
    simp only [hostAccess, hostNarrow] at ht
    split at ht
    · simp at ht
    · simp only [Host.Outcome.next.injEq] at ht; subst ht; exact h
  | storeInput a v =>
    simp only [hostAccess, Host.Outcome.next.injEq] at ht
    subst ht
    exact hostStoreInput_inv h a v
  | readMemory sp a =>
    simp only [hostAccess, hostReadMemory] at ht
    split at ht
    · simp only [Host.Outcome.next.injEq] at ht; subst ht; exact hostSide_inv h s.bus s.arg _ _
    · split at ht
      · simp at ht
      · simp only [Host.Outcome.next.injEq] at ht; subst ht; exact hostSide_inv h s.bus s.arg _ s.draws
  | hardReset =>
    simp only [hostAccess, Host.Outcome.next.injEq] at ht
    subst ht
    exact resetBlock_inv h.inputWf

end Sys2Proof.Laws
end

