-- ==== Sys2Proof/Laws/PerInstr.lean ====
section
/-! SUPPORT. Statements made for every command, one lemma per constructor. -/

namespace Sys2Proof.Laws

/-! ### The fields of `op·2^24 + a·2^16 + b·2^8` (R60, R76) -/

@[simp] theorem opField_commandWord (op a b : Byte) : opField (commandWord op a b) = op := by
  unfold opField commandWord
  apply BitVec.eq_of_getLsbD_eq
  intro i hi
  simp only [BitVec.getLsbD_extractLsb', BitVec.getLsbD_append]
  rw [if_neg (by omega), if_neg (by omega), if_neg (by omega), decide_eq_true hi, Bool.true_and]
  congr 1
  omega

@[simp] theorem aField_commandWord (op a b : Byte) : aField (commandWord op a b) = a := by
  unfold aField commandWord
  apply BitVec.eq_of_getLsbD_eq
  intro i hi
  simp only [BitVec.getLsbD_extractLsb', BitVec.getLsbD_append]
  rw [if_neg (by omega), if_neg (by omega), if_pos (by omega), decide_eq_true hi, Bool.true_and]
  congr 1
  omega

@[simp] theorem bField_commandWord (op a b : Byte) : bField (commandWord op a b) = b := by
  unfold bField commandWord
  apply BitVec.eq_of_getLsbD_eq
  intro i hi
  simp only [BitVec.getLsbD_extractLsb', BitVec.getLsbD_append]
  rw [if_neg (by omega), if_pos (by omega), decide_eq_true hi, Bool.true_and]
  congr 1
  omega

@[simp] theorem cField_commandWord (op a b : Byte) : cField (commandWord op a b) = 0 := by
  unfold cField commandWord
  apply BitVec.eq_of_getLsbD_eq
  intro i hi
  simp only [BitVec.getLsbD_extractLsb', BitVec.getLsbD_append]
  rw [if_pos (by omega)]
  simp

theorem decode_commandWord (op a b : Byte) : decode (commandWord op a b) = decodeOp op a b := by
  simp [decode]

/-- The decoder reads a well-formed command's word as that command and rejects the word of one with an operand out of
range (R61, R62). -/
def Encoding.Statement (i : Instr) : Prop :=
  decode (encode i) = if i.wellFormed then .ok i else .error .operandRange

theorem Encoding.nop : Encoding.Statement .nop := rfl

theorem Encoding.reset : Encoding.Statement .reset := rfl

theorem Encoding.brInit : Encoding.Statement .brInit := rfl

theorem Encoding.brBit : Encoding.Statement .brBit := rfl

theorem Encoding.brBits (x : Byte) : Encoding.Statement (.brBits x) := decode_commandWord _ _ _

theorem Encoding.brAlign : Encoding.Statement .brAlign := rfl

theorem Encoding.htLoad (x y : Byte) : Encoding.Statement (.htLoad x y) := decode_commandWord _ _ _

theorem Encoding.htDec (x y : Byte) : Encoding.Statement (.htDec x y) := decode_commandWord _ _ _

theorem Encoding.qtLoad (x y : Byte) : Encoding.Statement (.qtLoad x y) := decode_commandWord _ _ _

theorem Encoding.edRcvx (x : Byte) : Encoding.Statement (.edRcvx x) := decode_commandWord _ _ _

theorem Encoding.edDc (x : Byte) : Encoding.Statement (.edDc x) := decode_commandWord _ _ _

theorem Encoding.edAc (x : Byte) : Encoding.Statement (.edAc x) := decode_commandWord _ _ _

theorem Encoding.edBlock (x : Byte) : Encoding.Statement (.edBlock x) := decode_commandWord _ _ _

theorem Encoding.edRst : Encoding.Statement .edRst := rfl

theorem Encoding.edMcu : Encoding.Statement .edMcu := rfl

theorem Encoding.edScan : Encoding.Statement .edScan := rfl

theorem Encoding.scanStart : Encoding.Statement .scanStart := rfl

theorem Encoding.scanEnd : Encoding.Statement .scanEnd := rfl

theorem Encoding.dqMul (x : Byte) : Encoding.Statement (.dqMul x) := decode_commandWord _ _ _

theorem Encoding.zzScat : Encoding.Statement .zzScat := rfl

theorem Encoding.idct2d : Encoding.Statement .idct2d := rfl

theorem Encoding.lsClamp : Encoding.Statement .lsClamp := rfl

theorem Encoding.blkRecon (x : Byte) : Encoding.Statement (.blkRecon x) := decode_commandWord _ _ _

theorem Encoding.upRun (x : Byte) : Encoding.Statement (.upRun x) := decode_commandWord _ _ _

theorem Encoding.ccRun : Encoding.Statement .ccRun := rfl

theorem Encoding.ccPix : Encoding.Statement .ccPix := rfl

end Sys2Proof.Laws
end

