-- ==== Sys2Proof/Laws/Truncated.lean ====
section
/-! SUPPORT. Data that end inside a coded block: a strict beginning of the bits of a legal block, wherever it is cut, ends in
`UnexpectedEndOfStream` (`spec/40_bit_reader.md` R96), with the tiles of the blocks before it placed and no other. -/

namespace Sys2Proof.Laws

open Sys2Proof.Machine Sys2Proof.Spec

/-- Two lists with a common beginning: the bits end inside the first part, or the first part is all there. -/
theorem ends_inside_or_behind {bits missing x y : List Bool} (h : x ++ y = bits ++ missing) :
    (∃ m, m ≠ [] ∧ x = bits ++ m) ∨ ∃ more, bits = x ++ more ∧ y = more ++ missing := by
  rcases List.append_eq_append_iff.1 h with ⟨more, h1, h2⟩ | ⟨m, h1, h2⟩
  · exact .inr ⟨more, h1, h2⟩
  · cases m with
    | nil => exact .inr ⟨[], by simpa using h1.symm, by simpa using h2.symm⟩
    | cons a m => exact .inl ⟨a :: m, by simp, h1⟩

/-- Fewer than sixteen bits that begin with no assigned code (R116). -/
theorem decodeSymbol_short {b : Input} (hb : b.len < 2 ^ 32) {t : HuffTable} {r : Stream}
    (hl : (streamBits b r).length < 16) (hno : ∀ c : Code, c.Assigned t → ¬ c.bits t <+: streamBits b r) :
    ∃ r', decodeSymbol b (some t) r = .raised .unexpectedEndOfStream r' ∧ streamBits b r' = [] :=
  decodeSymbolFrom_short hb (before := []) le_rfl (by simp) hl hno

/-- The data end inside a code. -/
theorem decodeSymbol_truncated {b : Input} (hb : b.len < 2 ^ 32) {t : HuffTable} (ht : t.Built) {c : Code}
    (hc : c.Assigned t) {r : Stream} {missing : List Bool} (hm : missing ≠ [])
    (hs : c.bits t = streamBits b r ++ missing) :
    ∃ r', decodeSymbol b (some t) r = .raised .unexpectedEndOfStream r' ∧ streamBits b r' = [] := by
  have hpos := List.length_pos_iff.2 hm
  have hlen := congrArg List.length hs
  have hc16 : (c.bits t).length = c.l.val + 1 := by simp [Code.bits]
  rw [List.length_append] at hlen
  refine decodeSymbol_short hb (by omega) fun c' hc' hp => ?_
  have := code_prefix ht hc' hc (hp.trans ⟨missing, hs.symm⟩)
  subst this
  have := hp.length_le
  omega

/-- The data end inside additional bits (R131). -/
theorem receiveExtend_short {b : Input} (hb : b.len < 2 ^ 32) {n : Nat} {r : Stream} (h : (streamBits b r).length < n) :
    ∃ r', receiveExtend b n r = .raised .unexpectedEndOfStream r' ∧ streamBits b r' = [] := by
  obtain ⟨r', h1, h2⟩ := needBits_end hb h
  exact ⟨r', by simp [receiveExtend, h1], h2⟩

theorem receiveExtend_truncated {b : Input} (hb : b.len < 2 ^ 32) {n v : Nat} {r : Stream} {missing : List Bool}
    (hm : missing ≠ []) (hs : numberBits n v = streamBits b r ++ missing) :
    ∃ r', receiveExtend b n r = .raised .unexpectedEndOfStream r' ∧ streamBits b r' = [] := by
  have hpos := List.length_pos_iff.2 hm
  have hlen := congrArg List.length hs
  rw [List.length_append, numberBits_length] at hlen
  exact receiveExtend_short hb (by omega)

/-- `decode_dc` (R133) where the data end in the additional bits of a code. -/
theorem decodeDc_short {c : Fin 4} {s : State} {td : HuffTable} {code : Code} {rest : List Bool}
    (hh : s.tables.huff 0 (slotOfId s.setup.comp[c].td) = some td) (ht : td.Built) (hc : code.Assigned td)
    (h11 : (code.symbol td).toNat ≤ 11) (hs : bitsOf s = code.bits td ++ rest)
    (hl : rest.length < (code.symbol td).toNat) :
    ∃ r', decodeDc c s = .raised .unexpectedEndOfStream { s with stream := r' } ∧ streamBits s.inBuf r' = [] := by
  obtain ⟨r1, h1, hd1⟩ := decodeSymbol_code (inBuf_len_lt s) ht hc hs
  obtain ⟨r2, h2, he⟩ := receiveExtend_short (inBuf_len_lt s) (r := r1) (by rw [hd1.after]; exact hl)
  refine ⟨r2, ?_, he⟩
  simp only [decodeDc, hh, h1, onStream_ok, bind_ok]
  rw [if_neg (by omega), show State.inBuf { s with stream := r1 } = s.inBuf from rfl, h2]
  rfl

/-- `decode_dc` where its symbol cannot be read. -/
theorem decodeDc_no_symbol {c : Fin 4} {s : State} {k : FaultKind} {r : Stream}
    (h : decodeSymbol s.inBuf (s.tables.huff 0 (slotOfId s.setup.comp[c].td)) s.stream = .raised k r) :
    decodeDc c s = .raised k { s with stream := r } := by
  rw [decodeDc, h]
  rfl

/-- The data end inside a coded DC value. -/
theorem decodeDc_truncated {c : Fin 4} {s : State} {td : HuffTable} {cb : CodedBlock} {d : Int} {missing : List Bool}
    (hh : s.tables.huff 0 (slotOfId s.setup.comp[c].td) = some td) (ht : td.Built) (hd : cb.difference td = some d)
    (hm : missing ≠ []) (hs : cb.dcBits td = bitsOf s ++ missing) :
    ∃ r', decodeDc c s = .raised .unexpectedEndOfStream { s with stream := r' } ∧ streamBits s.inBuf r' = [] := by
  unfold CodedBlock.difference at hd
  split at hd
  · next h =>
    obtain ⟨ha, h11, _⟩ := h
    rcases ends_inside_or_behind hs with ⟨m, hm', hs'⟩ | ⟨more, hs', hy⟩
    · obtain ⟨r', h1, h2⟩ := decodeSymbol_truncated (inBuf_len_lt s) ht ha hm' hs'
      exact ⟨r', decodeDc_no_symbol (by rw [hh]; exact h1), h2⟩
    · have hpos := List.length_pos_iff.2 hm
      have hlen := congrArg List.length hy
      rw [List.length_append, numberBits_length] at hlen
      exact decodeDc_short hh ht ha h11 hs' (by omega)
  · simp at hd

/-- What a legal AC part ends with (R135). -/
abbrev AcEnds (ta : HuffTable) (eob : Option Code) (k : Nat) : Prop :=
  match eob with
  | some e => k ≤ 63 ∧ e.Assigned ta ∧ e.symbol ta = 0
  | none => k = 64

/-- The loop of `decode_ac` where the next symbol cannot be read. -/
theorem decodeAcFrom_no_symbol {slot : Option HuffTable} {k : Nat} {s : State} {kind : FaultKind} {r : Stream}
    (hk : k ≤ 63) (h : decodeSymbol s.inBuf slot s.stream = .raised kind r) :
    decodeAcFrom slot (64 - k) k s = .raised kind { s with stream := r } := by
  obtain ⟨fuel, hfuel⟩ : ∃ f, 64 - k = f + 1 := ⟨63 - k, by omega⟩
  rw [hfuel, decodeAcFrom, if_neg (by omega), h]
  rfl

/-- The loop of `decode_ac` where the data end in the additional bits of a coefficient. -/
theorem decodeAcFrom_short {ta : HuffTable} (ht : ta.Built) {code : Code} (hc : code.Assigned ta) {k : Nat} {s : State}
    {rest : List Bool} (hs : streamBits s.inBuf s.stream = code.bits ta ++ rest)
    (h1 : 1 ≤ sizeField (code.symbol ta)) (h11 : sizeField (code.symbol ta) ≤ 11)
    (hk : k + runField (code.symbol ta) ≤ 63) (hl : rest.length < sizeField (code.symbol ta)) :
    ∃ r', decodeAcFrom (some ta) (64 - k) k s = .raised .unexpectedEndOfStream { s with stream := r' } ∧
      streamBits s.inBuf r' = [] := by
  obtain ⟨fuel, hfuel⟩ : ∃ f, 64 - k = f + 1 := ⟨63 - k, by omega⟩
  obtain ⟨r1, e1, hd1⟩ := decodeSymbol_code (inBuf_len_lt s) ht hc hs
  obtain ⟨r2, e2, he⟩ := receiveExtend_short (inBuf_len_lt s) (r := r1) (by rw [hd1.after]; exact hl)
  refine ⟨r2, ?_, he⟩
  rw [hfuel, decodeAcFrom, if_neg (by omega), e1]
  simp only [onStream_ok, bind_ok, acStep, (acFields _).1, (acFields _).2,
    if_neg (show ¬ sizeField (code.symbol ta) = 0 by omega), if_neg (show ¬ 11 < sizeField (code.symbol ta) by omega),
    dif_pos (show k + runField (code.symbol ta) < 64 by omega)]
  rw [show State.inBuf { s with stream := r1 } = s.inBuf from rfl, e2]
  rfl

/-- The first of some legal tokens, and the others. -/
theorem expandAc_cons {ta : HuffTable} {tok : AcToken} {toks : List AcToken} {k : Nat} {f : Block (BitVec 16)}
    {x : Nat × Block (BitVec 16)} (h : expandAc ta (tok :: toks) k f = some x) :
    ∃ k1 f1, expandAc ta [tok] k f = some (k1, f1) ∧ expandAc ta toks k1 f1 = some x ∧ tok.code.Assigned ta ∧ k ≤ 63 ∧
      (1 ≤ sizeField (tok.code.symbol ta) →
        sizeField (tok.code.symbol ta) ≤ 11 ∧ k + runField (tok.code.symbol ta) ≤ 63) := by
  simp only [expandAc] at h ⊢
  split at h
  · next ha =>
    split at h
    · next h0 =>
      split at h
      · next hz => exact ⟨k + 16, f, by rw [if_pos ha, if_pos h0, if_pos hz], h, ha, by omega, by omega⟩
      · simp at h
    · next h0 =>
      split at h
      · next hz => exact ⟨_, _, by rw [if_pos ha, if_neg h0, dif_pos hz], h, ha, by omega, fun _ => by omega⟩
      · simp at h
  · simp at h

/-- The data end inside the coded AC part. -/
theorem decodeAcFrom_truncated {ta : HuffTable} (ht : ta.Built) {toks : List AcToken} {eob : Option Code} {k k' : Nat}
    {s : State} {g : Block (BitVec 16)} {missing : List Bool} (hk1 : 1 ≤ k) (hk : k ≤ 64)
    (he : expandAc ta toks k s.buf.coef = some (k', g)) (hend : AcEnds ta eob k') (hm : missing ≠ [])
    (hs : tokensBits ta toks ++ eobBits ta eob = streamBits s.inBuf s.stream ++ missing) :
    ∃ (r' : Stream) (f : Block (BitVec 16)), decodeAcFrom (some ta) (64 - k) k s =
        .raised .unexpectedEndOfStream { s with stream := r', buf := { s.buf with coef := f } } ∧
      streamBits s.inBuf r' = [] := by
  induction toks generalizing k s with
  | nil =>
    simp only [expandAc, Option.some.injEq, Prod.mk.injEq] at he
    obtain ⟨rfl, rfl⟩ := he
    cases eob with
    | none => simp [tokensBits, eobBits, hm] at hs
    | some e =>
      obtain ⟨r', h1, h2⟩ := decodeSymbol_truncated (inBuf_len_lt s) ht hend.2.1 hm (by simpa [tokensBits, eobBits] using hs)
      exact ⟨r', s.buf.coef, decodeAcFrom_no_symbol hend.1 h1, h2⟩
  | cons tok toks ih =>
    obtain ⟨k1, f1, hone, hrest, ha, hk63, hparts⟩ := expandAc_cons he
    rw [tokensBits_cons, List.append_assoc] at hs
    rcases ends_inside_or_behind hs with ⟨m, hm', hs'⟩ | ⟨more, hs', hy⟩
    · obtain ⟨r', h1, h2⟩ := decodeSymbol_truncated (inBuf_len_lt s) ht ha hm' hs'
      exact ⟨r', s.buf.coef, decodeAcFrom_no_symbol hk63 h1, h2⟩
    · rw [List.append_assoc] at hy
      have hb1 := expandAc_bounds hk1 hk hone
      rcases ends_inside_or_behind hy with ⟨m, hm', hm''⟩ | ⟨more', hs'', hy'⟩
      · have hpos := List.length_pos_iff.2 hm'
        have hlen := congrArg List.length hm''
        rw [List.length_append, numberBits_length] at hlen
        have h1 : 1 ≤ sizeField (tok.code.symbol ta) := by omega
        obtain ⟨r', e1, e2⟩ := decodeAcFrom_short ht ha hs' h1 (hparts h1).1 (hparts h1).2 (by omega)
        exact ⟨r', s.buf.coef, e1, e2⟩
      · obtain ⟨r1, e1, hd1⟩ := decodeAcFrom_tokens ht (toks := [tok]) (rest := more') hk1 hk hone (by
          rw [hs', hs'', tokensBits_cons, List.append_assoc]
          simp [tokensBits])
        obtain ⟨r2, f2, e2, e3⟩ := ih (k := k1) (s := { s with stream := r1, buf := { s.buf with coef := f1 } })
          (by omega) hb1.2.1 hrest (by
            rw [hy']
            exact congrArg (· ++ missing) hd1.after.symm)
        exact ⟨r2, f2, e1.trans e2, e3⟩

/-- The data end inside the AC part of a coded block (R135). -/
theorem decodeAc_truncated {c : Fin 4} {s : State} {ta : HuffTable} {cb : CodedBlock} {k : Nat} {f : Block (BitVec 16)}
    {missing : List Bool} (hh : s.tables.huff 1 (slotOfId s.setup.comp[c].ta) = some ta) (ht : ta.Built)
    (hc : cb.coefficients ta s.buf.coef = some (k, f)) (hm : missing ≠ []) (hs : cb.acBits ta = bitsOf s ++ missing) :
    ∃ (r' : Stream) (g : Block (BitVec 16)), decodeAc c s =
        .raised .unexpectedEndOfStream { s with stream := r', buf := { s.buf with coef := g } } ∧
      streamBits s.inBuf r' = [] := by
  have hx : ∃ k' g, expandAc ta cb.ac 1 (dcOnly s.buf.coef) = some (k', g) ∧ AcEnds ta cb.eob k' := by
    unfold CodedBlock.coefficients at hc
    split at hc
    · next k' g e he h =>
      split at hc
      · next hi => exact ⟨k', g, he, by rw [h]; exact hi⟩
      · simp at hc
    · next k' g he h =>
      split at hc
      · next hi => exact ⟨k', g, he, by rw [h]; exact hi⟩
      · simp at hc
    · simp at hc
  obtain ⟨k', g, hE, hend⟩ := hx
  obtain ⟨r', f', h1, h2⟩ := decodeAcFrom_truncated ht (s := clearAc s) (by omega) (by omega) hE hend hm hs
  refine ⟨r', f', ?_, h2⟩
  simp only [decodeAc, hh]
  rw [decodeAcFrom_fuel (some ta) (m := 64) (n := 64 - 1) (by omega) (by omega)]
  exact h1

/-- The data end inside a coded block (R137): the predictor may have moved, the plane has not. -/
theorem decodeBlock_truncated {c : Fin 4} {s : State} {td ta : HuffTable} {cb : CodedBlock} {d : Int} {k : Nat}
    {f : Block (BitVec 16)} {missing : List Bool}
    (hd : s.tables.huff 0 (slotOfId s.setup.comp[c].td) = some td)
    (ha : s.tables.huff 1 (slotOfId s.setup.comp[c].ta) = some ta) (htd : td.Built) (hta : ta.Built)
    (hdiff : cb.difference td = some d) (hfit : Fits16 (s.walk.pred[c].toInt + d))
    (hc : cb.coefficients ta ((Vector.replicate 64 0).set 0 (BitVec.ofInt 16 (s.walk.pred[c].toInt + d))) = some (k, f))
    (hm : missing ≠ []) (hs : cb.bits td ta = bitsOf s ++ missing) :
    ∃ (r' : Stream) (pred : Vector (BitVec 16) 4) (coef : Block (BitVec 16)), decodeBlock c s =
        .raised .unexpectedEndOfStream { s with
          stream := r', walk := { s.walk with pred := pred }, buf := { s.buf with coef := coef } } ∧
      streamBits s.inBuf r' = [] := by
  rcases ends_inside_or_behind hs with ⟨m, hm', hs'⟩ | ⟨more, hs', hy⟩
  · obtain ⟨r', h1, h2⟩ := decodeDc_truncated (s := clearCoef s) hd htd hdiff hm' hs'
    refine ⟨r', s.walk.pred, Vector.replicate 64 0, ?_, h2⟩
    rw [decodeBlock, show decodeDc c (clearCoef s) = _ from h1]
    rfl
  · obtain ⟨r1, h1, hd1⟩ := decodeDc_coded (s := clearCoef s) hd htd hdiff hfit (rest := more) hs'
    obtain ⟨r2, g, h2, he⟩ := decodeAc_truncated (c := c)
      (s := storeDc c (s.walk.pred[c].toInt + d) { clearCoef s with stream := r1 }) ha hta hc hm
      (by rw [hy]; exact congrArg (· ++ missing) hd1.after.symm)
    refine ⟨r2, s.walk.pred.set c (BitVec.ofInt 16 (s.walk.pred[c].toInt + d)), g, ?_, he⟩
    rw [decodeBlock, show decodeDc c (clearCoef s) = _ from h1, bind_ok]
    exact h2

/-- Blocks one after the other: first some, then the others. -/
theorem placeBlocks_append (before after : List (Fin 4 × Nat × Nat)) (s : State) :
    placeBlocks (before ++ after) s = (placeBlocks before s).bind fun _ t => placeBlocks after t := by
  induction before generalizing s with
  | nil => rfl
  | cons blk before ih =>
    simp only [List.cons_append, placeBlocks]
    cases placeBlock blk s with
    | ok _ t => simp only [bind_ok]; exact ih t
    | raised k t => rfl

/-- What a legal coded block says about the decoder's state (R143). -/
theorem addBlock_some {k : CompTables} {width : Nat} {blk : Fin 4 × Nat × Nat} {cb : CodedBlock} {p q : Picture}
    (h : addBlock k width blk cb p = some q) :
    ∃ d kk f, cb.difference k.td = some d ∧ Fits16 (p.pred[blk.1].toInt + d) ∧
      cb.coefficients k.ta ((Vector.replicate 64 0).set 0 (BitVec.ofInt 16 (p.pred[blk.1].toInt + d))) = some (kk, f) := by
  unfold addBlock at h
  split at h
  · simp at h
  · next d hd =>
    simp only at h
    split at h
    · simp at h
    · next kk f hc =>
      split at h
      · next hfit => exact ⟨d, kk, f, hd, hfit, hc⟩
      · simp at h

/-- An MCU whose data end inside a block (R143, R96): the blocks before it are placed. -/
theorem mcuBody_truncated {s : State} {before after : List (Fin 4 × Nat × Nat)} {blk : Fin 4 × Nat × Nat}
    {m : List CodedBlock} {k : CompTables} {cb : CodedBlock} {p p' : Picture} {part missing : List Bool}
    (hB : AllBuilt s) (hr : s.restartDue = false) (hblks : mcuBlocksAt s s.walk.mcuidx.toNat = before ++ blk :: after)
    (hp : addBlocks s before m (pictureOf s) = some p) (hk : tablesOf s blk.1 = some k)
    (hp' : addBlock k (s.setup.planeW blk.1) blk cb p = some p') (hs : bitsOf s = blocksBits s before m ++ part)
    (hm : missing ≠ []) (hcut : cb.bits k.td k.ta = part ++ missing) :
    ∃ t, mcuBody s = .raised .unexpectedEndOfStream t ∧ Decoding s t ∧ t.mem.plane = p.plane ∧
      streamBits s.inBuf t.stream = [] := by
  obtain ⟨t, ht, hpt, hd⟩ := placeBlocks_coded hB hp hs
  have hdec := placeBlocks_decoding before s
  rw [ht] at hdec
  simp only [leaves_ok] at hdec
  have hkt : tablesOf t blk.1 = some k := by rw [tablesOf_congr hdec.setup hdec.tables]; exact hk
  obtain ⟨h1, h2, _⟩ := tablesOf_some hkt
  obtain ⟨d, kk, f, hdiff, hfit, hc⟩ := addBlock_some hp'
  have hpred : t.walk.pred = p.pred := by rw [← hpt]; rfl
  rw [← hpred] at hfit hc
  have hBt : AllBuilt t := by unfold AllBuilt; rw [hdec.tables]; exact hB
  obtain ⟨r', pred, coef, hblk, he⟩ := decodeBlock_truncated (s := t) h1 h2 (hBt _ _ _ h1) (hBt _ _ _ h2) hdiff hfit hc hm
    (by rw [hcut, bitsOf, hdec.inBuf, hd.after])
  have hco := decodeBlock_coding blk.1 t
  rw [hblk] at hco
  refine ⟨_, ?_, hdec.trans hco.decoding, by rw [← hpt]; rfl, by rw [← hdec.inBuf]; exact he⟩
  have h0 : restartIfDue s = .ok () s := by simp [restartIfDue, hr]
  rw [mcuBody, h0, bind_ok]
  rw [show placeBlocks (s.setup.mcuBlocks (s.walk.mcuidx.toNat % s.setup.mcuX) (s.walk.mcuidx.toNat / s.setup.mcuX)) s
    = placeBlocks (before ++ blk :: after) s from congrArg (placeBlocks · s) hblks]
  rw [placeBlocks_append, ht, bind_ok, placeBlocks, placeBlock, hblk]
  rfl

end Sys2Proof.Laws
end

