-- ==== Sys2Proof/Tests/Slice0.lean ====
section
/-! SUPPORT. The model's own tests. Expected values come from `spec/30_encoding.md` R62 and from `spec/95_test_vectors.md`;
each test names its vector. The last part shows, for every obligation with hypotheses, states and operands that meet
them. -/

namespace Sys2Proof.Tests

open Sys2Proof.Machine Sys2Proof.Spec

/-! ### Helpers -/

/-- The bytes as the contents of a memory from an address on. -/
def cellsFrom : Nat → List Byte → Memory
  | _, [] => []
  | a, b :: bs => (a, b) :: cellsFrom (a + 1) bs

/-- Buffers of zeros. -/
def zeroBuffers : Buffers :=
  { coef := Vector.replicate 64 0, deq := Vector.replicate 64 0, nat := Vector.replicate 64 0
    acc := Vector.replicate 64 0, tile := Vector.replicate 64 0 }

/-- After reset, with `IN` given, `IN_LEN` its length, and the buffers zero. -/
def withInput (bytes : List Byte) : State :=
  { State.reset with
    input := cellsFrom 0 bytes, setup := { Setup.reset with inLen := BitVec.ofNat 32 bytes.length }
    buf := zeroBuffers }

/-- The same, with `ARG` given. -/
def withArg (bytes : List Byte) (arg : Word) : State := { withInput bytes with arg := arg }

/-- The same, with a cursor. -/
def streamAt (bytes : List Byte) (pos : Word) : State :=
  { withInput bytes with stream := { Stream.reset with pos := pos, brv := true } }

/-- The next state, if there is one. -/
def nextOf : Host.Outcome State Fault Refusal → Option State
  | .next t => some t
  | .fault _ => none
  | .refused _ => none

/-- A property of the next state. -/
def After (o : Host.Outcome State Fault Refusal) (p : State → Bool) : Bool :=
  match o with
  | .next t => p t
  | .fault _ => false
  | .refused _ => false

/-- The state has latched a fault of the given code at the given cursor. -/
def faultedAt (code : Byte) (errpos : Word) (t : State) : Bool := t.status.fault && t.err == code && t.errpos == errpos

/-- Table T1 of section 3, with the values V20 gives. -/
def t1 : HuffTable :=
  { counts := #v[0, 1, 5, 1, 1, 1, 1, 1, 1, 0, 0, 0, 0, 0, 0, 0], nsym := 12
    sym := [0, 1, 2, 3, 4, 5, 6, 7, 8, 9, 10, 11]
    first := #v[0, 0, 2, 14, 30, 62, 126, 254, 510, 1022, 2044, 4088, 8176, 16352, 32704, 65408]
    offset := #v[0, 0, 1, 6, 7, 8, 9, 10, 11, 12, 12, 12, 12, 12, 12, 12] }

/-- Table T2, with the values V20 gives. -/
def t2 : HuffTable :=
  { counts := #v[0, 3, 1, 0, 0, 0, 0, 0, 0, 0, 0, 0, 0, 0, 0, 0], nsym := 4, sym := [0x02, 0x11, 0x00, 0xF0]
    first := #v[0, 0, 6, 14, 28, 56, 112, 224, 448, 896, 1792, 3584, 7168, 14336, 28672, 57344]
    offset := #v[0, 0, 3, 4, 4, 4, 4, 4, 4, 4, 4, 4, 4, 4, 4, 4] }

/-- Table T5: `000`→`0x00`, `001`→`0xF0`, `010`→`0x01`, `011`→`0x11`, `100`→`0xF1`, `101`→`0x0C`, `110`→`0x30`,
`111`→`0x0B`. -/
def t5 : HuffTable :=
  { counts := #v[0, 0, 8, 0, 0, 0, 0, 0, 0, 0, 0, 0, 0, 0, 0, 0], nsym := 8
    sym := [0x00, 0xF0, 0x01, 0x11, 0xF1, 0x0C, 0x30, 0x0B]
    first := #v[0, 0, 0, 16, 32, 64, 128, 256, 512, 1024, 2048, 4096, 8192, 16384, 32768, 65536]
    offset := #v[0, 0, 0, 8, 8, 8, 8, 8, 8, 8, 8, 8, 8, 8, 8, 8] }

/-- The 28 bytes of table T1. -/
def t1Bytes : List Byte :=
  [0, 1, 5, 1, 1, 1, 1, 1, 1, 0, 0, 0, 0, 0, 0, 0] ++ [0, 1, 2, 3, 4, 5, 6, 7, 8, 9, 10, 11]

/-- The quantizer of P2: 16, 11, 10, 14, then 1. -/
def q2 : Block (BitVec 16) := (((Vector.replicate 64 1).set 0 16).set 1 11).set 2 10 |>.set 3 14

/-- Tables with T1 as `HT[0][0]`, T2 as `HT[1][0]` and `q2` as `QT[0]`. -/
def p2Tables : Tables := ((Tables.reset.setHuff 0 0 t1).setHuff 1 0 t2).setQuant 0 q2

/-- The configuration of P2: grayscale, 8 × 8, one block. -/
def p2Setup (inLen : Word) : Setup :=
  { Setup.reset with
    inLen := inLen, proc := 0, width := 8, height := 8, ncomp := 1
    comp := Setup.reset.comp.set 0 { v := 1, h := 1, tq := 0, td := 0, ta := 0 } }

/-- P2 in manual mode: its tables and configuration, and a cursor at the first byte given. -/
def p2Manual (bytes : List Byte) : State :=
  { streamAt bytes 0 with tables := p2Tables, setup := p2Setup (BitVec.ofNat 32 bytes.length) }

/-- P2 in scan mode. -/
def p2Scan (bytes : List Byte) : State := { p2Manual bytes with status := { Status.reset with scan := true } }

/-- P2 after the scan, with the pixels `y·8 + x` in `PLANE[0]`. -/
def p2Done : State :=
  { p2Manual [0x61, 0xAB, 0xFF, 0xD9] with
    status := { Status.reset with done := true }
    mem := { Planes.reset with plane := Planes.reset.plane.set 0 (cellsFrom 0 ((List.range 64).map (BitVec.ofNat 8))) }
    walk := { Walk.reset with mcuidx := 1 } }

/-- P2 after UP.RUN and CC.RUN: every memory may be read, up to its last byte. -/
def p2Finished : State := { p2Done with status := { Status.reset with done := true, outv := true, fullv := #v[true, false, false, false] } }

/-- The coefficients of P2: −3, 3, 0, −1, then 0. -/
def p2Coef : Block (BitVec 16) := (((Vector.replicate 64 0).set 0 (-3)).set 1 3).set 3 (-1)

/-! ### Well-formedness: an ill-formed term for each check is refused -/

theorem test_bit_count_17_refused : (Instr.brBits 17).wellFormed = false ∧ (Instr.brBits 16).wellFormed = true := by
  decide
theorem test_class_2_refused : (Instr.htLoad 2 0).wellFormed = false ∧ (Instr.htDec 2 0).wellFormed = false := by decide
theorem test_table_id_16_refused : (Instr.htLoad 0 16).wellFormed = false ∧ (Instr.htDec 1 16).wellFormed = false ∧
    (Instr.qtLoad 0 16).wellFormed = false ∧ (Instr.dqMul 16).wellFormed = false := by decide
theorem test_precision_2_refused : (Instr.qtLoad 2 0).wellFormed = false := by decide
theorem test_category_12_refused : (Instr.edRcvx 12).wellFormed = false := by decide
theorem test_component_4_refused : (Instr.edDc 4).wellFormed = false ∧ (Instr.edAc 4).wellFormed = false ∧
    (Instr.edBlock 4).wellFormed = false ∧ (Instr.blkRecon 4).wellFormed = false ∧
    (Instr.upRun 4).wellFormed = false := by decide

/-! ### Decoding: the words of section 8, and the rejected words of V80, V8, V28, V31, V50 -/

theorem test_decode_control_and_reader_words :
    decode 0x00000000 = .ok .nop ∧ decode 0x01000000 = .ok .reset ∧ decode 0x10000000 = .ok .brInit ∧
    decode 0x11000000 = .ok .brBit ∧ decode 0x12100000 = .ok (.brBits 16) ∧ decode 0x13000000 = .ok .brAlign := by
  decide
theorem test_decode_table_words :
    decode 0x20010200 = .ok (.htLoad 1 2) ∧ decode 0x21000F00 = .ok (.htDec 0 15) ∧
    decode 0x28010300 = .ok (.qtLoad 1 3) := by decide
theorem test_decode_entropy_words :
    decode 0x300B0000 = .ok (.edRcvx 11) ∧ decode 0x31010000 = .ok (.edDc 1) ∧ decode 0x32020000 = .ok (.edAc 2) ∧
    decode 0x33030000 = .ok (.edBlock 3) ∧ decode 0x34000000 = .ok .edRst ∧ decode 0x35000000 = .ok .edMcu ∧
    decode 0x36000000 = .ok .edScan ∧ decode 0x38000000 = .ok .scanStart ∧ decode 0x39000000 = .ok .scanEnd := by
  decide
theorem test_decode_block_and_output_words :
    decode 0x40000300 = .ok (.dqMul 3) ∧ decode 0x41000000 = .ok .zzScat ∧ decode 0x42000000 = .ok .idct2d ∧
    decode 0x43000000 = .ok .lsClamp ∧ decode 0x45020000 = .ok (.blkRecon 2) ∧ decode 0x50020000 = .ok (.upRun 2) ∧
    decode 0x51000000 = .ok .ccRun ∧ decode 0x52000000 = .ok .ccPix := by decide
theorem test_decode_rejects_undefined_opcodes :
    decode 0x02000000 = .error .undefinedOpcode ∧ decode 0x37000000 = .error .undefinedOpcode ∧
    decode 0x44000000 = .error .undefinedOpcode ∧ decode 0xFF000000 = .error .undefinedOpcode := by decide
theorem test_decode_rejects_nonzero_fields :
    decode 0x00000001 = .error .reservedField ∧ decode 0x00010000 = .error .unusedField ∧
    decode 0x11000100 = .error .unusedField ∧ decode 0x40010000 = .error .unusedField := by decide
theorem test_decode_rejects_operands_out_of_range :
    decode 0x31040000 = .error .operandRange ∧ decode 0x12110000 = .error .operandRange ∧
    decode 0x20020000 = .error .operandRange ∧ decode 0x20001000 = .error .operandRange ∧
    decode 0x300C0000 = .error .operandRange ∧ decode 0x28020000 = .error .operandRange := by decide
theorem test_table_word_and_fetch_word :
    decodeTableWord 32 0x33030000 = some (.edBlock 3) ∧
    (State.reset.withFetchWord 32 0x33030000).bus = [.write 0 0x33030000] := by decide

/-! ### One step of each command -/

/-- V80, V8: an illegal word latches `ProtocolFault` at the cursor. -/
theorem test_illegal_word : After (runWord 0x37000000 (withInput [0])) (faultedAt 11 0) ∧
    After (runWord 0x12110000 (streamAt [0xA5] 1)) (faultedAt 11 1) := by decide

/-- V84: while faulted NOP is ignored and RESET accepted. -/
theorem test_nop_and_reset_while_faulted :
    After (runWord 0x00000000 (raiseFault .rangeFault (streamAt [0, 0] 1))) (faultedAt 10 1) ∧
    After (runWord 0x01000000 (raiseFault .rangeFault (streamAt [0, 0] 1)))
      (fun t => !t.status.fault && t.err == 0 && t.setup.proc == 0xFF && t.stream == Stream.reset) := by decide

/-- V5, V8: BR.INIT at the end of `IN`, and past it. -/
theorem test_brInit : After (execBrInit (withArg [0x12] 1)) (fun t => t.stream.pos == 1 && t.stream.brv) ∧
    After (execBrInit (withArg [0x12] 2)) (faultedAt 11 0) := by decide

/-- V1 calls 1 and 25. -/
theorem test_brBit : After (execBrBit (streamAt [0xA5, 0xFF, 0, 0x3C, 0xFF, 0xD0] 0))
      (fun t => t.result == 1 && t.stream.pos == 1 && t.stream.cnt == 7) ∧
    After (execBrBit (streamAt [0xA5, 0xFF, 0, 0x3C, 0xFF, 0xD0] 4))
      (fun t => t.result == 0x800000D0 && t.stream.pos == 4 && t.statusWord == 6) := by decide

/-- V2: BR.BITS 12 over the stuffed byte; V7: a marker in the middle. -/
theorem test_brBits :
    After (execBrBits 12 { withInput [0xA5, 0xFF, 0, 0x3C] with
        stream := { Stream.reset with pos := 1, cur := 0xA5, cnt := 4, brv := true } })
      (fun t => t.result == 0x5FF && t.stream.pos == 3 && t.stream.cnt == 0) ∧
    After (execBrBits 12 (streamAt [0xA5, 0xFF, 0xD9] 0))
      (fun t => t.result == 0x800000D9 && t.stream.pos == 1 && t.stream.cnt == 0) := by decide

/-- V6. -/
theorem test_brAlign :
    After (execBrAlign { withInput [0xA5, 0x3C] with
        stream := { Stream.reset with pos := 1, cur := 0xA5, cnt := 4, brv := true } })
      (fun t => t.stream.cnt == 0 && t.stream.pos == 1) := by decide

/-- V20: T1 in slot 0, 0. -/
theorem test_htLoad : After (execHtLoad 0 0 (withInput t1Bytes))
    (fun t => t.result == 28 && t.tables.huff 0 0 == some t1 && t.tables.huff 1 0 == none) := by decide

/-- V23: three codes of one bit. -/
theorem test_htLoad_oversubscribed :
    After (execHtLoad 0 0 (withInput [3, 0, 0, 0, 0, 0, 0, 0, 0, 0, 0, 0, 0, 0, 0, 0, 0, 1, 2])) (faultedAt 3 0) := by
  decide

/-- V21 call 7: code `1110` in `0x77` after one bit of it has gone. -/
theorem test_htDec :
    After (execHtDec 0 0 { withInput [0x13, 0x97, 0x77, 0xBE] with
        tables := p2Tables, stream := { Stream.reset with pos := 3, cur := 0x77, cnt := 7, brv := true } })
      (fun t => t.result == 6 && t.stream.pos == 3 && t.stream.cnt == 3) := by decide

/-- V24: sixteen 1 bits are no code of T1. -/
theorem test_htDec_unassigned :
    After (execHtDec 0 0 { streamAt [0xFF, 0, 0xFF, 0, 0xFF, 0xD9] 0 with tables := p2Tables }) (faultedAt 5 4) := by
  decide

/-- V50: the first entries of an 8-bit and of a 16-bit definition; a definition that runs past `IN`. -/
theorem test_qtLoad :
    After (execQtLoad 0 0 { withInput [] with
        input := cellsFrom 0 [16, 11, 10, 14], setup := { Setup.reset with inLen := 64 } })
      (fun t => t.result == 64 &&
        (t.tables.quant 0).map (fun q => (q[0], q[1], q[2], q[3])) == some (16, 11, 10, 14)) ∧
    After (execQtLoad 1 5 { withInput [] with
        input := cellsFrom 0 [0xFF, 0xFF, 0x01, 0x00, 0x00, 0x01], setup := { Setup.reset with inLen := 128 } })
      (fun t => t.result == 128 && (t.tables.quant 5).map (fun q => (q[0], q[1], q[2])) == some (65535, 256, 1)) ∧
    After (execQtLoad 1 0 { withArg [] 65 with setup := { Setup.reset with inLen := 192 } }) (faultedAt 3 0) := by decide

/-- V31: `010` is −5 and `s = 0` reads no bit. -/
theorem test_edRcvx : After (execEdRcvx 3 (streamAt [0x5A, 0x80] 0))
      (fun t => t.result == 0xFFFFFFFB && t.stream.cnt == 5) ∧
    After (execEdRcvx 0 (streamAt [0x5A, 0x80] 0)) (fun t => t.result == 0 && t.stream.cnt == 0) := by decide

/-- V32 call 2: the difference −5 on a predictor of 5. -/
theorem test_edDc :
    After (execEdDc 0 { p2Manual [0x96, 0x21, 0x53] with
        stream := { Stream.reset with pos := 1, cur := 0x96, cnt := 2, brv := true }
        walk := { Walk.reset with pred := Walk.reset.pred.set 0 5 } })
      (fun t => t.result == 0 && t.walk.pred[0] == 0 && t.stream.pos == 2 && t.stream.cnt == 4) := by decide

/-- V33: +2047 on 32752 is a `RangeFault`. -/
theorem test_edDc_range :
    After (execEdDc 0 { p2Manual [0xFF, 0, 0x7F, 0xFF, 0, 0xFF, 0] with
        walk := { Walk.reset with pred := Walk.reset.pred.set 0 32752 } })
      (fun t => t.err == 10 && t.walk.pred[0] == 32752) := by decide

/-- V35: with T2, `00 11 01 0 10`. -/
theorem test_edAc : After (execEdAc 0 (p2Manual [0x35, 0x7F]))
    (fun t => t.result == 4 && t.buf.coef[1] == 3 && t.buf.coef[2] == 0 && t.buf.coef[3] == -1) := by decide

/-- P2: ED.BLOCK. -/
theorem test_edBlock : After (execEdBlock 0 (p2Manual [0x61, 0xAB, 0xFF, 0xD9]))
    (fun t => t.result == 4 && t.stream.pos == 2 && t.stream.cnt == 2 && t.walk.pred[0] == -3 && t.buf.coef == p2Coef) := by
  decide

/-- V36: the expected marker; a wrong byte at the aligned cursor. -/
theorem test_edRst :
    After (execEdRst { streamAt [0xA5, 0xFF, 0xD0, 0xA5] 1 with
        walk := { Walk.reset with pred := Walk.reset.pred.set 2 7, mcucnt := 3 } })
      (fun t => t.result == 0 && t.stream.pos == 3 && t.walk.rstexp == 1 && t.walk.mcucnt == 0 && t.walk.pred[2] == 0) ∧
    After (execEdRst (streamAt [0xA5, 0xA5, 0xFF, 0xD0] 1)) (faultedAt 7 1) := by decide

/-- P2: SCAN.START; P6: a progressive frame; V82: an unloaded quantization table. -/
theorem test_scanStart :
    After (execScanStart (p2Manual [0x61, 0xAB, 0xFF, 0xD9]))
      (fun t => t.result == 1 && t.statusWord == 0x000C && t.stream.pos == 0) ∧
    After (execScanStart { p2Manual [0x61] with setup := { p2Setup 1 with proc := 2 } }) (faultedAt 2 0) ∧
    After (execScanStart { p2Manual [0x61] with tables := Tables.reset }) (faultedAt 4 0) := by decide

/-- V83: `FF D9` at the aligned cursor; a data byte there. -/
theorem test_scanEnd :
    After (execScanEnd { p2Scan [0xAB, 0xFF, 0xD9] with
        stream := { Stream.reset with pos := 1, cur := 0xAB, cnt := 2, brv := true }
        walk := { Walk.reset with mcuidx := 1 } })
      (fun t => t.result == 0xD9 && t.statusWord == 0x0016 && t.stream.pos == 1 && t.stream.cnt == 0) ∧
    After (execScanEnd { p2Scan [0x00, 0xFF, 0xD9] with walk := { Walk.reset with mcuidx := 1 } }) (faultedAt 3 0) := by
  decide

/-- P3's second MCU, the marker missing; P2's stream cut in the block. -/
theorem test_edMcu_faults :
    After (execEdMcu { p2Scan [0xB1, 0x7F, 0xFF, 0xD9] with
        setup := { p2Setup 4 with ri := 1 }, walk := { Walk.reset with mcucnt := 1 } }) (faultedAt 7 0) ∧
    After (execEdMcu (p2Scan [0x61])) (faultedAt 8 1) := by decide

/-- V50: DQ.MUL, and a slot never loaded. -/
theorem test_dqMul :
    After (execDqMul 0 { p2Manual [] with buf := { zeroBuffers with coef := p2Coef } })
      (fun t => t.buf.deq[0] == -48 && t.buf.deq[1] == 33 && t.buf.deq[3] == -14 && t.buf.deq[63] == 0) ∧
    After (execDqMul 1 (p2Manual [])) (faultedAt 4 0) := by decide

/-- V51: rows 0 and 7 of `NAT` with `DEQ[i] = i`. -/
theorem test_zzScat :
    After (execZzScat { withInput [] with buf := { zeroBuffers with deq := Vector.ofFn fun i => BitVec.ofNat 32 i.val } })
      (fun t => t.buf.nat.toList.take 8 == [0, 1, 5, 6, 14, 15, 27, 28]
        && t.buf.nat.toList.drop 56 == [35, 36, 48, 49, 57, 58, 62, 63]) := by decide

/-- V53: `NAT[1] = 100`. -/
theorem test_idct2d :
    After (execIdct2d { withInput [] with buf := { zeroBuffers with nat := zeroBuffers.nat.set 1 100 } })
      (fun t => (t.buf.acc.toList.take 9).map BitVec.toInt ==
        [1163323200, 986377600, 659129600, 231390400, -231390400, -659129600, -986377600, -1163323200, 1163323200]) := by
  decide

/-- V56: ties go up, and both clamps. -/
theorem test_lsClamp :
    After (execLsClamp { withInput [] with buf := { zeroBuffers with
        acc := (((zeroBuffers.acc.set 0 33554432).set 1 (-33554432)).set 2 (-33554433)).set 3 8556380160
          |>.set 4 (-8623489025) } })
      (fun t => t.buf.tile.toList.take 6 == [129, 128, 127, 255, 0, 128]) := by decide

/-- V57 and P2: rows 0 and 3 of `TILE`. -/
theorem test_blkRecon :
    After (execBlkRecon 0 { p2Manual [] with buf := { zeroBuffers with coef := p2Coef } })
      (fun t => t.buf.tile.toList.take 8 == [125, 125, 123, 121, 119, 116, 115, 114]
        && (t.buf.tile.toList.drop 24).take 8 == [130, 129, 128, 125, 123, 121, 119, 119]) := by decide

/-- P2: ED.MCU places the tile. -/
theorem test_edMcu :
    After (execEdMcu (p2Scan [0x61, 0xAB, 0xFF, 0xD9]))
      (fun t => t.result == 1 && t.stream.pos == 2 && t.stream.cnt == 2 && t.walk.mcuidx == 1 &&
        (t.planeByte 0 0, t.planeByte 0 7, t.planeByte 0 24) == (125, 114, 130)) := by decide

/-- P2: ED.SCAN. -/
theorem test_edScan :
    After (execEdScan (p2Scan [0x61, 0xAB, 0xFF, 0xD9]))
      (fun t => t.result == 0xD9 && t.statusWord == 0x0016 && t.stream.pos == 2 && t.stream.cnt == 0 &&
        t.planeByte 0 63 == 114) := by decide

/-- V63: the crop to 5 × 3; V64: a component that is not there. -/
theorem test_upRun :
    After (execUpRun 0 { p2Done with setup := { p2Setup 4 with width := 5, height := 3 } })
      (fun t => t.statusWord == 0x0114 && t.mem.full[0].map Prod.snd == [0, 1, 2, 3, 4, 8, 9, 10, 11, 12, 16, 17, 18, 19, 20]) ∧
    After (execUpRun 1 p2Done) (faultedAt 11 0) := by decide

/-- V61: horizontal replication of a subsampled component (`H = 2, 1, 1`). -/
theorem test_upRun_replicates :
    After (execUpRun 1 { p2Done with
        mem := { Planes.reset with plane := Planes.reset.plane.set 1 (cellsFrom 0 [10, 11, 12, 13, 14, 15, 16, 17]) }
        setup := { p2Setup 4 with
          width := 16, height := 1, ncomp := 3
          comp := (((p2Setup 4).comp.set 0 { v := 1, h := 2, tq := 0, td := 0, ta := 0 }).set 1
            { v := 1, h := 1, tq := 0, td := 0, ta := 0 }).set 2 { v := 1, h := 1, tq := 0, td := 0, ta := 0 } } })
      (fun t => t.mem.full[1].map Prod.snd == [10, 10, 11, 11, 12, 12, 13, 13, 14, 14, 15, 15, 16, 16, 17, 17]) := by
  decide

/-- V63: grayscale output is the sample; V64: a plane is missing. -/
theorem test_ccRun :
    After (execCcRun { p2Done with
        setup := { p2Setup 4 with width := 2, height := 1 }
        status := { p2Done.status with fullv := Status.reset.fullv.set 0 true }
        mem := { Planes.reset with full := Planes.reset.full.set 0 [(0, 125), (1, 114)] } })
      (fun t => t.status.outv && t.mem.out == [(0, 125), (1, 114)]) ∧
    After (execCcRun p2Done) (faultedAt 11 0) := by decide

/-- P4: a colour pixel is R, G, B in that order. -/
theorem test_ccRun_colour :
    After (execCcRun { p2Done with
        setup := { p2Setup 4 with width := 1, height := 1, ncomp := 3 }
        status := { p2Done.status with fullv := #v[true, true, true, false] }
        mem := { Planes.reset with full := #v[[(0, 200)], [(0, 88)], [(0, 218)], []] } })
      (fun t => t.mem.out == [(0, 255), (1, 149), (2, 129)]) := by decide

/-- V60: a tie rounds up, `ARG[31:24]` does not matter, and the clamps. -/
theorem test_ccPix :
    After (execCcPix (withArg [] 0xAB80FD00)) (fun t => t.result == 0x00DE0000) ∧
    After (execCcPix (withArg [] 0x00FF554C)) (fun t => t.result == 0x000000FE) ∧
    After (execCcPix (withArg [] 0x00DA58C8)) (fun t => t.result == 0x008195FF) := by decide

/-! ### States and operands that meet the hypotheses of the obligations -/

theorem test_built_tables : t1.Built ∧ t2.Built ∧ t5.Built := by unfold HuffTable.Built; decide

theorem test_witness_DecodeReadsExactlyTheEncodings :
    (decode 0x33030000 = .ok (.edBlock 3)) ∧ (Instr.edBlock 3).wellFormed = true ∧ (0x33030000 : Word) = encode (.edBlock 3) := by
  decide

theorem test_witness_StepRunsTheCommandWritten :
    (pushCommand 0x12100000 State.reset).bus = .write 0 0x12100000 :: [] ∧ decode 0x12100000 = .ok (.brBits 16) ∧
    State.reset.bus = [] ∧ decode (BitVec.ofNat 32 0x12100000) = .ok (.brBits 16) := by decide

theorem test_witness_IllegalWordsLatchProtocolFault_legal : LegalWord 0x12100000 :=
  ⟨by decide, 16, 0, by decide, by decide, by decide⟩

theorem test_witness_IllegalWordsLatchProtocolFault_illegal :
    ¬ LegalWord 0x37000000 ∧ ¬ LegalWord 0x12110000 ∧ State.reset.status.fault = false ∧
    (Instr.brBits 17).wellFormed = false := by
  refine ⟨?_, ?_, by decide, by decide⟩
  · rintro ⟨_, a, b, h, _⟩
    have e : operandMax ((0x37000000 : Word).toNat / 2 ^ 24) = none := by decide
    exact Option.some_ne_none (a, b) (h.symm.trans e)
  · rintro ⟨_, a, b, h, ha, _⟩
    have e : operandMax 0x12 = some (16, 0) := by decide
    have h' : some (16, 0) = some (a, b) := e.symm.trans h
    obtain ⟨rfl, rfl⟩ : 16 = a ∧ 0 = b := by simpa using h'
    exact absurd ha (by decide)

theorem test_witness_EveryCommandAnswersANextState_stops :
    step { State.reset with bus := [.write 0x1000 0] } = .fault .outsideSpace ∧
    step { State.reset with bus := [.read 0x1000] } = .fault .outsideSpace ∧
    step { State.reset with bus := [.narrow 0x1000] } = .fault .outsideSpace ∧
    step { State.reset with bus := [.readMemory .input 0] } = .fault .outsideSpace := by
  refine ⟨rfl, rfl, rfl, rfl⟩

theorem test_witness_FaultedStateIgnoresAccesses :
    (raiseFault .rangeFault (streamAt [0, 0] 1)).status.fault = true ∧ (0x01000100 : Word) ≠ 0x01000000 ∧
    (0xFFF : Word) ≠ 0 ∧ (0xFFF : Word).toNat < 0x1000 ∧ (0xFFC : Word).toNat % 4 = 0 ∧ (0xFFC : Word) ≠ 0x0C ∧
    (0 : Word) ≠ 0x04 ∧ Space.out ≠ .input := by decide

theorem test_witness_RaisedFaultIsLatchedWithTheCursor :
    (withInput [0xA5]).status.fault = false ∧
    ∃ t, exec .brBit (withInput [0xA5]) = .next t ∧ t.status.fault = true := ⟨rfl, _, rfl, rfl⟩

theorem test_witness_NopChangesNothing :
    (0x00FFFFFF : Word).toNat / 2 ^ 24 = 0 ∧ (0x00FFFFFF : Word) ≠ 0 ∧ State.reset.status.fault = false := by decide

theorem test_witness_CommandsInTheWrongModeLatchProtocolFault :
    (Scanning (p2Scan [0x61]) ∧ Instr.brBit ∉ [Instr.nop, .reset, .ccPix, .edMcu, .edScan, .scanEnd]) ∧
    (Manual (p2Manual [0x61]) ∧ Instr.edMcu ∈ [Instr.edMcu, .edScan, .scanEnd]) ∧
    (Manual (withInput [0x61]) ∧ (withInput [0x61]).stream.brv = false) ∧
    Instr.ccPix ∈ [Instr.nop, .reset, .ccPix] ∧ ∃ t, exec .ccPix (p2Scan [0x61]) = .next t :=
  ⟨by decide, by decide, by decide, by decide, _, rfl⟩

/-- V32, V38: without a cursor every command that needs bits latches `ProtocolFault`. -/
theorem test_no_cursor : [Instr.brBit, .brBits 0, .brAlign, .htDec 0 0, .edRcvx 0, .edDc 0, .edAc 0, .edBlock 0, .edRst].all
    (fun i => After (exec i (withInput [0x61])) (faultedAt 11 0)) = true := by decide

theorem test_witness_ScanModeFreezesConfigurationAndTables :
    (∃ t, exec .scanStart (p2Manual [0x61]) = .next t ∧ t.status.scan = true) ∧
    (∃ t, exec .reset (p2Scan [0x61]) = .next t ∧ t.status.scan = false) ∧
    (∃ t, step { p2Manual [0x61] with bus := [.write 0 0x38000000] } = .next t ∧ t.status.scan = true) ∧
    (∃ t, step { p2Scan [0x61] with bus := [.hardReset] } = .next t ∧ t.status.scan = false) ∧
    (∃ t, step { p2Scan [0x61] with bus := [.write 0x14 4] } = .next t ∧ t.status.scan = true) :=
  ⟨⟨_, rfl, rfl⟩, ⟨_, rfl, rfl⟩, ⟨_, rfl, rfl⟩, ⟨_, rfl, rfl⟩, ⟨_, rfl, rfl⟩⟩

/-- RESET clears `FAULT` and `BRV`; a write to `RI` ends the completion of a decode. -/
theorem test_witness_OnlyResetClearsFaultAndCursorFlags :
    (∃ t, step { raiseFault .rangeFault (streamAt [0] 0) with bus := [.write 0 0x01000000] } = .next t ∧
      t.status.fault = false ∧ t.stream.brv = false) ∧
    p2Finished.completed .output = true ∧ p2Finished.completed (.planes [0]) = true ∧ p2Done.completed (.planes []) = true ∧
    p2Done.completed (.planes [0]) = false ∧
    ∃ t, step { p2Finished with bus := [.write 0x28 4] } = .next t ∧ t.status.done = false ∧ t.completed .output = false :=
  ⟨⟨_, rfl, rfl, rfl⟩, by decide, by decide, by decide, by decide, _, rfl, rfl, rfl⟩

theorem test_witness_ResetGivesTheResetValues :
    State.abandoned { p2Scan [0x61] with bus := [.hardReset] } = true ∧
    State.abandoned { p2Scan [0x61] with bus := [.write 0 0x01000000] } = true := by decide

theorem test_witness_PredictorsHaveNoOtherWriters :
    ∃ t, step { streamAt [0] 0 with bus := [.write 0 0x10000000], walk := { Walk.reset with pred := #v[7, 0, 0, 0] } } =
      .next t ∧ t.walk.pred ≠ #v[7, 0, 0, 0] := ⟨_, rfl, by decide⟩

theorem test_witness_ConfigurationWritesFollowTheMode :
    ((p2Manual [0x61]).status.fault = false ∧ (p2Manual [0x61]).status.scan = false) ∧
    (p2Scan [0x61]).status.fault = false ∧ (p2Scan [0x61]).status.scan = true ∧
    0x3C ∈ [0x18, 0x1C, 0x20, 0x24, 0x28, 0x30, 0x34, 0x38, 0x3C] ∧
    ∃ i : Fin 64, 0x3FC = 0x300 + 4 * i.val := ⟨by decide, by decide, by decide, by decide, 63, by decide⟩

theorem test_witness_OtherRegisterWritesTakeTheirRule :
    ((p2Manual [0x61]).status.fault = false ∧ (p2Manual [0x61]).status.scan = false) ∧
    ∀ offset ∈ [0x04, 0x10, 0x2C, 0x40, 0xFC, 0x200, 0x2FC, 0x400, 0xFFC], offset < 0x1000 ∧ offset % 4 = 0 ∧
      offset ∉ [0x00, 0x14, 0x18, 0x1C, 0x20, 0x24, 0x28, 0x30, 0x34, 0x38, 0x3C] ∧
      ¬ (0x100 ≤ offset ∧ offset < 0x200) ∧ ¬ (0x300 ≤ offset ∧ offset < 0x400) := by decide

theorem test_witness_RegisterReadsReturnTheirFields :
    (State.reset.status.fault = false ∧ ¬ State.reset.setup.numComps ∈ [1, 3, 4]) ∧
    ((p2Manual [0x61]).setup.numComps ∈ [1, 3, 4] ∧ ∀ c : Fin 4, c.val < (p2Manual [0x61]).setup.numComps →
      1 ≤ (p2Manual [0x61]).setup.hOf c ∧ (p2Manual [0x61]).setup.hOf c ≤ 4 ∧
      1 ≤ (p2Manual [0x61]).setup.vOf c ∧ (p2Manual [0x61]).setup.vOf c ≤ 4) ∧
    ∀ offset ∈ [0x2C, 0x5C, 0x70, 0xFC, 0x700, 0xFFC], offset < 0x1000 ∧ offset % 4 = 0 ∧
      (offset ∈ [0x2C, 0x5C] ∨ (0x70 ≤ offset ∧ offset < 0x100) ∨ 0x700 ≤ offset) := by decide

theorem test_witness_WindowReadsReturnTheBuffers : (p2Scan [0x61]).status.fault = false := by decide

theorem test_witness_HostReadsMemoriesWhenTheyAreReady :
    3 < p2Finished.setup.inLen.toNat ∧ (0 : Fin 4).val < p2Finished.setup.numComps ∧ p2Finished.status.fault = false ∧
    p2Finished.status.done = true ∧ 63 < p2Finished.setup.planeW 0 * p2Finished.setup.planeH 0 ∧
    p2Finished.status.fullv[(0 : Fin 4)] = true ∧ 63 < p2Finished.setup.w * p2Finished.setup.ht ∧
    p2Finished.status.outv = true ∧
    63 < (if p2Finished.setup.numComps = 1 then 1 else if p2Finished.setup.numComps = 3 then 3 else 0) *
      (p2Finished.setup.w * p2Finished.setup.ht) ∧
    State.reset.spaceReady .out = false ∧ (raiseFault .rangeFault p2Finished).spaceReady (.plane 0) = false := by decide

/-- P1's first byte, stored after reset, is what BR.BIT then reads; under a stream the same byte stored again is no change,
another one is, until SCAN.END for the table loads. -/
theorem test_storeInput :
    After (access (withInput [0x12]) (.storeInput 0 0xA5))
      (fun t => t.input == [(0, 0xA5)] && t.watch == InputWatch.reset && t.inBuf.byte 0 == 0xA5) ∧
    After (access (streamAt [0xA5] 0) (.storeInput 0 0xA5)) (fun t => t == streamAt [0xA5] 0) ∧
    After (access (streamAt [0xA5] 0) (.storeInput 0 0x12))
      (fun t => t.watch.changed == some 0 && t.draws == 1 && storedByte t.input 0 == 0x12) ∧
    After (access { p2Done with watch := { changed := none, ended := true } } (.storeInput 0 0x12))
      (fun t => t.tableBuf.byte 0 == 0x12 && t.inBuf.changed == some 0) := by decide

theorem test_witness_HostStoresWriteTheInputBuffer :
    ((withInput [0x12]).stream.brv = false ∧ (withInput [0x12]).watch.changed = none) ∧
    (streamAt [0xA5] 0).input.read (0 : Word).toNat = some 0xA5 ∧
    (∃ t, access (streamAt [0xA5] 0) (.storeInput 0 0x12) = .next t ∧ t.status.fault = false ∧
      ∃ t', exec .brInit t = .next t' ∧ t'.status.fault = false) ∧
    ∃ t, access (p2Manual [0xA5]) (.storeInput 0 0x12) = .next t ∧ t.status.fault = false ∧
      ∃ t', exec .scanStart t = .next t' ∧ t'.status.fault = false :=
  ⟨by decide, by decide, ⟨_, rfl, rfl, _, rfl, rfl⟩, _, rfl, rfl, _, rfl, rfl⟩

theorem test_witness_BrInitStartsAStream :
    (Manual (withArg [0x12] 1) ∧ (withArg [0x12] 1).arg.toNat ≤ (withArg [0x12] 1).setup.inLen.toNat) ∧
    Manual (withArg [0x12] 2) ∧ (withArg [0x12] 2).setup.inLen.toNat < (withArg [0x12] 2).arg.toNat := by decide

/-- A cursor with bits of the current byte left. -/
def midByte (bytes : List Byte) (pos : Word) (cur : Byte) (cnt : Fin 9) : State :=
  { withInput bytes with stream := { Stream.reset with pos := pos, cur := cur, cnt := cnt, brv := true } }

/-- A cursor at a marker already met. -/
def atMarker (bytes : List Byte) (pos : Word) (markc : Byte) : State :=
  { withInput bytes with stream := { Stream.reset with pos := pos, markf := true, markc := markc, brv := true } }

theorem test_witness_BrBitDeliversTheNextBit_held :
    (Manual (withInput [0xA5]) ∧ (withInput [0xA5]).stream.brv = false) ∧
    (Streaming (midByte [0xA5] 1 0xA5 8) ∧ (midByte [0xA5] 1 0xA5 8).stream.cnt.val = (7 : Fin 8).val + 1) ∧
    (Streaming (midByte [0xA5] 1 0xA5 1) ∧ (midByte [0xA5] 1 0xA5 1).stream.cnt.val = (0 : Fin 8).val + 1) ∧
    Streaming (atMarker [0xFF, 0xD0] 0 0xD0) ∧ (atMarker [0xFF, 0xD0] 0 0xD0).stream.cnt = 0 ∧
    (atMarker [0xFF, 0xD0] 0 0xD0).stream.markf = true := by decide

/-- The bytes of `IN` at the cursor: none; a plain one; a last `FF`; a stuffed `FF`; a marker. -/
theorem test_witness_BrBitDeliversTheNextBit_fetched :
    (Streaming (streamAt [0x12] 1) ∧ (streamAt [0x12] 1).setup.inLen.toNat ≤ (streamAt [0x12] 1).stream.pos.toNat) ∧
    (Streaming (streamAt [0x12] 0) ∧ (streamAt [0x12] 0).inBuf.byte 0 ≠ 0xFF) ∧
    (Streaming (streamAt [0xFF] 0) ∧ (streamAt [0xFF] 0).inBuf.byte 0 = 0xFF ∧ (streamAt [0xFF] 0).setup.inLen.toNat = 0 + 1) ∧
    (Streaming (streamAt [0xFF, 0] 0) ∧ 0 + 1 < (streamAt [0xFF, 0] 0).setup.inLen.toNat ∧
      (streamAt [0xFF, 0] 0).inBuf.byte 0 = 0xFF ∧ (streamAt [0xFF, 0] 0).inBuf.byte (0 + 1) = 0) ∧
    Streaming (streamAt [0xFF, 0xFF] 0) ∧ (streamAt [0xFF, 0xFF] 0).inBuf.byte (0 + 1) ≠ 0 := by decide

theorem test_witness_BrBitsTakesTheNextBitsAsOneValue :
    (Streaming (streamAt [0xA5, 0xFF, 0] 0) ∧ 16 ≤ 16 ∧
      bitsOf (streamAt [0xA5, 0xFF, 0] 0) = numberBits 16 0xA5FF ++ [] ∧ (numberBits 16 0xA5FF).length = 16) ∧
    (Streaming (streamAt [0xA5, 0xFF, 0xD9] 0) ∧ (bitsOf (streamAt [0xA5, 0xFF, 0xD9] 0)).length < 9 ∧
      endOf (streamAt [0xA5, 0xFF, 0xD9] 0) + 1 < (streamAt [0xA5, 0xFF, 0xD9] 0).setup.inLen.toNat) ∧
    (Streaming (atMarker [0xFF, 0xD0] 0 0xD0) ∧ (bitsOf (atMarker [0xFF, 0xD0] 0 0xD0)).length < 1 ∧
      (atMarker [0xFF, 0xD0] 0 0xD0).stream.markf = true) ∧
    Streaming (streamAt [0x12, 0xFF] 0) ∧ (bitsOf (streamAt [0x12, 0xFF] 0)).length < 9 ∧
      (streamAt [0x12, 0xFF] 0).stream.markf = false ∧
      (streamAt [0x12, 0xFF] 0).setup.inLen.toNat ≤ endOf (streamAt [0x12, 0xFF] 0) + 1 := by decide

theorem test_witness_BrAlignDropsTheRestOfTheByte :
    Streaming (midByte [0xA5] 1 0xA5 4) ∧ Manual (withInput [0xA5]) ∧ (withInput [0xA5]).stream.brv = false := by decide

/-- T1 ends exactly at `IN_LEN`; three codes of one bit, 257 symbols, one byte short. -/
theorem test_witness_HtLoadBuildsTheCanonicalTable :
    let fits (s : State) : Bool :=
      let L (l : Nat) : Nat := (s.inBuf.byte (s.arg.toNat + l)).toNat
      decide (s.arg.toNat + 16 ≤ s.setup.inLen.toNat ∧ ((List.range 16).map L).sum ≤ 256 ∧
        s.arg.toNat + 16 + ((List.range 16).map L).sum ≤ s.setup.inLen.toNat) &&
      (List.range 16).all fun l => decide (firstCode L l + L l ≤ 2 ^ (l + 1))
    Manual (withInput t1Bytes) ∧ fits (withInput t1Bytes) = true ∧ fits (withInput (t1Bytes.take 27)) = false ∧
    fits (withInput ([3, 0, 0, 0, 0, 0, 0, 0, 0, 0, 0, 0, 0, 0, 0, 0] ++ [0, 1, 2])) = false := by decide

/-- V21: the code `00` of T1 with bits behind it; V24; V25; an empty slot. -/
theorem test_witness_HtDecDecodesExactlyTheAssignedCodes :
    (Streaming (p2Manual [0x13]) ∧ (p2Manual [0x13]).tables.huff 0 0 = some t1 ∧ Code.Assigned ⟨1, 0⟩ t1 ∧
      bitsOf (p2Manual [0x13]) = Code.bits ⟨1, 0⟩ t1 ++ [false, true, false, false, true, true]) ∧
    (numberBits 16 0xFFFF).length = 16 ∧
    bitsOf (p2Manual [0xFF, 0, 0xFF, 0, 0xFF, 0xD9]) = numberBits 16 0xFFFF ++ [] ∧
    (∀ (l : Fin 16) (j : Fin 6), Code.Assigned ⟨l, j⟩ t1 → ¬ Code.bits ⟨l, j⟩ t1 <+: numberBits 16 0xFFFF) ∧
    (bitsOf (p2Manual [0xFF, 0, 0xFF])).length < 16 ∧
    (∀ (l : Fin 16) (j : Fin 6), Code.Assigned ⟨l, j⟩ t1 → ¬ Code.bits ⟨l, j⟩ t1 <+: numberBits 8 0xFF) ∧
    (p2Manual [0x13]).tables.huff 1 1 = none := by decide

theorem few_codes (l : Fin 16) : (t1.counts[l]).toNat < 6 ∧ (t2.counts[l]).toNat < 6 := by revert l; decide

/-- T1 and T2 have at most five codes of each length, so six tries of each are enough. -/
theorem no_code_begins {t : HuffTable} (ht : t = t1 ∨ t = t2) {bits : List Bool}
    (h : ∀ (l : Fin 16) (j : Fin 6), Code.Assigned ⟨l, j⟩ t → ¬ Code.bits ⟨l, j⟩ t <+: bits) (code : Code)
    (hc : code.Assigned t) : ¬ code.bits t <+: bits := by
  have hj : code.j < 6 := by
    rcases ht with rfl | rfl
    · exact Nat.lt_trans hc (few_codes code.l).1
    · exact Nat.lt_trans hc (few_codes code.l).2
  exact h code.l ⟨code.j, hj⟩ hc

theorem test_witness_NoCodeIsAPrefixOfAnother :
    t1.Built ∧ Code.Assigned ⟨8, 0⟩ t1 ∧ Code.bits ⟨8, 0⟩ t1 <+: Code.bits ⟨8, 0⟩ t1 :=
  ⟨test_built_tables.1, by decide, by decide⟩

theorem test_witness_ExtendUndoesTheEncodersMap :
    (0 < 2 ^ (1 - 1) ∧ 0 < 2 ^ 1) ∧ (2 ^ (11 - 1) ≤ 2047 ∧ 2047 < 2 ^ 11) ∧
    ((2 : Int) ^ (11 - 1) ≤ |(-2047 : Int)| ∧ |(-2047 : Int)| ≤ 2 ^ 11 - 1) ∧
    (2 : Int) ^ (1 - 1) ≤ |(1 : Int)| ∧ |(1 : Int)| ≤ 2 ^ 1 - 1 := by decide

theorem test_witness_EdRcvxSignExtendsTheNextBits :
    (Streaming (streamAt [0x5A, 0x80] 0) ∧ 11 ≤ 11 ∧ (numberBits 11 0x2D4).length = 11 ∧
      bitsOf (streamAt [0x5A, 0x80] 0) = numberBits 11 0x2D4 ++ [false, false, false, false, false]) ∧
    Streaming (streamAt [0x5A] 1) ∧ (bitsOf (streamAt [0x5A] 1)).length < 1 := by decide

/-- The coded block of P2. -/
def p2Coded : CodedBlock :=
  { dc := ⟨2, 1⟩, extra := 0, ac := [⟨⟨1, 0⟩, 3⟩, ⟨⟨1, 1⟩, 0⟩], eob := some ⟨1, 2⟩ }

/-- A DC table whose one code, of one bit, stands for 0x0C. -/
def badDc : HuffTable :=
  { counts := #v[1, 0, 0, 0, 0, 0, 0, 0, 0, 0, 0, 0, 0, 0, 0, 0], nsym := 1, sym := [0x0C]
    first := #v[0, 2, 4, 8, 16, 32, 64, 128, 256, 512, 1024, 2048, 4096, 8192, 16384, 32768]
    offset := #v[0, 1, 1, 1, 1, 1, 1, 1, 1, 1, 1, 1, 1, 1, 1, 1] }

theorem test_bad_table_is_built : badDc.Built := by unfold HuffTable.Built; decide

/-- P2's stream with the predictor given. -/
def p2WithPred (v : BitVec 16) : State :=
  { p2Manual [0x61, 0xAB, 0xFF, 0xD9] with walk := { Walk.reset with pred := Walk.reset.pred.set 0 v } }

theorem test_witness_EdDcDecodesOneDcValue :
    (Streaming (p2WithPred 0) ∧ (p2WithPred 0).tables.huff 0 (slotOfId (p2WithPred 0).setup.comp[(0 : Fin 4)].td) = some t1 ∧
      p2Coded.difference t1 = some (-3) ∧
      bitsOf (p2WithPred 0) = p2Coded.dcBits t1 ++ (numberBits 3 1 ++ numberBits 8 0xAB)) ∧
    Fits16 ((p2WithPred 0).walk.pred[(0 : Fin 4)].toInt + -3) ∧
    ¬ Fits16 ((p2WithPred (-32766)).walk.pred[(0 : Fin 4)].toInt + -3) ∧
    Streaming (streamAt [0x00] 0) ∧ (streamAt [0x00] 0).tables.huff 0 0 = none ∧
    Code.Assigned ⟨0, 0⟩ badDc ∧ 11 < (Code.symbol ⟨0, 0⟩ badDc).toNat ∧
    bitsOf (streamAt [0x00] 0) = Code.bits ⟨0, 0⟩ badDc ++ numberBits 7 0 := by decide

/-- V24 and V25 for ED.DC: sixteen 1 bits, eight of them, and the code of category 11 with seven bits behind it. -/
theorem test_witness_EdDcDecodesOneDcValue_no_code :
    (Streaming (p2Manual [0xFF, 0, 0xFF, 0]) ∧ bitsOf (p2Manual [0xFF, 0, 0xFF, 0]) = numberBits 16 0xFFFF ++ [] ∧
      ∀ code : Code, code.Assigned t1 → ¬ code.bits t1 <+: numberBits 16 0xFFFF) ∧
    ((bitsOf (p2Manual [0xFF, 0])).length < 16 ∧
      ∀ code : Code, code.Assigned t1 → ¬ code.bits t1 <+: bitsOf (p2Manual [0xFF, 0])) ∧
    Code.Assigned ⟨8, 0⟩ t1 ∧ (Code.symbol ⟨8, 0⟩ t1).toNat = 11 ∧
    bitsOf (p2Manual [0xFF, 0, 0]) = Code.bits ⟨8, 0⟩ t1 ++ numberBits 7 0 ∧ (numberBits 7 0).length < 11 :=
  ⟨⟨by decide, by decide, no_code_begins (.inl rfl) (by decide)⟩, ⟨by decide, no_code_begins (.inl rfl) (by decide)⟩,
    by decide, by decide, by decide, by decide⟩

/-- V24 and V25 as ED.DC and ED.AC meet them, and an AC slot never loaded. -/
theorem test_no_code_and_no_table :
    After (exec (.edDc 0) (p2Manual [0xFF, 0, 0xFF, 0])) (faultedAt 5 4) ∧
    After (exec (.edAc 0) (p2Manual [0xFF, 0, 0xFF, 0])) (faultedAt 5 4) ∧
    After (exec (.edAc 0) (p2Manual [0xFF, 0, 0xFF, 0xD9])) (faultedAt 8 2) ∧
    After (exec (.edAc 0) (streamAt [0x35] 0)) (faultedAt 4 0) := by decide

/-- T5 as the AC table of component 0, and a stream of V34. -/
def v34 (bytes : List Byte) : State := { p2Manual bytes with tables := p2Tables.setHuff 1 0 t5 }

/-- P2's AC part, and a block that three ZRL and fifteen coefficients fill, so that no EOB follows (as V34 h). -/
theorem test_witness_EdAcDecodesTheCodedCoefficients :
    (Streaming (p2Manual [0x35, 0x7F]) ∧ (p2Manual [0x35, 0x7F]).tables.huff 1 0 = some t2 ∧
      (p2Coded.coefficients t2 (Vector.replicate 64 0)).map Prod.fst = some 4 ∧
      bitsOf (p2Manual [0x35, 0x7F]) = p2Coded.acBits t2 ++ numberBits 7 0x7F) ∧
    (({ p2Coded with
        ac := List.replicate 3 ⟨⟨2, 1⟩, 0⟩ ++ List.replicate 13 ⟨⟨2, 2⟩, 0⟩ ++ [⟨⟨2, 3⟩, 1⟩], eob := none } :
      CodedBlock).coefficients t5 (Vector.replicate 64 0)).map Prod.fst = some 64 := by decide

/-- V34 i, j, d and g: each kind of bad symbol after legal tokens, with `k` at its boundary. -/
theorem test_witness_EdAcRejectsBadSymbolsAndOverflow :
    (Streaming (v34 [0xBF]) ∧ (v34 [0xBF]).tables.huff 1 0 = some t5 ∧ Code.Assigned ⟨2, 5⟩ t5 ∧
      bitsOf (v34 [0xBF]) = tokensBits t5 [] ++ (Code.bits ⟨2, 5⟩ t5 ++ numberBits 5 0x1F) ∧
      sizeField (Code.symbol ⟨2, 5⟩ t5) = 12) ∧
    (sizeField (Code.symbol ⟨2, 6⟩ t5) = 0 ∧ runField (Code.symbol ⟨2, 6⟩ t5) = 3) ∧
    ((expandAc t5 (List.replicate 3 ⟨⟨2, 1⟩, 0⟩) 1 (Vector.replicate 64 0)).map Prod.fst = some 49 ∧
      sizeField (Code.symbol ⟨2, 1⟩ t5) = 0 ∧ runField (Code.symbol ⟨2, 1⟩ t5) = 15 ∧
      bitsOf (v34 [0x24, 0x9F]) =
        tokensBits t5 (List.replicate 3 ⟨⟨2, 1⟩, 0⟩) ++ (Code.bits ⟨2, 1⟩ t5 ++ numberBits 4 0xF)) ∧
    (expandAc t5 (List.replicate 3 ⟨⟨2, 1⟩, 0⟩ ++ List.replicate 14 ⟨⟨2, 2⟩, 0⟩) 1 (Vector.replicate 64 0)).map Prod.fst =
      some 63 ∧ sizeField (Code.symbol ⟨2, 3⟩ t5) = 1 ∧ runField (Code.symbol ⟨2, 3⟩ t5) = 1 := by decide

/-- After two coefficients the data end behind the code `00` (size 2); they end in, or hold, 1 bits that are no code of T2;
the slot is empty. -/
theorem test_witness_EdAcRejectsBadSymbolsAndOverflow_data_ended :
    (Streaming (p2Manual [0x48]) ∧ (p2Manual [0x48]).tables.huff 1 0 = some t2 ∧
      (expandAc t2 [⟨⟨1, 1⟩, 0⟩, ⟨⟨1, 1⟩, 0⟩] 1 (Vector.replicate 64 0)).map Prod.fst = some 5 ∧
      bitsOf (p2Manual [0x48]) = tokensBits t2 [⟨⟨1, 1⟩, 0⟩, ⟨⟨1, 1⟩, 0⟩] ++ (Code.bits ⟨1, 0⟩ t2 ++ []) ∧
      Code.Assigned ⟨1, 0⟩ t2 ∧ sizeField (Code.symbol ⟨1, 0⟩ t2) = 2 ∧ runField (Code.symbol ⟨1, 0⟩ t2) = 0) ∧
    (bitsOf (p2Manual [0xFF, 0, 0xFF, 0]) = tokensBits t2 [] ++ (numberBits 16 0xFFFF ++ []) ∧
      ∀ code : Code, code.Assigned t2 → ¬ code.bits t2 <+: numberBits 16 0xFFFF) ∧
    (bitsOf (p2Manual [0xFF, 0]) = tokensBits t2 [] ++ numberBits 8 0xFF ∧
      ∀ code : Code, code.Assigned t2 → ¬ code.bits t2 <+: numberBits 8 0xFF) ∧
    Streaming (streamAt [0x35] 0) ∧ (streamAt [0x35] 0).tables.huff 1 0 = none :=
  ⟨by decide, ⟨by decide, no_code_begins (.inr rfl) (by decide)⟩,
    ⟨by decide, no_code_begins (.inr rfl) (by decide)⟩, by decide, by decide⟩

theorem test_witness_EdBlockDecodesTheCodedBlock :
    Streaming (p2WithPred 0) ∧ (p2WithPred 0).tables.huff 0 (slotOfId (p2WithPred 0).setup.comp[(0 : Fin 4)].td) = some t1 ∧
    (p2WithPred 0).tables.huff 1 (slotOfId (p2WithPred 0).setup.comp[(0 : Fin 4)].ta) = some t2 ∧
    p2Coded.difference t1 = some (-3) ∧ Fits16 ((p2WithPred 0).walk.pred[(0 : Fin 4)].toInt + -3) ∧
    p2Coded.coefficients t2 ((Vector.replicate 64 0).set 0 (-3)) = some (4, p2Coef) ∧
    bitsOf (p2WithPred 0) = p2Coded.bits t1 t2 ++ [true, true] := by decide

/-- S8: P2's block, cut after its first byte. -/
theorem test_witness_EdBlockDecodesTheCodedBlock_truncated :
    Streaming (p2Manual [0x61]) ∧ (numberBits 6 0x2A) ≠ [] ∧
    p2Coded.bits t1 t2 = bitsOf (p2Manual [0x61]) ++ numberBits 6 0x2A := by decide

/-- ED.DC without a fault and with one. -/
theorem test_witness_EdBlockIsDcThenAc :
    After (exec (.edDc (fieldOf 0)) (p2WithPred 0)) (fun t => !t.status.fault) ∧
    After (exec (.edDc (fieldOf 0)) (p2Manual [])) (fun t => t.status.fault) := by decide

/-- V32 calls 1 to 3: the differences 5, −5, 0. -/
def v32Coded : List CodedBlock :=
  [{ p2Coded with dc := ⟨2, 2⟩, extra := 5 }, { p2Coded with dc := ⟨2, 2⟩, extra := 2 }, { p2Coded with dc := ⟨1, 0⟩ }]

theorem test_witness_PredictorIsTheSumOfDifferences :
    Streaming (p2Manual [0x96, 0x21]) ∧
    v32Coded.map (fun cb => cb.difference t1) = [5, -5, 0].map some ∧
    (∀ n ≤ 3, Fits16 ((p2Manual [0x96, 0x21]).walk.pred[(0 : Fin 4)].toInt + (([5, -5, 0] : List Int).take n).sum)) ∧
    bitsOf (p2Manual [0x96, 0x21]) = v32Coded.flatMap (fun cb => cb.dcBits t1) ++ [false, true] := by decide

/-- The marker is the last two bytes; one byte short; the next index. -/
theorem test_witness_EdRstConsumesTheExpectedMarker :
    let found (s : State) : Bool := decide (s.stream.pos.toNat + 1 < s.setup.inLen.toNat ∧
      s.inBuf.byte s.stream.pos.toNat = 0xFF ∧ (s.inBuf.byte (s.stream.pos.toNat + 1)).toNat = 0xD0 + s.walk.rstexp.toNat)
    Streaming (streamAt [0xFF, 0xD0] 0) ∧ found (streamAt [0xFF, 0xD0] 0) = true ∧ found (streamAt [0xFF] 0) = false ∧
    found (streamAt [0xFF, 0xD1] 0) = false ∧
    found { streamAt [0xFF, 0xD7] 0 with walk := { Walk.reset with rstexp := 7 } } = true ∧
    Manual (withInput [0xFF]) ∧ (withInput [0xFF]).stream.brv = false := by decide

/-- P5's configuration: 4:2:0, 13 × 10. -/
def p5Setup : Setup :=
  { Setup.reset with
    proc := 0, width := 13, height := 10, ncomp := 3
    comp := #v[{ v := 2, h := 2, tq := 0, td := 0, ta := 0 }, { v := 1, h := 1, tq := 0, td := 0, ta := 0 },
      { v := 1, h := 1, tq := 0, td := 0, ta := 0 }, { v := 0, h := 0, tq := 0, td := 0, ta := 0 }] }

theorem test_witness_accepted_configurations :
    p5Setup.accepted = true ∧ (p2Setup 4).accepted = true ∧ 0 < p5Setup.mcuX ∧ 0 < p5Setup.mcuY ∧
    p5Setup.mcuBlocks 0 0 = [(0, 0, 0), (0, 1, 0), (0, 0, 1), (0, 1, 1), (1, 0, 0), (2, 0, 0)] := by decide

theorem p2Tables_built (cl : Fin 2) (id : Fin 16) (t : HuffTable) (h : p2Tables.huff cl id = some t) : t.Built := by
  have all : ∀ (cl : Fin 2) (id : Fin 16),
      p2Tables.huff cl id = none ∨ p2Tables.huff cl id = some t1 ∨ p2Tables.huff cl id = some t2 := by decide
  rcases all cl id with e | e | e <;> rw [e] at h
  · cases h
  · obtain rfl := Option.some.inj h; exact test_built_tables.1
  · obtain rfl := Option.some.inj h; exact test_built_tables.2.1

/-- P2 in scan mode. -/
def p2Begun : State := p2Scan [0x61, 0xAB, 0xFF, 0xD9]

theorem test_witness_EdMcuDecodesTheCodedMcu :
    Scanning p2Begun ∧ p2Begun.walk.mcuidx.toNat < p2Begun.setup.nmcu ∧ p2Begun.setup.ri = 0 ∧
    (addBlocks p2Begun (mcuBlocksAt p2Begun 0) [p2Coded] (pictureOf p2Begun)).isSome = true ∧
    bitsOf p2Begun = blocksBits p2Begun (mcuBlocksAt p2Begun 0) [p2Coded] ++ [true, true] := by decide

/-- S8: the same, cut after its first byte. -/
theorem test_witness_EdMcuDecodesTheCodedMcu_truncated :
    Scanning (p2Scan [0x61]) ∧ mcuBlocksAt (p2Scan [0x61]) 0 = [] ++ (0, 0, 0) :: [] ∧
    (tablesOf (p2Scan [0x61]) 0).isSome = true ∧
    (addBlock { td := t1, ta := t2, q := q2 } 8 (0, 0, 0) p2Coded (pictureOf (p2Scan [0x61]))).isSome = true ∧
    tablesOf (p2Scan [0x61]) 0 = some { td := t1, ta := t2, q := q2 } ∧
    bitsOf (p2Scan [0x61]) = blocksBits (p2Scan [0x61]) [] [] ++ numberBits 8 0x61 ∧
    p2Coded.bits t1 t2 = numberBits 8 0x61 ++ numberBits 6 0x2A := by decide

/-- P3 before its second MCU, with the bytes at the cursor given. -/
def p3Restart (bytes : List Byte) : State :=
  { p2Scan bytes with
    setup := { p2Setup (BitVec.ofNat 32 bytes.length) with width := 16, ri := 1 }
    walk := { Walk.reset with mcucnt := 1, mcuidx := 1 } }

theorem test_witness_EdMcuRestartsWhenTheIntervalIsUsedUp :
    let found (s : State) : Bool := decide (s.stream.pos.toNat + 1 < s.setup.inLen.toNat ∧
      s.inBuf.byte s.stream.pos.toNat = 0xFF ∧ (s.inBuf.byte (s.stream.pos.toNat + 1)).toNat = 0xD0 + s.walk.rstexp.toNat)
    (Scanning (p3Restart [0xFF, 0xD0]) ∧
      (p3Restart [0xFF, 0xD0]).walk.mcuidx.toNat < (p3Restart [0xFF, 0xD0]).setup.nmcu ∧
      (p3Restart [0xFF, 0xD0]).setup.ri ≠ 0 ∧
      (p3Restart [0xFF, 0xD0]).walk.mcucnt.toNat = (p3Restart [0xFF, 0xD0]).setup.ri.toNat) ∧
    found (p3Restart [0xFF, 0xD0]) = true ∧ found (p3Restart [0xFF, 0xD1]) = false ∧
    { p2Begun with walk := { Walk.reset with mcuidx := 1 } }.setup.nmcu ≤
      { p2Begun with walk := { Walk.reset with mcuidx := 1 } }.walk.mcuidx.toNat := by decide

/-- P2 in scan mode meets the invariant. -/
theorem test_witness_p2_meets_the_invariant : p2Begun.Inv where
  inputWf := by decide
  planeWf := by decide
  fullWf := by decide
  outWf := by decide
  tablesBuilt := p2Tables_built
  errClear := by decide
  errSet := by decide
  streamStarted := by decide
  inputWatched h := absurd h (by decide)
  scanConfigured _ := { accepted := by decide, quants := by decide, huffs := by decide, fits := by decide, started := by decide }
  scanNotDone := by decide
  scanCursor := by decide
  scanCounters := by decide
  scanInterval := by decide
  doneConfigured h := absurd h (by decide)
  doneComplete h := absurd h (by decide)
  outvDone := by decide
  fullvDone := by decide

theorem test_witness_StepKeepsTheInvariant : ∃ s t : State, s.Inv ∧ step s = .next t :=
  ⟨p2Begun, p2Begun, test_witness_p2_meets_the_invariant, rfl⟩

theorem test_witness_EdScanIsTheMcusThenScanEnd : p2Begun.Inv ∧ Scanning p2Begun :=
  ⟨test_witness_p2_meets_the_invariant, by decide⟩

theorem test_witness_EdScanDecodesTheWholeScan :
    p2Begun.setup.ri = 0 ∧ p2Begun.walk.mcuidx.toNat + [[p2Coded]].length = p2Begun.setup.nmcu ∧
    (addMcus p2Begun [[p2Coded]] 0 (pictureOf p2Begun)).isSome = true ∧
    bitsOf p2Begun = mcusBits p2Begun [[p2Coded]] 0 ++ [true, true] ∧ [true, true].length < 8 ∧
    endOf p2Begun + 1 < p2Begun.setup.inLen.toNat ∧ p2Begun.inBuf.byte (endOf p2Begun) = 0xFF ∧
    p2Begun.inBuf.byte (endOf p2Begun + 1) ≠ 0x00 := by decide

/-- One failing check of SCAN.START each, with the checks before it passed (V82), and none. -/
theorem test_witness_ScanStartChecksInOrder :
    let problem (u : Setup) (t : Tables) (cap : Option Nat) : Option FaultKind :=
      { p2Manual [] with setup := u, tables := t, memCap := cap }.scanProblem
    let u := p2Setup 1
    let comp0 (v h tq td ta : BitVec 4) : Vector CompCfg 4 := u.comp.set 0 { v := v, h := h, tq := tq, td := td, ta := ta }
    let p321 : Vector CompCfg 4 := #v[{ v := 1, h := 3, tq := 0, td := 0, ta := 0 },
      { v := 1, h := 2, tq := 0, td := 0, ta := 0 }, { v := 1, h := 1, tq := 0, td := 0, ta := 0 },
      { v := 0, h := 0, tq := 0, td := 0, ta := 0 }]
    Manual (p2Manual []) ∧ (withArg [] 0).arg.toNat ≤ (withArg [] 0).setup.inLen.toNat ∧
    (withArg [] 1).setup.inLen.toNat < (withArg [] 1).arg.toNat ∧
    problem { u with proc := 2 } p2Tables none = some .unsupportedCodingProcess ∧
    problem { u with ncomp := 2 } p2Tables none = some .unsupportedComponentLayout ∧
    problem { u with ncomp := 0 } p2Tables none = some .unsupportedComponentLayout ∧
    problem { u with height := 0 } p2Tables none = some .malformedSegment ∧
    problem { u with comp := comp0 5 1 0 0 0 } p2Tables none = some .malformedSegment ∧
    problem { p5Setup with comp := p321 } p2Tables none = some .unsupportedComponentLayout ∧
    problem { u with comp := comp0 1 1 1 0 0 } p2Tables none = some .undefinedTableReference ∧
    problem { u with comp := comp0 1 1 0 0 2 } p2Tables none = some .undefinedTableReference ∧
    problem u p2Tables (some 63) = some .protocolFault ∧ problem u p2Tables (some 64) = none := by decide

/-- P2 with its MCU decoded and the bytes at the cursor given. -/
def p2Decoded (bytes : List Byte) : State := { p2Scan bytes with walk := { Walk.reset with mcuidx := 1 } }

theorem test_witness_ScanEndRequiresAMarker :
    (Scanning p2Begun ∧ p2Begun.walk.mcuidx.toNat ≠ p2Begun.setup.nmcu) ∧
    (Scanning (p2Decoded [0xFF]) ∧ (p2Decoded [0xFF]).walk.mcuidx.toNat = (p2Decoded [0xFF]).setup.nmcu ∧
      (p2Decoded [0xFF]).setup.inLen.toNat ≤ (p2Decoded [0xFF]).stream.pos.toNat + 1) ∧
    (0 + 1 < (p2Decoded [0xFF, 0]).setup.inLen.toNat ∧ (p2Decoded [0xFF, 0]).inBuf.byte (0 + 1) = 0) ∧
    (p2Decoded [0x00, 0xFF]).inBuf.byte 0 ≠ 0xFF ∧
    (p2Decoded [0xFF, 0xFF]).inBuf.byte 0 = 0xFF ∧ (p2Decoded [0xFF, 0xFF]).inBuf.byte (0 + 1) ≠ 0 := by decide

/-- V50's limits, for both widths. -/
theorem test_witness_QtLoadReadsTheEntries :
    let s (arg : Word) : State := { withArg [] arg with setup := { Setup.reset with inLen := 192 } }
    Manual (s 128) ∧ (s 128).arg.toNat + 64 * 1 ≤ (s 128).setup.inLen.toNat ∧
    (s 64).arg.toNat + 64 * 2 ≤ (s 64).setup.inLen.toNat ∧ (s 129).setup.inLen.toNat < (s 129).arg.toNat + 64 * 1 ∧
    (s 65).setup.inLen.toNat < (s 65).arg.toNat + 64 * 2 := by decide

/-- Also for ZZ.SCAT, IDCT.2D and LS.CLAMP, which need manual mode only. -/
theorem test_witness_DqMulMultipliesExactly :
    Manual (p2Manual []) ∧ (p2Manual []).tables.quant 1 = none ∧ (p2Manual []).tables.quant 0 = some q2 ∧
    (q2[(0 : Fin 64)]).toNat ≠ 0 := by decide

theorem test_witness_BlkReconIsTheFourSteps :
    Manual (p2Manual []) ∧
    (p2Manual []).tables.quant (slotOfId (p2Manual []).setup.comp[(0 : Fin 4)].tq) = some q2 ∧
    (withInput []).tables.quant (slotOfId (withInput []).setup.comp[(0 : Fin 4)].tq) = none := by decide

/-- P3's block: `COEF[0] = 8`, the rest 0. -/
theorem test_witness_DcOnlyBlockGivesAFlatTile :
    let s : State := { p2Manual [] with buf := { zeroBuffers with coef := zeroBuffers.coef.set 0 8 } }
    Manual s ∧ s.tables.quant (slotOfId s.setup.comp[(0 : Fin 4)].tq) = some q2 ∧
    (∀ i : Fin 64, i ≠ 0 → s.buf.coef[i] = 0) ∧
    After (exec (.blkRecon (fieldOf 0)) s) (fun t => t.buf.tile[63] == 144) := by decide

theorem test_witness_UpRunReplicatesTheSamples :
    (Manual p2Done ∧ p2Done.status.done = true ∧ (0 : Fin 4).val < p2Done.setup.numComps ∧ 7 < p2Done.setup.ht ∧
      7 < p2Done.setup.w ∧ p2Done.setup.accepted = true ∧ p2Done.setup.w * p2Done.setup.ht ≤ 64) ∧
    (Manual (p2Manual []) ∧ (p2Manual []).status.done = false) ∧ p2Done.setup.numComps ≤ (1 : Fin 4).val := by decide

theorem test_witness_CcRunAssemblesTheOutput :
    let full (s : State) : Bool := decide (∀ c : Fin 4, c.val < s.setup.numComps → s.status.fullv[c] = true)
    let all (n : Byte) : State := { p2Done with
      setup := { p2Setup 4 with ncomp := n }
      status := { Status.reset with done := true, fullv := Vector.replicate 4 true } }
    (Manual (all 1) ∧ (all 1).status.done = true ∧ full (all 1) = true ∧ (all 1).setup.numComps = 1) ∧
    (full (all 3) = true ∧ (all 3).setup.numComps = 3) ∧ (full (all 4) = true ∧ (all 4).setup.numComps = 4) ∧
    (p2Manual []).status.done = false ∧ full p2Done = false ∧ 7 < (all 1).setup.ht ∧ 7 < (all 1).setup.w := by decide

theorem test_witness_CcPixConvertsThePixelExactly :
    (withArg [] 0xAB80FD00).status.fault = false ∧ (withArg [] 0xAB80FD00).arg.toNat =
      (0x00 : Byte).toNat + (0xFD : Byte).toNat * 2 ^ 8 + (0x80 : Byte).toNat * 2 ^ 16 + (0xAB : Byte).toNat * 2 ^ 24 := by
  decide

/-- The frame statements are about next states: the stream and table commands complete without a fault here. -/
theorem test_witness_frames_of_stream_and_table_commands :
    [(Instr.brInit, p2Begun), (.brBit, p2Begun), (.brBits 16, p2Begun), (.brAlign, p2Begun), (.htDec 0 0, p2Begun),
      (.edRcvx 11, p2Begun), (.edRst, p3Restart [0xFF, 0xD0]), (.edDc 0, p2Begun), (.edAc 0, p2Begun),
      (.edBlock 0, p2Begun)].all (fun p =>
        After (exec p.1 { p.2 with status := Status.reset }) (fun t => !t.status.fault)) = true := by decide

/-- So do the block, scan and output commands here. -/
theorem test_witness_frames_of_block_scan_and_output_commands :
    [(Instr.dqMul 0, p2Manual []), (.zzScat, p2Manual []), (.idct2d, p2Manual []), (.lsClamp, p2Manual []),
      (.blkRecon 0, p2Manual []), (.htLoad 1 15, withInput t1Bytes),
      (.qtLoad 0 15, { p2Manual [] with setup := p2Setup 64 }),
      (.scanStart, p2Manual []), (.scanEnd, p2Decoded [0xFF, 0xD9]), (.edMcu, p2Begun), (.edScan, p2Begun),
      (.upRun 0, p2Done), (.ccRun, p2Finished), (.ccPix, p2Done)].all (fun p =>
        After (exec p.1 p.2) (fun t => !t.status.fault)) = true := by decide

/-- The first byte after P2's one tile is outside every tile that is left to decode. -/
theorem test_witness_ScanCommandsWriteOnlyTheirTiles (n : Nat) (hn : n < p2Begun.setup.nmcu) (bx by' : Nat)
    (h : ((0 : Fin 4), bx, by') ∈ mcuBlocksAt p2Begun n) (row : Nat) (hr : row < 8) (col : Nat) (hc : col < 8) :
    64 ≠ (by' * 8 + row) * p2Begun.setup.planeW 0 + (bx * 8 + col) := by
  have e : p2Begun.setup.nmcu = 1 := by decide
  obtain rfl : n = 0 := by omega
  have blocks : mcuBlocksAt p2Begun 0 = [(0, 0, 0)] := by decide
  have width : p2Begun.setup.planeW 0 = 8 := by decide
  rw [blocks] at h
  obtain ⟨rfl, rfl⟩ : bx = 0 ∧ by' = 0 := by simpa using h
  rw [width]
  omega

end Sys2Proof.Tests
end

section
namespace Sys2Proof.Proofs

open Sys2Proof.Machine Sys2Proof.Laws

/-! ### The word of a command -/

/-- A word with `c = 0` is made of its other three fields (R60). -/
theorem commandWord_fields {w : Word} (h : cField w = 0) : commandWord (opField w) (aField w) (bField w) = w := by
  unfold commandWord
  rw [← h]
  unfold opField aField bField cField
  apply BitVec.eq_of_getLsbD_eq
  intro k hk
  simp only [BitVec.getLsbD_append, BitVec.getLsbD_extractLsb']
  split_ifs <;> (rw [decide_eq_true (by omega), Bool.true_and]; congr 1; omega)

theorem decodePlain_ok {i j : Instr} {a b : Byte} (h : decodePlain i a b = .ok j) : a = 0 ∧ b = 0 ∧ i = j := by
  unfold decodePlain at h
  split at h
  · next hab => exact ⟨hab.1, hab.2, by simpa using h⟩
  · simp at h

theorem decodeA_ok {mk : Byte → Instr} {ok : Byte → Bool} {a b : Byte} {j : Instr}
    (h : decodeA mk ok a b = .ok j) : b = 0 ∧ mk a = j := by
  unfold decodeA at h
  split at h
  · simp at h
  · next hb =>
    split at h
    · exact ⟨by simpa using hb, by simpa using h⟩
    · simp at h

theorem decodeB_ok {mk : Byte → Instr} {ok : Byte → Bool} {a b : Byte} {j : Instr}
    (h : decodeB mk ok a b = .ok j) : a = 0 ∧ mk b = j := by
  unfold decodeB at h
  split at h
  · simp at h
  · next ha =>
    split at h
    · exact ⟨by simpa using ha, by simpa using h⟩
    · simp at h

theorem decodeAB_ok {mk : Byte → Byte → Instr} {okA okB : Byte → Bool} {a b : Byte} {j : Instr}
    (h : decodeAB mk okA okB a b = .ok j) : mk a b = j := by
  unfold decodeAB at h
  split at h
  · simpa using h
  · simp at h

theorem eq_ofNat_of_toNat {op : Byte} {n : Nat} (h : op.toNat = n) : op = BitVec.ofNat 8 n := by simp [← h]

/-- The opcode map sends fields to a command with those fields (R62). -/
theorem decodeOp_ok {op a b : Byte} {i : Instr} (h : decodeOp op a b = .ok i) : encode i = commandWord op a b := by
  unfold decodeOp at h
  split at h
  case h_1 e | h_2 e | h_3 e | h_4 e | h_6 e | h_14 e | h_15 e | h_16 e | h_17 e |
      h_18 e | h_20 e | h_21 e | h_22 e | h_25 e | h_26 e =>
    obtain ⟨rfl, rfl, rfl⟩ := decodePlain_ok h
    rw [eq_ofNat_of_toNat e]; rfl
  case h_5 e | h_10 e | h_11 e | h_12 e | h_13 e | h_23 e | h_24 e =>
    obtain ⟨rfl, rfl⟩ := decodeA_ok h
    rw [eq_ofNat_of_toNat e]; rfl
  case h_19 e =>
    obtain ⟨rfl, rfl⟩ := decodeB_ok h
    rw [eq_ofNat_of_toNat e]; rfl
  case h_7 e | h_8 e | h_9 e =>
    obtain rfl := decodeAB_ok h
    rw [eq_ofNat_of_toNat e]; rfl
  case h_27 => simp at h

/-- A word decodes to a command only if it is that command's encoding (R62). -/
theorem decode_ok {w : Word} {i : Instr} (h : decode w = .ok i) : w = encode i := by
  unfold decode at h
  split at h
  · simp at h
  · next hc => rw [decodeOp_ok h, commandWord_fields (by simpa using hc)]

end Sys2Proof.Proofs
end

section
namespace Sys2Proof.Proofs

open Sys2Proof.Machine Sys2Proof.Laws

/-! ### What a step can do -/

theorem commandWord_some {a : HostAccess} {w : Word} (h : a.commandWord = some w) : a = .write 0 w := by
  cases a with
  | write offset v =>
    simp only [HostAccess.commandWord] at h
    split at h
    · next h0 => rw [h0, Option.some.inj h]
    · simp at h
  | read | narrow | storeInput | readMemory | hardReset => simp [HostAccess.commandWord] at h

/-- A step is idle (R263), runs a command (R60), rejects a word that is none (R63), or is another access (R52). -/
theorem step_cases {s t : State} (h : step s = .next t) :
    (s.bus = [] ∧ t = s) ∨ ∃ a rest, s.bus = a :: rest ∧
      ((∃ i, a = .write 0 (encode i) ∧ exec i { s with bus := rest } = .next t) ∨
        t = rejectWord { s with bus := rest } ∨
        (a.commandWord = none ∧ hostAccess a { s with bus := rest } = .next t)) := by
  unfold step nextAccess at h
  cases hb : s.bus with
  | nil =>
    rw [hb] at h
    exact .inl ⟨rfl, by simpa using h.symm⟩
  | cons a rest =>
    refine .inr ⟨a, rest, rfl, ?_⟩
    rw [hb] at h
    cases hw : a.commandWord with
    | none =>
      simp only [hw] at h
      exact .inr (.inr ⟨rfl, h⟩)
    | some w =>
      simp only [hw, runWord] at h
      split at h
      · next i hd => exact .inl ⟨i, by rw [commandWord_some hw, decode_ok hd], h⟩
      · exact .inr (.inl (by simpa using h.symm))

/-! ### The invariant -/

theorem manual_iff {s : State} : s.manual = true ↔ s.status.scan = false := by simp [State.manual]

/-- A decode in manual mode, its value written to `RESULT`, keeps the invariant. -/
theorem decode_keeps {α : Type} {s : State} {r : Res State α} (h : s.Inv) (hb : s.stream.brv = true)
    (hd : Leaves (Decoding s) r) (hk : BlockKind r) : Keeps r := ⟨Leaves.inv hd h hb, hk⟩

theorem decodeToResult_keeps {s : State} (h : s.Inv) (hb : s.stream.brv = true) (cl : Fin 2) (id : Fin 16) :
    Keeps (decodeToResult cl id s) :=
  Keeps.result (decode_keeps h hb ((decodeSymbol_coding 0 s _).mono fun _ hc => hc.decoding)
    (decodeSymbol_kind _ _ _).onStream) _

theorem receiveToResult_keeps {s : State} (h : s.Inv) (hb : s.stream.brv = true) (n : Nat) :
    Keeps (receiveToResult n s) :=
  Keeps.result (decode_keeps h hb ((receiveExtend_coding 0 s n).mono fun _ hc => hc.decoding)
    (receiveExtend_kind _ _ _).onStream) _

/-- The component `comp` of UP.RUN (R181) is the one its index selects. -/
theorem componentIndex_val {comp : Byte} (h : componentOk comp = true) : (componentIndex comp).val = comp.toNat := by
  simp only [componentOk, decide_eq_true_eq] at h
  exact Nat.mod_eq_of_lt (by omega)

/-- Every command keeps the invariant. -/
theorem exec_inv {i : Instr} {s t : State} (h : s.Inv) (ht : exec i s = .next t) : t.Inv := by
  unfold exec at ht
  cases i with
  | nop =>
    refine command_inv h (fun _ _ => ?_) ht
    exact ⟨h, True.intro⟩
  | reset =>
    cases ht
    exact resetBlock_inv h.inputWf
  | brInit =>
    refine command_inv h (fun _ ho => ?_) ht
    exact ⟨startStream_inv h (manual_iff.1 (Bool.and_eq_true_iff.1 ho).1), True.intro⟩
  | brBit =>
    refine command_inv h (fun _ ho => ?_) ht
    exact reportBits_keeps h (manualStream_parts ho).2 (nextBit_moved (inBuf_len_lt s) s.stream)
  | brBits n =>
    refine command_inv h (fun _ ho => ?_) ht
    exact reportBits_keeps h (manualStream_parts (Bool.and_eq_true_iff.1 ho).2).2
      (nextBitsFrom_moved (inBuf_len_lt s) n.toNat 0 s.stream)
  | brAlign =>
    refine command_inv h (fun _ ho => ?_) ht
    exact ⟨(align_decoding s).walking.inv h (manualStream_parts ho).2, True.intro⟩
  | htLoad cl id =>
    exact command_inv h (fun _ ho => loadHuffman_keeps h (manual_iff.1 (Bool.and_eq_true_iff.1 ho).2) _ _) ht
  | htDec cl id =>
    exact command_inv h (fun _ ho => decodeToResult_keeps h (manualStream_parts (Bool.and_eq_true_iff.1 ho).2).2 _ _) ht
  | qtLoad prec id =>
    exact command_inv h (fun _ ho => loadQuant_keeps h (manual_iff.1 (Bool.and_eq_true_iff.1 ho).2) _ _) ht
  | edRcvx n =>
    exact command_inv h (fun _ ho => receiveToResult_keeps h (manualStream_parts (Bool.and_eq_true_iff.1 ho).2).2 _) ht
  | edDc comp =>
    refine command_inv h (fun _ ho => Keeps.result (decode_keeps h ?_ ?_ (decodeDc_kind _ s)) _) ht
    · exact (manualStream_parts (Bool.and_eq_true_iff.1 ho).2).2
    · exact (decodeDc_coding _ s).mono fun _ hc => hc.decoding
  | edAc comp =>
    refine command_inv h (fun _ ho => Keeps.result (decode_keeps h ?_ ?_ (decodeAcFrom_kind _ _ _ _)) _) ht
    · exact (manualStream_parts (Bool.and_eq_true_iff.1 ho).2).2
    · exact (decodeAc_coding _ s).mono fun _ hc => hc.decoding
  | edBlock comp =>
    refine command_inv h (fun _ ho => Keeps.result (decode_keeps h ?_ ?_ (decodeBlock_kind _ s)) _) ht
    · exact (manualStream_parts (Bool.and_eq_true_iff.1 ho).2).2
    · exact (decodeBlock_coding _ s).mono fun _ hc => hc.decoding
  | edRst =>
    exact command_inv h (fun _ ho => Keeps.result (restartSync_keeps h (manualStream_parts ho).2) _) ht
  | edMcu =>
    refine command_inv h (fun _ ho => ?_) ht
    obtain ⟨hs, hlt⟩ := Bool.and_eq_true_iff.1 ho
    exact mcuBody_keeps h hs (of_decide_eq_true hlt)
  | edScan => exact command_inv h (fun _ ho => scanBody_keeps h ho) ht
  | scanStart =>
    refine command_inv h (fun _ ho => ?_) ht
    obtain ⟨hm, ha⟩ := Bool.and_eq_true_iff.1 ho
    exact scanStartBody_keeps h (manual_iff.1 hm) ha
  | scanEnd =>
    refine command_inv h (fun _ ho => ?_) ht
    obtain ⟨hs, heq⟩ := Bool.and_eq_true_iff.1 ho
    exact scanEndBody_keeps h hs (of_decide_eq_true heq)
  | dqMul id => exact command_inv h (fun _ _ => multiplyBy_keeps h _) ht
  | zzScat | idct2d | lsClamp =>
    refine command_inv h (fun _ _ => ?_) ht
    exact ⟨buffers_inv h _, True.intro⟩
  | blkRecon comp => exact command_inv h (fun _ _ => recon_keeps h _) ht
  | upRun comp =>
    refine command_inv h (fun _ ho => ?_) ht
    simp only [Bool.and_eq_true, decide_eq_true_eq] at ho
    obtain ⟨⟨⟨hc, hm⟩, hd⟩, hlt⟩ := ho
    exact ⟨upsample_inv h (manual_iff.1 hm) hd (by rwa [componentIndex_val hc]), True.intro⟩
  | ccRun =>
    refine command_inv h (fun _ ho => assembleOutput_keeps h ?_) ht
    exact (Bool.and_eq_true_iff.1 (Bool.and_eq_true_iff.1 ho).1).2
  | ccPix =>
    refine command_inv h (fun _ _ => ?_) ht
    exact ⟨setResult_inv h _, True.intro⟩

/-- Settles O10: a step is idle, a command, a rejected word or another access, and each keeps the invariant. -/
theorem stepKeepsTheInvariant : Obligations.StepKeepsTheInvariant := by
  intro s t h ht
  rcases step_cases ht with ⟨_, rfl⟩ | ⟨a, rest, _, ⟨i, _, hi⟩ | rfl | ⟨_, ha⟩⟩
  · exact h
  all_goals have hr := hostSide_inv h rest s.arg s.rdata s.draws
  · exact exec_inv hr hi
  · exact rejectWord_inv hr
  · exact hostAccess_inv hr ha

end Sys2Proof.Proofs
end

section
namespace Sys2Proof.Proofs

open Sys2Proof.Machine Sys2Proof.Laws

/-- Settles O9: every clause but the canonical forms is about a flag, and a reset clears them all. -/
theorem resetStateMeetsTheInvariant : Obligations.ResetStateMeetsTheInvariant := by
  have h : (resetBlock State.reset).Inv := resetBlock_inv List.Pairwise.nil
  exact
    { h with
      scanConfigured := fun hs => absurd hs Bool.false_ne_true
      doneConfigured := fun hd => absurd hd Bool.false_ne_true }

/-! ### Geometry -/

/-- The maximum of a list is the start value or is attained. -/
theorem foldl_max_attained {α : Type} (l : List α) (f : α → Nat) (m : Nat) :
    l.foldl (fun m c => max m (f c)) m = m ∨ ∃ x ∈ l, f x = l.foldl (fun m c => max m (f c)) m := by
  induction l generalizing m with
  | nil => exact .inl rfl
  | cons a l ih =>
    simp only [List.foldl_cons, List.mem_cons, exists_eq_or_imp]
    rcases ih (max m (f a)) with h | h
    · rw [h]
      rcases le_total (f a) m with hle | hle
      · exact .inl (max_eq_left hle)
      · exact .inr (.inl (max_eq_right hle).symm)
    · exact .inr (.inr h)

/-- A factor's positive maximum is some component's. -/
theorem comps_max_attained {u : Setup} {f : Fin 4 → Nat} (h : 1 ≤ u.comps.foldl (fun m c => max m (f c)) 0) :
    ∃ c : Fin 4, c.val < u.numComps ∧ f c = u.comps.foldl (fun m c => max m (f c)) 0 := by
  rcases foldl_max_attained u.comps f 0 with h0 | ⟨c, hc, he⟩
  · omega
  · exact ⟨c, mem_comps.1 hc, he⟩

/-- One less than the ceiling does not cover. -/
theorem ceilDiv_pred_mul_lt {a b : Nat} (ha : 0 < a) (hb : 0 < b) : (ceilDiv a b - 1) * b < a := by
  have h := Nat.div_mul_le_self (a + b - 1) b
  rw [Nat.sub_mul, Nat.one_mul]
  unfold ceilDiv
  omega

/-- Settles O46, from the parts of an accepted configuration. -/
theorem geometryOfAnAcceptedConfiguration : Obligations.GeometryOfAnAcceptedConfiguration := by
  intro u hu
  obtain ⟨_, _, hw, hht, _, _⟩ := accepted_parts hu
  obtain ⟨hh, _, hv, _⟩ := hMax_bounds hu
  exact ⟨fun c hc => ⟨hOf_le_hMax hc, vOf_le_vMax hc⟩, comps_max_attained hh, comps_max_attained hv,
    ceilDiv_pred_mul_lt hw (by omega), le_ceilDiv_mul _ (by omega), ceilDiv_pred_mul_lt hht (by omega),
    le_ceilDiv_mul _ (by omega), rfl, nmcu_le u, fun c => ⟨rfl, rfl⟩⟩

end Sys2Proof.Proofs
end

section
namespace Sys2Proof.Proofs

open Sys2Proof.Machine Sys2Proof.Laws

/-! ### What a run leaves alone -/

theorem Leaves.and {σ α : Type} {P Q : σ → Prop} {r : Res σ α} (hp : Leaves P r) (hq : Leaves Q r) :
    Leaves (fun t => P t ∧ Q t) r := by
  cases r <;> exact ⟨hp, hq⟩

/-- Configuration, tables, flags and the cursor's validity are as they were. -/
structure Steady (s t : State) : Prop where
  setup : t.setup = s.setup
  tables : t.tables = s.tables
  memCap : t.memCap = s.memCap
  status : t.status = s.status
  brv : t.stream.brv = s.stream.brv

theorem Steady.refl (s : State) : Steady s s := ⟨rfl, rfl, rfl, rfl, rfl⟩

theorem Steady.trans {s t u : State} (h : Steady s t) (h' : Steady t u) : Steady s u :=
  ⟨h'.setup.trans h.setup, h'.tables.trans h.tables, h'.memCap.trans h.memCap, h'.status.trans h.status,
    h'.brv.trans h.brv⟩

theorem steady_of_walking {s t : State} (h : Walking s t) : Steady s t :=
  ⟨h.setup, h.tables, by rw [h.only], h.status, h.moved.brv⟩

theorem countMcu_steady (s : State) : Steady s (countMcu s) := ⟨rfl, rfl, rfl, rfl, rfl⟩

theorem mcuBody_steady (s : State) : Leaves (Steady s) (mcuBody s) := by
  cases hm : mcuBody s with
  | raised k u => exact steady_of_walking (mcuBody_raised hm)
  | ok _ u =>
    obtain ⟨t, t', _, hw, hd, _, rfl⟩ := mcuBody_ok hm
    exact (steady_of_walking (hw.trans hd.walking)).trans (countMcu_steady t')

theorem mcus_steady (n : Nat) (s : State) : Leaves (Steady s) (mcus n s) := by
  induction n generalizing s with
  | zero => exact .refl s
  | succ n ih => exact (mcuBody_steady s).bind fun _ t h => (ih t).mono fun _ => h.trans

/-! ### What a command can do to modes, flags, configuration, tables and predictors -/

/-- The commands that write the predictors (R12). -/
def WritesPredictors (i : Instr) : Prop :=
  i ∈ [.edMcu, .edScan, .brInit, .scanStart, .edRst, .reset] ∨ (∃ c, i = .edDc c) ∨ ∃ c, i = .edBlock c

/-- `DONE`, `OUTV` and `FULLV` are not cleared. -/
structure KeepsFlags (f g : Status) : Prop where
  done : f.done = true → g.done = true
  outv : f.outv = true → g.outv = true
  fullv : ∀ c : Fin 4, f.fullv[c] = true → g.fullv[c] = true

/-- What a command other than RESET can do to modes, flags, configuration, tables and predictors. -/
structure Effect (i : Instr) (s t : State) : Prop where
  setup : t.setup = s.setup
  memCap : t.memCap = s.memCap
  tables : s.status.scan = true → t.tables = s.tables
  entered : s.status.scan = false → t.status.scan = true → i = .scanStart
  left : s.status.scan = true → t.status.scan = false → i = .scanEnd ∨ i = .edScan
  fault : s.status.fault = true → t.status.fault = true
  brv : s.stream.brv = true → t.stream.brv = true
  flags : i ≠ .scanStart → KeepsFlags s.status t.status
  pred : t.walk.pred = s.walk.pred ∨ WritesPredictors i

variable {i : Instr} {s t u : State}

/-- A steady run, then one with the effect. -/
theorem Steady.then (h : Steady s u) (hp : u.walk.pred = s.walk.pred ∨ WritesPredictors i) (h' : Effect i u t) :
    Effect i s t := by
  obtain ⟨setup, memCap, tables, entered, left, fault, brv, flags, pred⟩ := h'
  rw [h.status] at tables entered left fault flags
  refine ⟨setup.trans h.setup, memCap.trans h.memCap, fun hs => (tables hs).trans h.tables, entered, left, fault,
    fun hb => brv (h.brv.trans hb), flags, ?_⟩
  rcases pred with hpu | hw
  · rw [hpu]; exact hp
  · exact .inr hw

theorem Effect.refl (i : Instr) (s : State) : Effect i s s :=
  ⟨rfl, rfl, fun _ => rfl, fun h h' => absurd (h.symm.trans h') Bool.false_ne_true,
    fun h h' => absurd (h'.symm.trans h) Bool.false_ne_true, id, id, fun _ => ⟨id, id, fun _ => id⟩, .inl rfl⟩

theorem Steady.effect (h : Steady s t) (hp : t.walk.pred = s.walk.pred ∨ WritesPredictors i) : Effect i s t :=
  h.then hp (.refl i t)

theorem Effect.setResult (h : Effect i s t) (v : Word) : Effect i s (setResult v t) := { h with }

theorem Effect.faultCommand (h : Effect i s t) (k : FaultKind) : Effect i s (faultCommand k t) :=
  { h with fault := fun _ => rfl, flags := fun hi => ⟨(h.flags hi).done, (h.flags hi).outv, (h.flags hi).fullv⟩ }

/-- Pseudocode with the effect, then its value to `RESULT`. -/
theorem leaves_effect_result {α : Type} {r : Res State α} (h : Leaves (Effect i s) r) (f : α → Word) :
    Leaves (Effect i s) (r.bind fun v t => .ok () (setResult (f v) t)) :=
  h.bind fun _ _ ht => ht.setResult _

/-- A command has the effect if its pseudocode has it where it runs. -/
theorem command_effect {ok : State → Bool} {body : State → Res State Unit}
    (ht : command ok body s = .next t) (hb : ok s = true → Leaves (Effect i s) (body s)) : Effect i s t := by
  rcases command_cases ht with ⟨_, rfl⟩ | ⟨_, _, rfl⟩ | ⟨_, ho, hbt⟩ | ⟨_, ho, k, u, hbt, rfl⟩
  · exact .refl i t
  · exact (Effect.refl i s).faultCommand _
  · have h := hb ho
    rwa [hbt] at h
  · have h := hb ho
    rw [hbt] at h
    exact h.faultCommand k

/-! ### The commands' pseudocode -/

theorem stream_effect (i : Instr) {r : Stream} (h : r.brv = s.stream.brv) : Effect i s { s with stream := r } :=
  Steady.effect ⟨rfl, rfl, rfl, rfl, h⟩ (.inl rfl)

theorem buffers_effect (i : Instr) (s : State) (f : Buffers) : Effect i s { s with buf := f } :=
  Steady.effect ⟨rfl, rfl, rfl, rfl, rfl⟩ (.inl rfl)

theorem reportBits_effect (i : Instr) {p : BitResult Nat × Stream} (h : p.2.brv = s.stream.brv) :
    Leaves (Effect i s) (reportBits s p) := by
  have hs := stream_effect i h
  obtain ⟨_ | _ | _, r⟩ := p
  · exact hs.setResult _
  · exact hs.setResult _
  · exact hs

theorem decodeSymbol_effect (i : Instr) (s : State) (slot : Option HuffTable) :
    Leaves (Effect i s) ((decodeSymbol s.inBuf slot s.stream).onStream s) :=
  ((decodeSymbol_moved (inBuf_len_lt s) slot s.stream).mono fun _ hm => stream_effect i hm.brv).onStream

theorem receiveExtend_effect (i : Instr) (s : State) (n : Nat) :
    Leaves (Effect i s) ((receiveExtend s.inBuf n s.stream).onStream s) :=
  ((receiveExtend_moved (inBuf_len_lt s) n s.stream).mono fun _ hm => stream_effect i hm.brv).onStream

/-- Decoding by a command that may write the predictors. -/
theorem coding_effect {c : Fin 4} (hi : WritesPredictors i) (h : Coding c s t) : Effect i s t :=
  (steady_of_walking h.decoding.walking).effect (.inr hi)

theorem decodeAc_effect (i : Instr) (c : Fin 4) (s : State) : Leaves (Effect i s) (decodeAc c s) :=
  (Leaves.and (decodeAc_coding c s) (decodeAc_keeps c s)).mono fun _ ⟨hc, hw, _⟩ =>
    (steady_of_walking hc.decoding.walking).effect (.inl (by rw [hw]))

theorem recon_effect (i : Instr) (c : Fin 4) (s : State) : Leaves (Effect i s) (recon c s) := by
  unfold recon
  split
  · exact .refl i s
  · exact buffers_effect i s _

theorem multiplyBy_effect (i : Instr) (id : Fin 16) (s : State) : Leaves (Effect i s) (multiplyBy id s) := by
  unfold multiplyBy
  split
  · exact .refl i s
  · exact buffers_effect i s _

/-- In manual mode a table may change. -/
theorem tables_effect (i : Instr) (hs : s.status.scan = false) (tables : Tables) :
    Effect i s { s with tables := tables } :=
  { Effect.refl i s with tables := fun h => absurd (hs.symm.trans h) Bool.false_ne_true }

theorem loadHuffman_effect (i : Instr) (hs : s.status.scan = false) (cl : Fin 2) (id : Fin 16) :
    Leaves (Effect i s) (loadHuffman cl id s) := by
  unfold loadHuffman
  split
  · exact .refl i s
  · exact (tables_effect i hs _).setResult _

theorem loadQuant_effect (i : Instr) (hs : s.status.scan = false) (wide : Bool) (id : Fin 16) :
    Leaves (Effect i s) (loadQuant wide id s) := by
  unfold loadQuant
  split
  · exact .refl i s
  · exact (tables_effect i hs _).setResult _

theorem startStream_effect (hi : WritesPredictors i) (s : State) : Effect i s (startStream s) :=
  { Effect.refl i s with brv := fun _ => rfl, pred := .inr hi }

theorem scanStartBody_effect (s : State) : Leaves (Effect .scanStart s) (scanStartBody s) := by
  unfold scanStartBody
  split
  · exact .refl _ s
  · exact
      { startStream_effect (.inl (by simp)) s with
        entered := fun _ _ => rfl
        left := fun _ h => absurd h.symm Bool.false_ne_true
        flags := fun h => absurd rfl h }

theorem scanEndBody_effect (hi : i = .scanEnd ∨ i = .edScan) (s : State) : Leaves (Effect i s) (scanEndBody s) := by
  have ha : Effect i s { s with stream := alignStream s.stream } := stream_effect i rfl
  unfold scanEndBody
  simp only
  split
  · exact ha
  · split
    · exact ha
    · exact
        { ha with
          entered := fun _ h => absurd h Bool.false_ne_true
          left := fun _ _ => hi
          flags := fun _ => ⟨fun _ => rfl, id, fun _ => id⟩ }

theorem scanBody_effect (s : State) : Leaves (Effect .edScan s) (scanBody s) := by
  have hw : WritesPredictors .edScan := .inl (by simp)
  exact Leaves.bind' (mcus_steady _ s) (fun _ h => h.effect (.inr hw)) fun _ t h =>
    (scanEndBody_effect (.inr rfl) t).mono fun _ ht => h.then (.inr hw) ht

theorem upsample_effect (i : Instr) (c : Fin 4) (s : State) : Effect i s (upsample c s) :=
  { Effect.refl i s with
    flags := fun _ => ⟨id, id, fun c' h => by
      simp only [upsample_status, Fin.getElem_fin, Vector.getElem_set]
      split
      · rfl
      · exact h⟩ }

theorem assembleOutput_effect (i : Instr) (s : State) : Leaves (Effect i s) (assembleOutput s) := by
  unfold assembleOutput
  split
  · exact .refl i s
  · exact { Effect.refl i s with flags := fun _ => ⟨id, fun _ => rfl, fun _ => id⟩ }

/-- What every command but RESET can do. -/
theorem exec_effect (hi : i ≠ .reset) (ht : exec i s = .next t) : Effect i s t := by
  unfold exec at ht
  cases i with
  | nop => exact command_effect ht (fun _ => Effect.refl _ s)
  | reset => exact absurd rfl hi
  | brInit => exact command_effect ht (fun _ => startStream_effect (.inl (by simp)) s)
  | brBit => exact command_effect ht (fun _ => reportBits_effect _ (nextBit_moved (inBuf_len_lt s) _).brv)
  | brBits n => exact command_effect ht (fun _ => reportBits_effect _ (nextBitsFrom_moved (inBuf_len_lt s) _ 0 _).brv)
  | brAlign => exact command_effect ht (fun _ => stream_effect _ rfl)
  | htLoad cl id =>
    exact command_effect ht (fun ho => loadHuffman_effect _ (manual_iff.1 (Bool.and_eq_true_iff.1 ho).2) _ _)
  | htDec cl id => exact command_effect ht (fun _ => leaves_effect_result (decodeSymbol_effect _ s _) _)
  | qtLoad prec id =>
    exact command_effect ht (fun ho => loadQuant_effect _ (manual_iff.1 (Bool.and_eq_true_iff.1 ho).2) _ _)
  | edRcvx n => exact command_effect ht (fun _ => leaves_effect_result (receiveExtend_effect _ s _) _)
  | edDc comp =>
    exact command_effect ht (fun _ => leaves_effect_result
      ((decodeDc_coding _ s).mono fun _ => coding_effect (.inr (.inl ⟨comp, rfl⟩))) _)
  | edAc comp => exact command_effect ht (fun _ => leaves_effect_result (decodeAc_effect _ _ s) _)
  | edBlock comp =>
    exact command_effect ht (fun _ => leaves_effect_result
      ((decodeBlock_coding _ s).mono fun _ => coding_effect (.inr (.inr ⟨comp, rfl⟩))) _)
  | edRst =>
    exact command_effect ht (fun _ => leaves_effect_result
      ((restartSync_walking s).mono fun _ h => (steady_of_walking h).effect (.inr (.inl (by simp)))) _)
  | edMcu =>
    exact command_effect ht (fun _ => (mcuBody_steady s).mono fun _ h => h.effect (.inr (.inl (by simp))))
  | edScan => exact command_effect ht (fun _ => scanBody_effect s)
  | scanStart => exact command_effect ht (fun _ => scanStartBody_effect s)
  | scanEnd => exact command_effect ht (fun _ => scanEndBody_effect (.inl rfl) s)
  | dqMul id => exact command_effect ht (fun _ => multiplyBy_effect _ _ s)
  | zzScat | idct2d | lsClamp => exact command_effect ht (fun _ => buffers_effect _ s _)
  | blkRecon comp => exact command_effect ht (fun _ => recon_effect _ _ s)
  | upRun comp => exact command_effect ht (fun _ => upsample_effect _ _ s)
  | ccRun => exact command_effect ht (fun _ => assembleOutput_effect _ s)
  | ccPix => exact command_effect ht (fun _ => (Effect.refl _ s).setResult _)

end Sys2Proof.Proofs
end

section
namespace Sys2Proof.Proofs

open Sys2Proof.Machine Sys2Proof.Laws

variable {s t : State}

/-! ### What the host's accesses can do

An access that leaves modes, flags, configuration, tables and predictors alone has the effect NOP may have. -/

/-- The offsets of the configuration registers (R16, R19). -/
def configOffsets : List Nat := [0x18, 0x1C, 0x20, 0x24, 0x28, 0x30, 0x34, 0x38, 0x3C]

/-- The configuration registers (R19). -/
def isConfig : Reg → Bool
  | .inLen | .proc | .frame | .ncomp | .ri | .comp _ => true
  | _ => false

theorem lowReg_config {n : Nat} (h : isConfig (lowReg n) = true) : n ∈ configOffsets := by
  unfold lowReg at h
  split at h <;> simp [isConfig, configOffsets] at h ⊢

theorem regAt_config {n : Nat} (h : isConfig (regAt n) = true) : n ∈ configOffsets := by
  unfold regAt at h
  split at h
  · exact lowReg_config h
  · split_ifs at h <;> simp [isConfig] at h

theorem raiseFault_effect (i : Instr) (k : FaultKind) (s : State) : Effect i s (raiseFault k s) :=
  { Effect.refl i s with fault := fun _ => rfl, flags := fun _ => ⟨id, id, fun _ => id⟩ }

/-- A write to a configuration register in manual mode (R19). -/
def SetupWritten (s t : State) : Prop :=
  s.status.scan = false ∧ ∃ u : Setup, t = { s with setup := u, status := s.status.clearDecode }

theorem writeSetup_cases (f : Setup → Setup) (s : State) :
    Effect .nop s (writeSetup f s) ∨ SetupWritten s (writeSetup f s) := by
  unfold writeSetup
  split
  · exact .inl (raiseFault_effect _ _ s)
  · next h => exact .inr ⟨by simpa using h, _, rfl⟩

theorem writeWindow_effect (f : Buffers → Buffers) (s : State) : Effect .nop s (writeWindow f s) := by
  unfold writeWindow
  split
  · exact raiseFault_effect _ _ s
  · exact buffers_effect _ s _

theorem writeReg_cases (r : Reg) (w : Word) (s : State) :
    Effect .nop s (writeReg r w s) ∨ (isConfig r = true ∧ SetupWritten s (writeReg r w s)) := by
  unfold writeReg
  split
  · exact .inl (.refl _ s)
  · cases r
    case inLen | proc | frame | ncomp | ri | comp => exact (writeSetup_cases _ s).imp_right fun h => ⟨rfl, h⟩
    case coef | nat => exact .inl (writeWindow_effect _ s)
    case arg => exact .inl { Effect.refl _ s with }
    all_goals exact .inl (.refl _ s)

theorem readReg_effect (r : Reg) (s : State) : Effect .nop s (readReg r s) := by
  unfold readReg
  split <;> exact { Effect.refl _ s with }

theorem hostStoreInput_effect (a : Word) (v : Byte) (s : State) : Effect .nop s (hostStoreInput a v s) := by
  unfold hostStoreInput
  simp only
  split <;> exact { Effect.refl _ s with }

/-- An access other than a command is the hardware reset, a write to a configuration register, or no more than NOP. -/
theorem hostAccess_cases {a : HostAccess} (h : hostAccess a s = .next t) :
    (a = .hardReset ∧ t = resetBlock s) ∨ Effect .nop s t ∨
    ∃ offset w, a = .write offset w ∧ offset.toNat ∈ configOffsets ∧ SetupWritten s t := by
  cases a with
  | write offset w =>
    simp only [hostAccess, hostWrite] at h
    split_ifs at h
    · cases h; exact .inr (.inl (.refl _ s))
    · cases h
      exact .inr ((writeReg_cases _ w s).imp_right fun ⟨hr, hw⟩ => ⟨offset, w, rfl, regAt_config hr, hw⟩)
  | read offset =>
    simp only [hostAccess, hostRead] at h
    split_ifs at h
    · cases h; exact .inr (.inl (.refl _ s))
    · cases h; exact .inr (.inl (readReg_effect _ s))
  | narrow offset =>
    simp only [hostAccess, hostNarrow] at h
    split_ifs at h
    cases h; exact .inr (.inl (.refl _ s))
  | storeInput a v =>
    cases h; exact .inr (.inl (hostStoreInput_effect a v s))
  | readMemory sp a =>
    simp only [hostAccess, hostReadMemory] at h
    split_ifs at h
    all_goals cases h; exact .inr (.inl { Effect.refl _ s with })
  | hardReset =>
    cases h; exact .inl ⟨rfl, rfl⟩

theorem rejectWord_effect (s : State) : Effect .nop s (rejectWord s) := by
  unfold rejectWord
  split
  · exact .refl _ s
  · exact (Effect.refl _ s).faultCommand _

/-! ### What a step can do -/

/-- The host's next access is a reset (R250, R251). -/
def ResetNext (s : State) : Prop :=
  ∃ rest, s.bus = .hardReset :: rest ∨ s.bus = .write 0 (encode .reset) :: rest

/-- What a step can do to modes, flags, configuration, tables and predictors. -/
theorem step_effect_cases (h : step s = .next t) :
    (ResetNext s ∧ ∃ rest, t = resetBlock { s with bus := rest }) ∨
    (∃ i rest, s.bus = .write 0 (encode i) :: rest ∧ Effect i s t) ∨
    Effect .nop s t ∨
    ∃ offset w rest, s.bus = .write offset w :: rest ∧ offset.toNat ∈ configOffsets ∧
      SetupWritten { s with bus := rest } t := by
  have of_bus : ∀ {i rest}, Effect i { s with bus := rest } t → Effect i s t := fun h => { h with }
  rcases step_cases h with ⟨_, rfl⟩ | ⟨a, rest, hb, ⟨i, rfl, hi⟩ | rfl | ⟨_, ha⟩⟩
  · exact .inr (.inr (.inl (.refl _ t)))
  · by_cases hr : i = .reset
    · subst hr
      cases hi
      exact .inl ⟨⟨rest, .inr hb⟩, rest, rfl⟩
    · exact .inr (.inl ⟨i, rest, hb, of_bus (exec_effect hr hi)⟩)
  · exact .inr (.inr (.inl (of_bus (rejectWord_effect _))))
  · rcases hostAccess_cases ha with ⟨rfl, rfl⟩ | he | ⟨offset, w, rfl, hm, hw⟩
    · exact .inl ⟨⟨rest, .inl hb⟩, rest, rfl⟩
    · exact .inr (.inr (.inl (of_bus he)))
    · exact .inr (.inr (.inr ⟨offset, w, rest, hb, hm, hw⟩))

theorem ResetNext.abandoned (h : ResetNext s) : s.abandoned = true := by
  obtain ⟨rest, hb | hb⟩ := h
  · simp [State.abandoned, hb]
  · simp [State.abandoned, hb]

/-- Flags that are kept keep a completed decode completed (R263). -/
theorem completed_of_keepsFlags (h : KeepsFlags s.status t.status) {w : Wanted} (hc : s.completed w = true) :
    t.completed w = true := by
  cases w with
  | output => exact h.outv hc
  | planes upsampled =>
    simp only [State.completed, Bool.and_eq_true, List.all_eq_true] at hc ⊢
    exact ⟨h.done hc.1, fun c hm => h.fullv c (hc.2 c hm)⟩

/-- Something the step cleared is something it did not keep. -/
theorem not_cleared_of_keepsFlags (h : KeepsFlags s.status t.status) :
    ¬ ((s.status.done = true ∧ t.status.done = false) ∨ (s.status.outv = true ∧ t.status.outv = false) ∨
      (∃ c : Fin 4, s.status.fullv[c] = true ∧ t.status.fullv[c] = false) ∨
      ∃ w, s.completed w = true ∧ t.completed w = false) := by
  rintro (⟨hs, ht⟩ | ⟨hs, ht⟩ | ⟨c, hs, ht⟩ | ⟨w, hs, ht⟩)
  · simp [h.done hs] at ht
  · simp [h.outv hs] at ht
  · exact Bool.false_ne_true (ht.symm.trans (h.fullv c hs))
  · simp [completed_of_keepsFlags h hs] at ht

/-- Settles O13: `Effect` names the commands that change the mode, and a configuration write needs manual mode. -/
theorem scanModeFreezesConfigurationAndTables : Obligations.ScanModeFreezesConfigurationAndTables := by
  refine ⟨fun i s t ht => ?_, fun s t ht => ?_⟩
  · by_cases hi : i = .reset
    · subst hi
      cases ht
      exact ⟨fun _ h => absurd h Bool.false_ne_true, fun _ _ => .inr (.inr rfl)⟩
    · have he := exec_effect hi ht
      exact ⟨he.entered, fun hs h => (he.left hs h).imp_right .inl⟩
  · rcases step_effect_cases ht with ⟨⟨rest, hb⟩, _, rfl⟩ | ⟨i, rest, hb, he⟩ | he |
      ⟨_, _, _, _, _, hs, _, rfl⟩
    · have off : ∀ {p : Prop}, false = true → p := fun h => absurd h Bool.false_ne_true
      exact ⟨fun _ => off, fun _ _ => ⟨rest, hb.imp_right fun hb => ⟨.reset, by simp, hb⟩⟩, fun _ => off⟩
    · refine ⟨fun hs h => ⟨rest, ?_⟩, fun hs h => ⟨rest, .inr ⟨i, ?_, hb⟩⟩,
        fun hs _ => ⟨he.setup, he.tables hs, he.memCap⟩⟩
      · rw [hb, he.entered hs h]
      · rcases he.left hs h with rfl | rfl <;> simp
    · refine ⟨fun hs h => ?_, fun hs h => ?_, fun hs _ => ⟨he.setup, he.tables hs, he.memCap⟩⟩
      · simpa using he.entered hs h
      · simpa using he.left hs h
    · have hs : s.status.scan = false := hs
      refine ⟨fun _ h => absurd (hs.symm.trans h) Bool.false_ne_true, fun h => ?_, fun h => ?_⟩
      · simp [hs] at h
      · simp [hs] at h

/-- Settles O14: the effect of every command but RESET keeps `FAULT` and `BRV`, and but for SCAN.START the other flags;
a configuration write keeps the first two. -/
theorem onlyResetClearsFaultAndCursorFlags : Obligations.OnlyResetClearsFaultAndCursorFlags := by
  intro s t ht
  have kept : ∀ {i}, Effect i s t →
      ¬ ((s.status.fault = true ∧ t.status.fault = false) ∨ (s.stream.brv = true ∧ t.stream.brv = false)) := by
    rintro i he (⟨hs, ht⟩ | ⟨hs, ht⟩)
    · simp [he.fault hs] at ht
    · simp [he.brv hs] at ht
  rcases step_effect_cases ht with ⟨hr, _⟩ | ⟨i, rest, hb, he⟩ | he | ⟨offset, w, rest, hb, hm, _, u, rfl⟩
  · exact ⟨fun _ => hr.abandoned, fun _ => .inl hr.abandoned⟩
  · refine ⟨fun h => absurd h (kept he), fun h => ?_⟩
    by_cases hi : i = .scanStart
    · exact .inr ⟨0, encode i, rest, hb, .inl ⟨rfl, by rw [hi]; rfl⟩⟩
    · exact absurd h (not_cleared_of_keepsFlags (he.flags hi))
  · exact ⟨fun h => absurd h (kept he), fun h => absurd h (not_cleared_of_keepsFlags (he.flags (by simp)))⟩
  · refine ⟨?_, fun _ => .inr ⟨offset, w, rest, hb, .inr hm⟩⟩
    rintro (⟨hs, ht⟩ | ⟨hs, ht⟩) <;> exact absurd (ht.symm.trans hs) Bool.false_ne_true

/-- Settles O15: the effect of a command outside R12's list leaves the predictors. -/
theorem predictorsHaveNoOtherWriters : Obligations.PredictorsHaveNoOtherWriters := by
  intro s t ht hne
  rcases step_effect_cases ht with ⟨⟨rest, hb⟩, _⟩ | ⟨i, rest, hb, he⟩ | he | ⟨_, _, _, _, _, _, _, rfl⟩
  · exact hb.imp (fun hb => ⟨rest, hb⟩) fun hb => ⟨.reset, rest, hb, .inl (by simp)⟩
  · exact .inr ⟨i, rest, hb, he.pred.resolve_left hne⟩
  · exact absurd (he.pred.resolve_left hne) (by simp [WritesPredictors])
  · exact absurd rfl hne

end Sys2Proof.Proofs
end

section
namespace Sys2Proof.Proofs

open Sys2Proof.Machine Sys2Proof.Spec Sys2Proof.Laws

variable {s : State}

/-! ### One access of the host -/

/-- A write to an aligned register other than `CMD` (R203). -/
theorem access_write {n : Nat} (hlt : n < 0x1000) (hal : n % 4 = 0) (h0 : n ≠ 0) (w : Word) (s : State) :
    access s (.write (BitVec.ofNat 32 n) w) = .next (writeReg (regAt n) w s) := by
  have hn : (BitVec.ofNat 32 n).toNat = n := by rw [BitVec.toNat_ofNat]; exact Nat.mod_eq_of_lt (by omega)
  have hne : BitVec.ofNat 32 n ≠ 0 := fun h => h0 (by rw [← hn, h]; rfl)
  simp only [access, step, nextAccess, HostAccess.commandWord, if_neg hne]
  simp [hostAccess, hostWrite, offsetExists, offsetAligned, hn, hlt, hal]

/-- A read of an aligned register (R202). -/
theorem access_read {n : Nat} (hlt : n < 0x1000) (hal : n % 4 = 0) (s : State) :
    access s (.read (BitVec.ofNat 32 n)) = .next (readReg (regAt n) s) := by
  have hn : (BitVec.ofNat 32 n).toNat = n := by rw [BitVec.toNat_ofNat]; exact Nat.mod_eq_of_lt (by omega)
  simp [access, step, nextAccess, HostAccess.commandWord, hostAccess, hostRead, offsetExists, offsetAligned, hn, hlt,
    hal]

/-! ### The windows of the register map (R16) -/

theorem regAt_comp (c : Fin 4) : regAt (0x30 + 4 * c.val) = .comp c := by revert c; decide

theorem regAt_pred (c : Fin 4) : regAt (0x60 + 4 * c.val) = .pred c := by revert c; decide

/-- Entry `i` of a window whose entries are `k` bytes apart. -/
theorem window_index {base k : Nat} (hk : 0 < k) (i : Fin 64) : Fin.ofNat 64 ((base + k * i.val - base) / k) = i := by
  rw [Nat.add_sub_cancel_left, Nat.mul_div_cancel_left _ hk]
  exact Fin.ext (Nat.mod_eq_of_lt i.isLt)

theorem regAt_coef (i : Fin 64) : regAt (0x100 + 4 * i.val) = .coef i := by
  rw [regAt, if_neg (by omega), if_pos (by omega), window_index (by omega)]

theorem regAt_deq (i : Fin 64) : regAt (0x200 + 4 * i.val) = .deq i := by
  rw [regAt, if_neg (by omega), if_neg (by omega), if_pos (by omega), window_index (by omega)]

theorem regAt_nat (i : Fin 64) : regAt (0x300 + 4 * i.val) = .nat i := by
  rw [regAt, if_neg (by omega), if_neg (by omega), if_neg (by omega), if_pos (by omega), window_index (by omega)]

theorem regAt_accLow (i : Fin 64) : regAt (0x400 + 8 * i.val) = .accLow i := by
  rw [regAt, if_neg (by omega), if_neg (by omega), if_neg (by omega), if_neg (by omega), if_pos (by omega),
    if_pos (by omega), window_index (by omega)]

theorem regAt_accHigh (i : Fin 64) : regAt (0x404 + 8 * i.val) = .accHigh i := by
  rw [regAt, if_neg (by omega), if_neg (by omega), if_neg (by omega), if_neg (by omega), if_pos (by omega),
    if_neg (by omega), show (0x404 + 8 * i.val - 0x400) / 8 = i.val by omega]
  exact congrArg Reg.accHigh (Fin.ext (Nat.mod_eq_of_lt i.isLt))

theorem regAt_tile (i : Fin 64) : regAt (0x600 + 4 * i.val) = .tile i := by
  rw [regAt, if_neg (by omega), if_neg (by omega), if_neg (by omega), if_neg (by omega), if_neg (by omega),
    if_pos (by omega), window_index (by omega)]

/-! ### Register writes -/

section
variable (hf : s.status.fault = false) (w : Word)
include hf

/-! What a write to each register does while no fault is latched (R18, R19, R27). -/

theorem writeReg_arg : writeReg .arg w s = { s with arg := w } := if_neg (by simp [hf])

theorem writeReg_inLen : writeReg .inLen w s = writeSetup (fun u => { u with inLen := w }) s := if_neg (by simp [hf])

theorem writeReg_proc : writeReg .proc w s = writeSetup (fun u => { u with proc := w.extractLsb' 0 8 }) s :=
  if_neg (by simp [hf])

theorem writeReg_frame : writeReg .frame w s =
    writeSetup (fun u => { u with width := w.extractLsb' 0 16, height := w.extractLsb' 16 16 }) s :=
  if_neg (by simp [hf])

theorem writeReg_ncomp : writeReg .ncomp w s = writeSetup (fun u => { u with ncomp := w.extractLsb' 0 8 }) s :=
  if_neg (by simp [hf])

theorem writeReg_ri : writeReg .ri w s = writeSetup (fun u => { u with ri := w.extractLsb' 0 16 }) s :=
  if_neg (by simp [hf])

theorem writeReg_comp (c : Fin 4) :
    writeReg (.comp c) w s = writeSetup (fun u => { u with comp := u.comp.set c (CompCfg.ofWord w) }) s :=
  if_neg (by simp [hf])

theorem writeReg_coef (i : Fin 64) :
    writeReg (.coef i) w s = writeWindow (fun f => { f with coef := f.coef.set i (w.extractLsb' 0 16) }) s :=
  if_neg (by simp [hf])

theorem writeReg_nat (i : Fin 64) : writeReg (.nat i) w s = writeWindow (fun f => { f with nat := f.nat.set i w }) s :=
  if_neg (by simp [hf])

end

theorem writeSetup_manual (hs : s.status.scan = false) (f : Setup → Setup) :
    writeSetup f s = { s with setup := f s.setup, status := s.status.clearDecode } := if_neg (by simp [hs])

theorem writeSetup_scan (hs : s.status.scan = true) (f : Setup → Setup) :
    writeSetup f s = raiseFault .protocolFault s := if_pos hs

theorem writeWindow_manual (hs : s.status.scan = false) (f : Buffers → Buffers) :
    writeWindow f s = { s with buf := f s.buf } := if_neg (by simp [hs])

theorem writeWindow_scan (hs : s.status.scan = true) (f : Buffers → Buffers) :
    writeWindow f s = raiseFault .protocolFault s := if_pos hs

/-- The registers the host can write (R18). -/
def writable : Reg → Bool
  | .arg | .coef _ | .nat _ => true
  | r => isConfig r

/-- A write to a read-only register or a reserved offset is ignored (R18). -/
theorem writeReg_ignored {r : Reg} (hr : writable r = false) (w : Word) (s : State) : writeReg r w s = s := by
  unfold writeReg
  split
  · rfl
  · cases r
    case arg | inLen | proc | frame | ncomp | ri | comp | coef | nat => simp [writable, isConfig] at hr
    all_goals rfl

theorem lowReg_writable {n : Nat} (h : writable (lowReg n) = true) : n ∈ 0x14 :: configOffsets := by
  unfold lowReg at h
  split at h <;> simp [writable, isConfig, configOffsets] at h ⊢

theorem regAt_writable {n : Nat} (h : writable (regAt n) = true) :
    n ∈ 0x14 :: configOffsets ∨ (0x100 ≤ n ∧ n < 0x200) ∨ (0x300 ≤ n ∧ n < 0x400) := by
  unfold regAt at h
  split at h
  · exact .inl (lowReg_writable h)
  · split_ifs at h
    · exact .inr (.inl (by omega))
    · simp [writable, isConfig] at h
    · exact .inr (.inr (by omega))
    all_goals simp [writable, isConfig] at h

/-- In scan mode a write to any of them but `ARG` raises `ProtocolFault` (R19, R27). -/
theorem writeReg_scan (hf : s.status.fault = false) (hs : s.status.scan = true) {r : Reg} (hr : writable r = true)
    (ha : r ≠ .arg) (w : Word) : writeReg r w s = raiseFault .protocolFault s := by
  unfold writeReg
  rw [if_neg (by simp [hf])]
  cases r
  case arg => exact absurd rfl ha
  case inLen | proc | frame | ncomp | ri | comp => exact writeSetup_scan hs _
  case coef | nat => exact writeWindow_scan hs _
  all_goals simp [writable, isConfig] at hr

theorem configOffsets_bounds : ∀ n ∈ configOffsets, n < 0x1000 ∧ n % 4 = 0 ∧ n ≠ 0 := by decide

theorem configOffsets_writable : ∀ n ∈ configOffsets, writable (regAt n) = true ∧ regAt n ≠ .arg := by decide

/-- A configuration write in manual mode (R19). -/
theorem access_writeSetup {n : Nat} (hn : n ∈ configOffsets) {w : Word} {f : Setup → Setup}
    (hr : writeReg (regAt n) w s = writeSetup f s) (hs : s.status.scan = false) :
    access s (.write (BitVec.ofNat 32 n) w) = .next { s with setup := f s.setup, status := s.status.clearDecode } := by
  obtain ⟨hlt, hal, h0⟩ := configOffsets_bounds n hn
  rw [access_write hlt hal h0, hr, writeSetup_manual hs]

/-- A write in scan mode to a register the host can write in manual mode only (R19, R27). -/
theorem access_write_scan {n : Nat} (hlt : n < 0x1000) (hal : n % 4 = 0) (h0 : n ≠ 0)
    (hr : writable (regAt n) = true ∧ regAt n ≠ .arg) (hf : s.status.fault = false) (hs : s.status.scan = true)
    (w : Word) : access s (.write (BitVec.ofNat 32 n) w) = .next (raiseFault .protocolFault s) := by
  rw [access_write hlt hal h0, writeReg_scan hf hs hr.1 hr.2]

/-- Settles O16: every write is `writeSetup` in manual mode and a fault in scan mode. -/
theorem configurationWritesFollowTheMode : Obligations.ConfigurationWritesFollowTheMode := by
  intro s w hf
  refine ⟨fun hs => ⟨?_, ?_, ?_, ?_, ?_, fun c => ?_⟩, fun hs offset ho => ?_⟩
  · exact access_writeSetup (n := 0x18) (by decide) (writeReg_inLen hf w) hs
  · exact access_writeSetup (n := 0x1C) (by decide) (writeReg_proc hf w) hs
  · exact access_writeSetup (n := 0x20) (by decide) (writeReg_frame hf w) hs
  · exact access_writeSetup (n := 0x24) (by decide) (writeReg_ncomp hf w) hs
  · exact access_writeSetup (n := 0x28) (by decide) (writeReg_ri hf w) hs
  · exact access_writeSetup (by revert c; decide) (regAt_comp c ▸ writeReg_comp hf w c) hs
  · rcases ho with hn | ⟨i, rfl | rfl⟩
    · obtain ⟨hlt, hal, h0⟩ := configOffsets_bounds offset hn
      exact access_write_scan hlt hal h0 (configOffsets_writable offset hn) hf hs w
    · exact access_write_scan (by omega) (by omega) (by omega) (by simp [regAt_coef, writable]) hf hs w
    · exact access_write_scan (by omega) (by omega) (by omega) (by simp [regAt_nat, writable]) hf hs w

/-- Settles O17: a register that is not writable is ignored, and the windows take their field. -/
theorem otherRegisterWritesTakeTheirRule : Obligations.OtherRegisterWritesTakeTheirRule := by
  refine ⟨fun s w hf => ⟨?_, fun hs i => ⟨?_, ?_⟩⟩, fun s w offset hlt hal hl hc hn => ?_⟩
  · rw [← writeReg_arg hf]
    exact access_write (n := 0x14) (by decide) (by decide) (by decide) w s
  · rw [access_write (by omega) (by omega) (by omega), regAt_coef, writeReg_coef hf, writeWindow_manual hs]
  · rw [access_write (by omega) (by omega) (by omega), regAt_nat, writeReg_nat hf, writeWindow_manual hs]
  · rw [access_write hlt hal fun h0 => hl (by simp [h0]), writeReg_ignored]
    refine Bool.eq_false_iff.2 fun hw => ?_
    rcases regAt_writable hw with h | h | h
    · exact hl (List.mem_cons_of_mem _ h)
    · exact hc h
    · exact hn h

end Sys2Proof.Proofs
end

section
namespace Sys2Proof.Proofs

open Sys2Proof.Machine Sys2Proof.Spec Sys2Proof.Laws

variable {s : State}

/-! ### Register reads -/

/-- A read of a register while no fault is latched (R202). -/
theorem access_read_value (hf : s.status.fault = false) {n : Nat} (hlt : n < 0x1000) (hal : n % 4 = 0) {r : Reg}
    (hr : regAt n = r) {v : Word} (hv : regValue s r = v) :
    access s (.read (BitVec.ofNat 32 n)) = .next { s with rdata := v } := by
  rw [access_read hlt hal, hr, readReg, if_neg (by simp [hf]), hv]

/-- A field of a word stands above the fields to its right. -/
theorem toNat_append_add {m n : Nat} (x : BitVec m) (y : BitVec n) : (x ++ y).toNat = x.toNat * 2 ^ n + y.toNat := by
  rw [BitVec.toNat_append, ← Nat.shiftLeft_add_eq_or_of_lt y.isLt, Nat.shiftLeft_eq]

theorem frame_word (u : Setup) :
    (u.height ++ u.width : Word) = BitVec.ofNat 32 (u.width.toNat + u.height.toNat * 2 ^ 16) := by
  apply BitVec.eq_of_toNat_eq
  simp only [toNat_append_add, BitVec.toNat_ofNat]
  omega

theorem compCfg_word (k : CompCfg) : k.word = BitVec.ofNat 32
    (k.v.toNat + k.h.toNat * 2 ^ 4 + k.tq.toNat * 2 ^ 8 + k.td.toNat * 2 ^ 12 + k.ta.toNat * 2 ^ 16) := by
  apply BitVec.eq_of_toNat_eq
  simp only [CompCfg.word, toNat_append_add, BitVec.ofNat_eq_ofNat, BitVec.toNat_ofNat]
  omega

theorem brBits_word (r : Stream) : ((0 : BitVec 16) ++ r.cur ++ BitVec.ofNat 8 r.cnt.val : Word) =
    BitVec.ofNat 32 (r.cnt.val + r.cur.toNat * 2 ^ 8) := by
  apply BitVec.eq_of_toNat_eq
  simp only [toNat_append_add, BitVec.ofNat_eq_ofNat, BitVec.toNat_ofNat]
  omega

/-- The factors R16 asks of `MCUDIM`. -/
theorem mcuDim_valid {u : Setup} : (u.countOk && u.factorsOk) = true ↔
    u.numComps ∈ [1, 3, 4] ∧ ∀ c : Fin 4, c.val < u.numComps →
      1 ≤ u.hOf c ∧ u.hOf c ≤ 4 ∧ 1 ≤ u.vOf c ∧ u.vOf c ≤ 4 := by
  simp [Setup.countOk, Setup.factorsOk, mem_comps, or_assoc]

theorem lowReg_reserved {n : Nat} (h : n ∈ [0x2C, 0x5C] ∨ (0x70 ≤ n ∧ n < 0x100)) : lowReg n = .reserved := by
  unfold lowReg
  split <;> simp at h ⊢

/-- The aligned offsets no register has (R16). -/
theorem regAt_reserved {n : Nat} (h : n ∈ [0x2C, 0x5C] ∨ (0x70 ≤ n ∧ n < 0x100) ∨ 0x700 ≤ n) :
    regAt n = .reserved := by
  unfold regAt
  split
  · next hlt => exact lowReg_reserved (h.imp_right fun h => h.resolve_right (by omega))
  · have : 0x700 ≤ n := by
      simp only [List.mem_cons, List.not_mem_nil, or_false] at h
      omega
    rw [if_neg (by omega), if_neg (by omega), if_neg (by omega), if_neg (by omega), if_neg (by omega)]

/-- Settles O18: each register's field as a number, and 0 at the offsets no register has. -/
theorem registerReadsReturnTheirFields : Obligations.RegisterReadsReturnTheirFields := by
  intro s hf
  have word : ∀ {n : Nat}, n < 0x1000 → n % 4 = 0 → ∀ {r : Reg} {m : Nat} {x : BitVec m}, regAt n = r →
      regValue s r = x.setWidth 32 →
      access s (.read (BitVec.ofNat 32 n)) = .next { s with rdata := BitVec.ofNat 32 x.toNat } :=
    fun hlt hal _ _ x hr hv => access_read_value hf hlt hal hr (hv.trans (BitVec.ofNat_toNat 32 x).symm)
  have full : ∀ {n : Nat}, n < 0x1000 → n % 4 = 0 → ∀ {r : Reg}, regAt n = r →
      access s (.read (BitVec.ofNat 32 n)) = .next { s with rdata := BitVec.ofNat 32 (regValue s r).toNat } :=
    fun hlt hal _ hr => word hlt hal hr (BitVec.setWidth_eq _).symm
  refine ⟨?_, ?_, ?_, ?_, ?_, ?_, ?_, ?_, ?_, ?_, fun c => ?_, ?_, ?_, ?_, ?_, ?_, ?_,
    ⟨fun hv => ?_, fun hv => ?_⟩, fun offset hlt hal ho => ?_⟩
  · exact full (by decide) (by decide) (r := .cmd) rfl
  · exact word (by decide) (by decide) (r := .err) rfl rfl
  · exact full (by decide) (by decide) (r := .errpos) rfl
  · exact full (by decide) (by decide) (r := .result) rfl
  · exact full (by decide) (by decide) (r := .arg) rfl
  · exact full (by decide) (by decide) (r := .inLen) rfl
  · exact word (by decide) (by decide) (r := .proc) rfl rfl
  · exact access_read_value hf (by decide) (by decide) (r := .frame) rfl (frame_word s.setup)
  · exact word (by decide) (by decide) (r := .ncomp) rfl rfl
  · exact word (by decide) (by decide) (r := .ri) rfl rfl
  · exact access_read_value hf (by omega) (by omega) (regAt_comp c) (compCfg_word _)
  · exact full (by decide) (by decide) (r := .brPos) rfl
  · exact access_read_value hf (by decide) (by decide) (r := .brBits) rfl (brBits_word s.stream)
  · exact word (by decide) (by decide) (r := .brMark) rfl rfl
  · exact full (by decide) (by decide) (r := .mcucnt) rfl
  · exact word (by decide) (by decide) (r := .rstexp) rfl rfl
  · exact full (by decide) (by decide) (r := .mcuidx) rfl
  · exact access_read_value hf (by decide) (by decide) (r := .mcudim) rfl (if_pos (mcuDim_valid.2 hv))
  · exact access_read_value hf (by decide) (by decide) (r := .mcudim) rfl (if_neg fun h => hv (mcuDim_valid.1 h))
  · exact access_read_value hf hlt hal (regAt_reserved ho) rfl

/-! ### Windows -/

/-- A two's complement number of 64 bits as two words (R16). -/
theorem extractLsb'_low_word (x : BitVec 64) : x.extractLsb' 0 32 = BitVec.ofInt 32 x.toInt := by
  apply BitVec.eq_of_toNat_eq
  simp only [BitVec.extractLsb'_toNat, BitVec.toNat_ofInt, BitVec.toInt_eq_toNat_cond]
  split <;> omega

theorem extractLsb'_high_word (x : BitVec 64) : x.extractLsb' 32 32 = BitVec.ofInt 32 (x.toInt / 2 ^ 32) := by
  apply BitVec.eq_of_toNat_eq
  simp only [BitVec.extractLsb'_toNat, BitVec.toNat_ofInt, BitVec.toInt_eq_toNat_cond, Nat.shiftRight_eq_div_pow]
  split <;> omega

/-- Settles O19: each window's entry, its value as a two's complement number. -/
theorem windowReadsReturnTheBuffers : Obligations.WindowReadsReturnTheBuffers := by
  intro s hf
  refine ⟨fun c => ?_, fun i => ⟨?_, ?_, ?_, ?_, ?_, ?_⟩⟩
  · exact access_read_value hf (by omega) (by omega) (regAt_pred c) rfl
  · exact access_read_value hf (by omega) (by omega) (regAt_coef i) rfl
  · exact access_read_value hf (by omega) (by omega) (regAt_deq i) (BitVec.ofInt_toInt).symm
  · exact access_read_value hf (by omega) (by omega) (regAt_nat i) (BitVec.ofInt_toInt).symm
  · exact access_read_value hf (by omega) (by omega) (regAt_accLow i) (extractLsb'_low_word _)
  · exact access_read_value hf (by omega) (by omega) (regAt_accHigh i) (extractLsb'_high_word _)
  · refine access_read_value hf (by omega) (by omega) (regAt_tile i) ?_
    rw [BitVec.ofInt_natCast, BitVec.ofNat_toNat]
    rfl

/-! ### `STATUS` -/

theorem getLsbD_flagBit {p : Nat} (hp : p < 32) (flag : Bool) (k : Nat) :
    (flagBit p flag).getLsbD k = (flag && decide (k = p)) := by
  cases flag
  · simp [flagBit]
  · simp only [flagBit, if_true, Bool.true_and, BitVec.getLsbD_shiftLeft, BitVec.getLsbD_one]
    by_cases hk : k = p
    · simp [hk, hp]
    · simp [hk]; omega

/-- The bits of `STATUS`, each flag at its place (R15). -/
theorem getLsbD_statusWord (s : State) (k : Nat) : s.statusWord.getLsbD k =
    (s.status.fault && decide (k = 0) || s.stream.markf && decide (k = 1) || s.stream.brv && decide (k = 2) ||
      s.status.scan && decide (k = 3) || s.status.done && decide (k = 4) || s.status.outv && decide (k = 5) ||
      s.status.fullv[0] && decide (k = 8) || s.status.fullv[1] && decide (k = 9) ||
      s.status.fullv[2] && decide (k = 10) || s.status.fullv[3] && decide (k = 11)) := by
  simp (disch := decide) only [State.statusWord, BitVec.getLsbD_or, getLsbD_flagBit]

/-- Settles O20: `STATUS` reads the same with a fault latched (R225). -/
theorem statusBitsAreTheFlags : Obligations.StatusBitsAreTheFlags := by
  intro s
  refine ⟨s.statusWord, ?_, ?_, ?_, ?_, ?_, ?_, ?_, fun c => ?_, fun k hk => ?_⟩
  · refine (access_read (n := 0x04) (by decide) (by decide) s).trans ?_
    change Host.Outcome.next (readReg .status s) = _
    rw [readReg, if_neg (by simp [Reg.definedWhenFaulted])]
    rfl
  case refine_8 =>
    rw [getLsbD_statusWord]
    match c with
    | 0 | 1 | 2 | 3 => simp
  case refine_9 =>
    simp only [List.mem_cons, List.not_mem_nil, or_false, not_or] at hk
    simp [getLsbD_statusWord, hk]
  all_goals
    rw [getLsbD_statusWord]
    simp

end Sys2Proof.Proofs
end

section
namespace Sys2Proof.Proofs

open Sys2Proof.Machine Sys2Proof.Spec Sys2Proof.Laws

variable {s : State}

/-! ### Words and operand fields of a command -/

/-- A command word as a number (R60, R76). -/
theorem commandWord_eq_ofNat (op a b : Byte) :
    commandWord op a b = BitVec.ofNat 32 (op.toNat * 2 ^ 24 + a.toNat * 2 ^ 16 + b.toNat * 2 ^ 8) := by
  apply BitVec.eq_of_toNat_eq
  simp only [commandWord, toNat_append_add, BitVec.ofNat_eq_ofNat, BitVec.toNat_ofNat]
  omega

theorem toNat_fieldOf {n : Nat} (h : n < 256) : (fieldOf n).toNat = n := by
  rw [BitVec.toNat_ofNat]
  exact Nat.mod_eq_of_lt h

theorem tableIdOk_fieldOf (id : Fin 16) : tableIdOk (fieldOf id) = true :=
  decide_eq_true (by rw [toNat_fieldOf (by omega)]; omega)

theorem slotIndex_fieldOf (id : Fin 16) : slotIndex (fieldOf id) = id := by
  rw [slotIndex, toNat_fieldOf (by omega)]
  exact Fin.ext (Nat.mod_eq_of_lt id.isLt)

theorem precisionOk_fieldOf (prec : Fin 2) : precisionOk (fieldOf prec) = true :=
  decide_eq_true (by rw [toNat_fieldOf (by omega)]; omega)

/-- The fault of a command that raises is latched where it was raised (R224). -/
theorem latched_faultCommand (k : FaultKind) (t : State) : Latched (.next (faultCommand k t)) k.code t :=
  ⟨_, _, rfl⟩

/-! ### QT.LOAD (R160) -/

/-- Each entry of a definition as a number, the high byte first (R46, R75). -/
theorem toNat_entriesAt (b : Input) (a : Nat) (wide : Bool) (i : Fin 64) : ((entriesAt b a wide)[i]).toNat =
    if wide then 256 * (b.byte (a + 2 * i.val)).toNat + (b.byte (a + 2 * i.val + 1)).toNat
    else (b.byte (a + i.val)).toNat := by
  simp only [entriesAt, Fin.getElem_fin, Vector.getElem_ofFn]
  cases wide
  · simp only [Bool.false_eq_true, if_false, BitVec.toNat_setWidth]
    omega
  · simp only [if_true, Input.word16, toNat_append_add]
    omega

theorem loadQuant_inside {wide : Bool} (h : s.arg.toNat + entryBytes wide ≤ s.setup.inLen.toNat) (id : Fin 16) :
    loadQuant wide id s = .ok () (setResult (BitVec.ofNat 32 (entryBytes wide))
      { s with tables := s.tables.setQuant id (entriesAt s.tableBuf s.arg.toNat wide) }) :=
  if_neg (Nat.not_lt.2 h)

theorem loadQuant_past_end {wide : Bool} (h : s.setup.inLen.toNat < s.arg.toNat + entryBytes wide) (id : Fin 16) :
    loadQuant wide id s = .raised .malformedSegment s :=
  if_pos h

theorem wide_iff {prec : Fin 2} : (fieldOf prec != 0) = true ↔ prec ≠ 0 := by revert prec; decide

/-- The bytes of a definition, for the operand of QT.LOAD. -/
theorem entryBytes_fieldOf (prec : Fin 2) : entryBytes (fieldOf prec != 0) = 64 * (prec.val + 1) := by
  revert prec; decide

/-- Settles O47: the two outcomes of `loadQuant`, for entries of one byte and of two. -/
theorem qtLoadReadsTheEntries : Obligations.QtLoadReadsTheEntries := by
  refine ⟨fun prec id => ?_, fun s prec id ⟨hf, hs⟩ => ?_⟩
  · rw [encode, commandWord_eq_ofNat, toNat_fieldOf (by omega), toNat_fieldOf (by omega)]
    rfl
  have ho : (precisionOk (fieldOf prec) && tableIdOk (fieldOf id) && s.manual) = true := by
    rw [precisionOk_fieldOf, tableIdOk_fieldOf, manual_iff.2 hs]
    rfl
  have hx : exec (.qtLoad (fieldOf prec) (fieldOf id)) s =
      command (fun s => precisionOk (fieldOf prec) && tableIdOk (fieldOf id) && s.manual)
        (loadQuant (fieldOf prec != 0) id) s := by
    rw [exec, execQtLoad, slotIndex_fieldOf]
  simp only [hx, ← entryBytes_fieldOf]
  refine ⟨fun h => ?_, fun h => ?_⟩
  · refine ⟨_, _, command_ok hf ho (loadQuant_inside h id), quant_setQuant_same _ _ _, fun i => ?_,
      fun id' hne => quant_setQuant_other _ _ hne, rfl, rfl⟩
    rw [toNat_entriesAt]
    by_cases h0 : prec = 0
    · rw [if_pos h0, if_neg fun hw => wide_iff.1 hw h0]
    · rw [if_neg h0, if_pos (wide_iff.2 h0)]
  · rw [command_raised hf ho (loadQuant_past_end h id)]
    exact latched_faultCommand _ _

end Sys2Proof.Proofs
end

section
namespace Sys2Proof.Proofs

open Sys2Proof.Machine Sys2Proof.Spec Sys2Proof.Laws

variable {s t : State}

/-! ### Which steps answer a next state -/

/-- Every command answers a next state: RESET by its definition, the others because `command` does. -/
theorem exec_next (i : Instr) (s : State) : ∃ t, exec i s = .next t := by
  unfold exec
  cases i with
  | reset => exact ⟨_, rfl⟩
  | _ => exact command_next _ _ s

/-- The accesses to an address that does not exist (R40, R41). -/
def OutsideSpace (s : State) : HostAccess → Prop
  | .write offset _ | .read offset | .narrow offset => 0x1000 ≤ offset.toNat
  | .readMemory space addr => s.spaceSize space ≤ addr
  | .storeInput _ _ | .hardReset => False

theorem le_of_not_offsetExists {offset : Word} (h : (!offsetExists offset) = true) : 0x1000 ≤ offset.toNat := by
  simpa [offsetExists] using h

/-- An access other than a command answers a next state, or reaches an address that does not exist. -/
theorem hostAccess_next_or_outside (a : HostAccess) (s : State) :
    (∃ t, hostAccess a s = .next t) ∨ (hostAccess a s = .fault .outsideSpace ∧ OutsideSpace s a) := by
  cases a with
  | write offset w =>
    simp only [hostAccess, hostWrite]
    split_ifs with h
    · exact .inr ⟨rfl, le_of_not_offsetExists h⟩
    all_goals exact .inl ⟨_, rfl⟩
  | read offset =>
    simp only [hostAccess, hostRead]
    split_ifs with h
    · exact .inr ⟨rfl, le_of_not_offsetExists h⟩
    all_goals exact .inl ⟨_, rfl⟩
  | narrow offset =>
    simp only [hostAccess, hostNarrow]
    split_ifs with h
    · exact .inr ⟨rfl, le_of_not_offsetExists h⟩
    · exact .inl ⟨_, rfl⟩
  | readMemory sp a =>
    simp only [hostAccess, hostReadMemory]
    split_ifs with _ h
    · exact .inl ⟨_, rfl⟩
    · exact .inr ⟨rfl, h⟩
    · exact .inl ⟨_, rfl⟩
  | storeInput _ _ | hardReset => exact .inl ⟨_, rfl⟩

theorem runWord_next (w : Word) (s : State) : ∃ t, runWord w s = .next t := by
  unfold runWord
  split
  · exact exec_next _ s
  · exact ⟨_, rfl⟩

/-- A step answers a next state, or is an access to an address that does not exist. -/
theorem step_next_or_outside (s : State) :
    (∃ t, step s = .next t) ∨
    (step s = .fault .outsideSpace ∧ ∃ a rest, s.bus = a :: rest ∧ OutsideSpace s a) := by
  unfold step nextAccess
  cases hb : s.bus with
  | nil => exact .inl ⟨s, rfl⟩
  | cons a rest =>
    cases hw : a.commandWord with
    | some w =>
      simp only [hw]
      exact .inl (runWord_next w _)
    | none =>
      simp only [hw]
      refine (hostAccess_next_or_outside a _).imp_right fun ⟨hf, ho⟩ => ⟨hf, a, rest, rfl, ?_⟩
      cases a <;> exact ho

/-- Settles O5, from what a step can answer. -/
theorem everyCommandAnswersANextState : Obligations.EveryCommandAnswersANextState := by
  refine ⟨exec_next, fun s r hr => ?_, fun s f hf => ?_⟩
  · rcases step_next_or_outside s with ⟨t, h⟩ | ⟨h, _⟩ <;> simp [h] at hr
  · rcases step_next_or_outside s with ⟨t, h⟩ | ⟨_, a, rest, hb, ho⟩
    · simp [h] at hf
    · refine ⟨a, rest, hb, ?_⟩
      cases a <;> exact ho

/-! ### Host reads of the memories (R40) -/

theorem access_readMemory (sp : Space) (a : Nat) (s : State) :
    access s (.readMemory sp a) = hostReadMemory sp a s := rfl

/-- A read in time, within the space's size. -/
theorem access_readMemory_ready {sp : Space} {a : Nat} (hr : s.spaceReady sp = true) (ha : a < s.spaceSize sp) :
    access s (.readMemory sp a) = .next { s with rdata := (s.spaceByte sp a).setWidth 32 } := by
  rw [access_readMemory, hostReadMemory, if_neg (by simp [hr]), if_neg (Nat.not_le.2 ha)]

/-- A read out of its time. -/
theorem access_readMemory_early {sp : Space} (hr : s.spaceReady sp = false) (a : Nat) :
    access s (.readMemory sp a) =
      .next { s with rdata := (Config.earlyMemoryRead s.draws).setWidth 32, draws := s.draws + 1 } := by
  rw [access_readMemory, hostReadMemory, if_pos (by simp [hr])]

/-- The size of `OUT`: a byte per pixel for one component, three for three (R43). -/
theorem outSize_eq_mul (u : Setup) :
    u.outSize = (if u.numComps = 1 then 1 else if u.numComps = 3 then 3 else 0) * (u.w * u.ht) := by
  unfold Setup.outSize
  split_ifs <;> simp

/-- Settles O21: a read in time or out of it, for each space. -/
theorem hostReadsMemoriesWhenTheyAreReady : Obligations.HostReadsMemoriesWhenTheyAreReady := by
  intro s
  refine ⟨fun a ha => ?_, fun c a hc => ⟨fun hf hd ha => ?_, fun hf hv ha => ?_⟩, fun a hf hv ha => ?_,
    fun space a hr => ⟨_, _, access_readMemory_early hr a⟩⟩
  · exact access_readMemory_ready (sp := .input) rfl ha
  · exact access_readMemory_ready (sp := .plane c) (by simp [State.spaceReady, hf, hd])
      (by simpa only [State.spaceSize, if_pos hc] using ha)
  · exact access_readMemory_ready (sp := .full c) (by simpa [State.spaceReady, hf] using hv)
      (by simpa only [State.spaceSize, if_pos hc] using ha)
  · exact access_readMemory_ready (sp := .out) (by simp [State.spaceReady, hf, hv])
      (by rwa [State.spaceSize, outSize_eq_mul])

end Sys2Proof.Proofs
end

section
namespace Sys2Proof.Proofs

open Sys2Proof.Machine Sys2Proof.Spec Sys2Proof.Laws

variable {s t : State}

/-! ### What the block reads of `IN` -/

theorem byte_of_unchanged {b : Input} (h : b.changed = none) (k : Nat) : b.byte k = storedByte b.bytes k := by
  simp only [Input.byte, h]

theorem inBuf_byte (h : s.watch.changed = none) (k : Nat) : s.inBuf.byte k = storedByte s.input k :=
  byte_of_unchanged h k

/-- After SCAN.END the table loads read what the host has stored. -/
theorem tableBuf_byte_of_ended (h : s.watch.ended = true) (k : Nat) : s.tableBuf.byte k = storedByte s.input k :=
  byte_of_unchanged (if_pos h) k

theorem storedByte_write (m : Memory) (a : Nat) (v : Byte) (k : Nat) :
    storedByte (m.write a v) k = if k = a then v else storedByte m k := by
  unfold storedByte
  split_ifs with h
  · rw [h, read_write_same, Option.getD_some]
  · rw [read_write_other m v h]

/-! ### The host's store to `IN` (R40, R56) -/

theorem access_storeInput (a : Word) (v : Byte) (s : State) :
    access s (.storeInput a v) = .next (hostStoreInput a v s) := rfl

/-- A store writes its byte; it notes a change only under a stream. -/
theorem hostStoreInput_eq (a : Word) (v : Byte) (s : State) : ∃ (w : InputWatch) (n : Nat),
    hostStoreInput a v s = { s with input := s.input.write a.toNat v, watch := w, draws := n } ∧
    w.ended = s.watch.ended ∧
    (s.stream.brv = false ∨ s.input.read a.toNat = some v → w = s.watch ∧ n = s.draws) := by
  unfold hostStoreInput
  simp only
  split_ifs with h
  · refine ⟨_, _, rfl, rfl, fun hq => ?_⟩
    rcases hq with hq | hq <;> simp [hq] at h
  · exact ⟨s.watch, s.draws, rfl, rfl, fun _ => ⟨rfl, rfl⟩⟩

/-! ### Which commands touch the record of changes (log 13) -/

/-- A command leaves the record as it was or as its pseudocode leaves it. -/
theorem command_watch {P : InputWatch → Prop} {ok : State → Bool} {body : State → Res State Unit}
    (ht : command ok body s = .next t) (h0 : P s.watch) (hb : Leaves (fun u => P u.watch) (body s)) : P t.watch := by
  rcases command_cases ht with ⟨_, rfl⟩ | ⟨_, _, rfl⟩ | ⟨_, _, hbt⟩ | ⟨_, _, k, u, hbt, rfl⟩
  · exact h0
  · exact h0
  · rwa [hbt] at hb
  · rwa [hbt] at hb

/-- The record is as it was. -/
def SameWatch (s t : State) : Prop := t.watch = s.watch

theorem SameWatch.trans {u : State} (h : SameWatch s t) (h' : SameWatch t u) : SameWatch s u := Eq.trans h' h

theorem command_sameWatch {ok : State → Bool} {body : State → Res State Unit} (ht : command ok body s = .next t)
    (hb : Leaves (SameWatch s) (body s)) : SameWatch s t :=
  command_watch (P := (· = s.watch)) ht rfl hb

/-- Pseudocode that leaves the record, then its value to `RESULT`. -/
theorem leaves_sameWatch_result {α : Type} {r : Res State α} (h : Leaves (SameWatch s) r) (f : α → Word) :
    Leaves (SameWatch s) (r.bind fun v u => .ok () (setResult (f v) u)) :=
  h.bind fun _ _ hu => hu

theorem sameWatch_of_walking (h : Walking s t) : SameWatch s t := by rw [SameWatch, h.only]

theorem sameWatch_of_coding {c : Fin 4} (h : Coding c s t) : SameWatch s t := sameWatch_of_walking h.decoding.walking

theorem reportBits_sameWatch (s : State) (p : BitResult Nat × Stream) : Leaves (SameWatch s) (reportBits s p) := by
  obtain ⟨_ | _ | _, r⟩ := p <;> exact rfl

theorem loadHuffman_sameWatch (cl : Fin 2) (id : Fin 16) (s : State) : Leaves (SameWatch s) (loadHuffman cl id s) := by
  unfold loadHuffman
  split <;> exact rfl

theorem loadQuant_sameWatch (wide : Bool) (id : Fin 16) (s : State) : Leaves (SameWatch s) (loadQuant wide id s) := by
  unfold loadQuant
  split <;> exact rfl

theorem multiplyBy_sameWatch (id : Fin 16) (s : State) : Leaves (SameWatch s) (multiplyBy id s) := by
  unfold multiplyBy
  split <;> exact rfl

theorem assembleOutput_sameWatch (s : State) : Leaves (SameWatch s) (assembleOutput s) := by
  unfold assembleOutput
  split <;> exact rfl

theorem mcuBody_sameWatch (s : State) : Leaves (SameWatch s) (mcuBody s) := by
  cases hm : mcuBody s with
  | raised k u => exact sameWatch_of_walking (mcuBody_raised hm)
  | ok _ u =>
    obtain ⟨t, t', _, hw, hd, _, rfl⟩ := mcuBody_ok hm
    exact (sameWatch_of_walking (hw.trans hd.walking) : t'.watch = s.watch)

theorem mcus_sameWatch (n : Nat) (s : State) : Leaves (SameWatch s) (mcus n s) := by
  induction n generalizing s with
  | zero => exact rfl
  | succ n ih => exact (mcuBody_sameWatch s).bind fun _ t h => (ih t).mono fun _ => h.trans

/-- The record as a command that may end a decode leaves it. -/
def MayEnd (w w' : InputWatch) : Prop := w' = w ∨ w' = { w with ended := true }

/-- The record as a command that may start a stream leaves it. -/
def MayClear (w w' : InputWatch) : Prop := w' = w ∨ w' = InputWatch.reset

theorem scanEndBody_watch (s : State) : Leaves (fun t => MayEnd s.watch t.watch) (scanEndBody s) := by
  unfold scanEndBody
  simp only
  split_ifs
  · exact .inl rfl
  · exact .inl rfl
  · exact .inr rfl

theorem scanBody_watch (s : State) : Leaves (fun t => MayEnd s.watch t.watch) (scanBody s) :=
  Leaves.bind' (mcus_sameWatch _ s) (fun _ => .inl) fun _ u (h : u.watch = s.watch) => h ▸ scanEndBody_watch u

theorem scanStartBody_watch (s : State) : Leaves (fun t => MayClear s.watch t.watch) (scanStartBody s) := by
  unfold scanStartBody
  split
  · exact .inl rfl
  · exact .inr rfl

/-- The commands that touch the record. -/
def touchesWatch : List Instr := [.brInit, .scanStart, .reset, .scanEnd, .edScan]

/-- Every other command leaves the record as it was. -/
theorem exec_sameWatch {i : Instr} (hi : i ∉ touchesWatch) (ht : exec i s = .next t) : SameWatch s t := by
  unfold exec at ht
  cases i with
  | brInit | scanStart | reset | scanEnd | edScan => simp [touchesWatch] at hi
  | nop | brAlign | zzScat | idct2d | lsClamp | upRun | ccPix => exact command_sameWatch ht rfl
  | brBit | brBits => exact command_sameWatch ht (reportBits_sameWatch s _)
  | htLoad cl id => exact command_sameWatch ht (loadHuffman_sameWatch _ _ s)
  | qtLoad prec id => exact command_sameWatch ht (loadQuant_sameWatch _ _ s)
  | dqMul id => exact command_sameWatch ht (multiplyBy_sameWatch _ s)
  | ccRun => exact command_sameWatch ht (assembleOutput_sameWatch s)
  | blkRecon comp =>
    exact command_sameWatch ht ((recon_decoding _ s).mono fun _ h => sameWatch_of_walking h.1.walking)
  | edMcu => exact command_sameWatch ht (mcuBody_sameWatch s)
  | htDec cl id =>
    exact command_sameWatch ht (leaves_sameWatch_result
      ((decodeSymbol_coding 0 s _).mono fun _ => sameWatch_of_coding) _)
  | edRcvx n =>
    exact command_sameWatch ht (leaves_sameWatch_result
      ((receiveExtend_coding 0 s _).mono fun _ => sameWatch_of_coding) _)
  | edDc comp =>
    exact command_sameWatch ht (leaves_sameWatch_result ((decodeDc_coding _ s).mono fun _ => sameWatch_of_coding) _)
  | edAc comp =>
    exact command_sameWatch ht (leaves_sameWatch_result ((decodeAc_coding _ s).mono fun _ => sameWatch_of_coding) _)
  | edBlock comp =>
    exact command_sameWatch ht (leaves_sameWatch_result ((decodeBlock_coding _ s).mono fun _ => sameWatch_of_coding) _)
  | edRst =>
    exact command_sameWatch ht (leaves_sameWatch_result ((restartSync_walking s).mono fun _ => sameWatch_of_walking) _)

/-- What each command can do to the record. -/
theorem exec_watch {i : Instr} (ht : exec i s = .next t) : t.watch = s.watch ∨
    (i ∈ [.brInit, .scanStart, .reset] ∧ t.watch = InputWatch.reset) ∨
    (i ∈ [.scanEnd, .edScan] ∧ t.watch = { s.watch with ended := true }) := by
  by_cases hi : i ∈ touchesWatch
  · unfold exec at ht
    simp only [touchesWatch, List.mem_cons, List.not_mem_nil, or_false] at hi
    rcases hi with rfl | rfl | rfl | rfl | rfl
    · have h := command_watch (P := MayClear s.watch) ht (.inl rfl) (.inr rfl)
      exact h.imp_right fun h => .inl ⟨by simp, h⟩
    · have h := command_watch (P := MayClear s.watch) ht (.inl rfl) (scanStartBody_watch s)
      exact h.imp_right fun h => .inl ⟨by simp, h⟩
    · cases ht
      exact .inr (.inl ⟨by simp, rfl⟩)
    · have h := command_watch (P := MayEnd s.watch) ht (.inl rfl) (scanEndBody_watch s)
      exact h.imp_right fun h => .inr ⟨by simp, h⟩
    · have h := command_watch (P := MayEnd s.watch) ht (.inl rfl) (scanBody_watch s)
      exact h.imp_right fun h => .inr ⟨by simp, h⟩
  · exact .inl (exec_sameWatch hi ht)

/-- A command done without a fault is its pseudocode. -/
theorem command_done {ok : State → Bool} {body : State → Res State Unit} (ht : command ok body s = .next t)
    (hs : s.status.fault = false) (hf : t.status.fault = false) : body s = .ok () t := by
  rcases command_cases ht with ⟨h, _⟩ | ⟨_, _, rfl⟩ | ⟨_, _, hb⟩ | ⟨_, _, k, u, _, rfl⟩
  · simp [hs] at h
  · simp at hf
  · exact hb
  · simp at hf

theorem scanStartBody_ok (h : scanStartBody s = .ok () t) : t = enterScan s := by
  unfold scanStartBody at h
  split at h
  · cases h
  · cases h; rfl

/-- BR.INIT and SCAN.START, done without a fault, leave `IN` and clear the record. -/
theorem new_stream_clears_watch (ht : exec .brInit s = .next t ∨ exec .scanStart s = .next t)
    (hs : s.status.fault = false) (hf : t.status.fault = false) :
    t.input = s.input ∧ t.watch = InputWatch.reset := by
  unfold exec at ht
  rcases ht with ht | ht
  · cases command_done ht hs hf
    exact ⟨rfl, rfl⟩
  · cases scanStartBody_ok (command_done ht hs hf)
    exact ⟨rfl, rfl⟩

/-- Settles O22: what a store leaves, what is then read of `IN`, and what each command does to the record. -/
theorem hostStoresWriteTheInputBuffer : Obligations.HostStoresWriteTheInputBuffer := by
  intro s a v
  obtain ⟨w, n, hstore, hended, hquiet⟩ := hostStoreInput_eq a v s
  rw [access_storeInput, hstore]
  refine ⟨⟨_, w, n, rfl, read_write_same _ _ _, fun k hk => read_write_other _ v hk, hended, hquiet⟩,
    fun t ht => ?_, fun i t => exec_watch⟩
  cases ht
  refine ⟨fun hb hc k => ?_, fun he k => ?_, fun t' ht' hs hf k => ?_⟩
  · have hw : w.changed = none := by rw [(hquiet (.inl hb)).1, hc]
    rw [inBuf_byte hw, inBuf_byte hc, storedByte_write]
  · rw [tableBuf_byte_of_ended (hended.trans he), tableBuf_byte_of_ended he, storedByte_write]
  · obtain ⟨hin, hw⟩ := new_stream_clears_watch ht' hs hf
    rw [inBuf_byte (by rw [hw]; rfl), hin, storedByte_write]

end Sys2Proof.Proofs
end

section
namespace Sys2Proof.Proofs

open Sys2Proof.Machine Sys2Proof.Spec Sys2Proof.Laws

/-! ### Decoding an encoding -/

/-- The lemmas of `Laws.Encoding`, in the order of the commands. -/
theorem decode_encode (i : Instr) : decode (encode i) = if i.wellFormed then .ok i else .error .operandRange := by
  cases i
  exacts [Encoding.nop, Encoding.reset, Encoding.brInit, Encoding.brBit, Encoding.brBits _, Encoding.brAlign,
    Encoding.htLoad _ _, Encoding.htDec _ _, Encoding.qtLoad _ _, Encoding.edRcvx _, Encoding.edDc _, Encoding.edAc _,
    Encoding.edBlock _, Encoding.edRst, Encoding.edMcu, Encoding.edScan, Encoding.scanStart, Encoding.scanEnd,
    Encoding.dqMul _, Encoding.zzScat, Encoding.idct2d, Encoding.lsClamp, Encoding.blkRecon _, Encoding.upRun _,
    Encoding.ccRun, Encoding.ccPix]

theorem decode_eq_ok_iff {w : Word} {i : Instr} : decode w = .ok i ↔ i.wellFormed = true ∧ w = encode i := by
  constructor
  · intro h
    obtain rfl := decode_ok h
    rw [decode_encode] at h
    split at h
    · next hw => exact ⟨hw, rfl⟩
    · simp at h
  · rintro ⟨hw, rfl⟩
    rw [decode_encode, if_pos hw]

/-- Settles O2: `decode_encode` one way, and the other way only an encoding decodes. -/
theorem decodeReadsExactlyTheEncodings : Obligations.DecodeReadsExactlyTheEncodings :=
  fun _ _ => decode_eq_ok_iff

/-- Settles O1: each word is its command's encoding, with operands in range. -/
theorem opcodeMapWords : Obligations.OpcodeMapWords := by
  simp only [Obligations.OpcodeMapWords, decode_eq_ok_iff]
  decide

/-! ### A step with a write to `CMD` -/

theorem step_write_cmd {s : State} {w : Word} {rest : List HostAccess} (h : s.bus = .write 0 w :: rest) :
    step s = runWord w { s with bus := rest } := by
  rw [step, nextAccess, h]
  rfl

theorem step_idle {s : State} (h : s.bus = []) : step s = .next s := by
  rw [step, nextAccess, h]

theorem runWord_ok {w : Word} {i : Instr} (h : decode w = .ok i) (s : State) : runWord w s = exec i s := by
  rw [runWord, h]

/-- Settles O3: a step runs the word written, and `withFetchWord` writes one. -/
theorem stepRunsTheCommandWritten : Obligations.StepRunsTheCommandWritten := by
  refine ⟨fun s w rest i hb hd => ?_, fun s => step_idle, fun s w i hd => ?_⟩
  · rw [step_write_cmd hb, runWord_ok hd]
  · have hb : (s.withFetchWord 32 w).bus = .write 0 (BitVec.ofNat 32 w) :: s.bus := by
      rw [← show BitVec.ofNat 32 (w % 2 ^ 32) = BitVec.ofNat 32 w from BitVec.eq_of_toNat_eq (by simp)]
      rfl
    rw [step_write_cmd hb, runWord_ok hd]
    rfl

/-! ### Legal words (R61, R63) -/

theorem toNat_le_zero_iff {a : Byte} : a.toNat ≤ 0 ↔ a = 0 :=
  Nat.le_zero.trans (BitVec.toNat_inj (y := 0))

section
variable {okA okB : Byte → Bool} {m n : Nat} {a b : Byte}

theorem decodePlain_accepts {i : Instr} : (∃ j, decodePlain i a b = .ok j) ↔ a.toNat ≤ 0 ∧ b.toNat ≤ 0 := by
  rw [decodePlain, toNat_le_zero_iff, toNat_le_zero_iff]
  split_ifs with h
  · exact iff_of_true ⟨_, rfl⟩ h
  · exact iff_of_false (by simp) h

theorem decodeA_accepts {mk : Byte → Instr} (hA : okA a = true ↔ a.toNat ≤ m) :
    (∃ j, decodeA mk okA a b = .ok j) ↔ a.toNat ≤ m ∧ b.toNat ≤ 0 := by
  rw [decodeA, ← hA, toNat_le_zero_iff]
  split_ifs with hb ha
  · exact iff_of_false (by simp) fun h => hb h.2
  · exact iff_of_true ⟨_, rfl⟩ ⟨ha, not_ne_iff.1 hb⟩
  · exact iff_of_false (by simp) fun h => ha h.1

theorem decodeB_accepts {mk : Byte → Instr} (hB : okB b = true ↔ b.toNat ≤ n) :
    (∃ j, decodeB mk okB a b = .ok j) ↔ a.toNat ≤ 0 ∧ b.toNat ≤ n := by
  rw [decodeB, ← hB, toNat_le_zero_iff]
  split_ifs with ha hb
  · exact iff_of_false (by simp) fun h => ha h.1
  · exact iff_of_true ⟨_, rfl⟩ ⟨not_ne_iff.1 ha, hb⟩
  · exact iff_of_false (by simp) fun h => hb h.2

theorem decodeAB_accepts {mk : Byte → Byte → Instr} (hA : okA a = true ↔ a.toNat ≤ m)
    (hB : okB b = true ↔ b.toNat ≤ n) :
    (∃ j, decodeAB mk okA okB a b = .ok j) ↔ a.toNat ≤ m ∧ b.toNat ≤ n := by
  rw [decodeAB, ← hA, ← hB]
  split_ifs with h <;> simpa using h

end

/-- Two operand fields lie within a row of `operandMax`. -/
def Within (row : Option (Nat × Nat)) (a b : Byte) : Prop :=
  ∃ m n, row = some (m, n) ∧ a.toNat ≤ m ∧ b.toNat ≤ n

theorem within_some {m n : Nat} {a b : Byte} : Within (some (m, n)) a b ↔ a.toNat ≤ m ∧ b.toNat ≤ n := by
  simp [Within]

/-- The opcode map accepts exactly the operands of `operandMax` (R61, R62). -/
theorem decodeOp_accepts {op a b : Byte} : (∃ j, decodeOp op a b = .ok j) ↔ Within (operandMax op.toNat) a b := by
  unfold decodeOp
  split
  case h_1 e | h_2 e | h_3 e | h_4 e | h_6 e | h_14 e | h_15 e | h_16 e | h_17 e |
      h_18 e | h_20 e | h_21 e | h_22 e | h_25 e | h_26 e =>
    rw [e]
    exact decodePlain_accepts.trans within_some.symm
  case h_5 e | h_10 e | h_11 e | h_12 e | h_13 e | h_23 e | h_24 e =>
    rw [e]
    exact (decodeA_accepts decide_eq_true_iff).trans within_some.symm
  case h_19 e =>
    rw [e]
    exact (decodeB_accepts decide_eq_true_iff).trans within_some.symm
  case h_7 e | h_8 e | h_9 e =>
    rw [e]
    exact (decodeAB_accepts decide_eq_true_iff decide_eq_true_iff).trans within_some.symm
  case h_27 =>
    have h : operandMax op.toNat = none := by simp [operandMax, *]
    simp [h, Within]

theorem legalWord_iff {w : Word} :
    LegalWord w ↔ cField w = 0 ∧ Within (operandMax (opField w).toNat) (aField w) (bField w) := by
  have hop : (opField w).toNat = w.toNat / 2 ^ 24 := by
    rw [opField, BitVec.extractLsb'_toNat, Nat.shiftRight_eq_div_pow]
    omega
  have hc : cField w = 0 ↔ w.toNat % 2 ^ 8 = 0 := by
    rw [← toNat_le_zero_iff, Nat.le_zero, cField, BitVec.extractLsb'_toNat, Nat.shiftRight_zero]
  rw [hop, hc, LegalWord, Within]
  simp only [aField, bField, BitVec.extractLsb'_toNat, Nat.shiftRight_eq_div_pow]

/-- The legal words are those that stand for a command. -/
theorem exists_decode_iff {w : Word} : (∃ i, decode w = .ok i) ↔ LegalWord w := by
  rw [legalWord_iff, ← decodeOp_accepts, decode]
  split_ifs with h
  · exact iff_of_false (by simp) fun hw => h hw.1
  · exact (and_iff_right (not_ne_iff.1 h)).symm

end Sys2Proof.Proofs
end

section
namespace Sys2Proof.Proofs

open Sys2Proof.Machine Sys2Proof.Spec Sys2Proof.Laws

variable {i : Instr} {s t : State}

/-! ### The checks of a command before its pseudocode (R65) -/

/-- The modes of R62: `scan` is whether the block is in scan mode. -/
def acceptedIn (scan : Bool) : Instr → Bool
  | .nop | .reset | .ccPix => true
  | .edMcu | .edScan | .scanEnd => scan
  | _ => !scan

/-- The commands that need bits, and so a cursor (R65 check 4). -/
def needsCursor : Instr → Bool
  | .brBit | .brBits _ | .brAlign | .htDec _ _ | .edRcvx _ | .edDc _ | .edAc _ | .edBlock _ | .edRst => true
  | _ => false

/-- The checks of R65 that a command's row of R62 asks for: operands, mode, cursor. -/
structure Passes (i : Instr) (s : State) : Prop where
  operands : i.wellFormed = true
  mode : acceptedIn s.status.scan i = true
  cursor : needsCursor i = true → s.stream.brv = true

/-- A command latches `ProtocolFault` unless its check succeeds. -/
theorem command_checked {ok : State → Bool} {body : State → Res State Unit} (hf : s.status.fault = false) :
    ok s = true ∨ Latched (command ok body s) 11 s := by
  cases ho : ok s with
  | true => exact .inl rfl
  | false =>
    rw [command_refused hf ho]
    exact .inr (latched_faultCommand .protocolFault s)

theorem passes_of_manual (hm : s.manual = true) (hw : i.wellFormed = true) (ha : acceptedIn false i = true)
    (hc : needsCursor i = false) : Passes i s :=
  ⟨hw, by rw [manual_iff.1 hm]; exact ha, fun h => absurd (hc.symm.trans h) Bool.false_ne_true⟩

theorem passes_of_manualStream (hm : s.manualStream = true) (hw : i.wellFormed = true)
    (ha : acceptedIn false i = true) : Passes i s := by
  obtain ⟨hs, hb⟩ := manualStream_parts hm
  exact ⟨hw, by rw [hs]; exact ha, fun _ => hb⟩

theorem passes_of_scan (hs : s.status.scan = true) (hw : i.wellFormed = true) (ha : acceptedIn true i = true)
    (hc : needsCursor i = false) : Passes i s :=
  ⟨hw, by rw [hs]; exact ha, fun h => absurd (hc.symm.trans h) Bool.false_ne_true⟩

/-- Every command but RESET makes the checks of its row, and latches `ProtocolFault` where one fails. -/
theorem exec_passes_or_latched (hr : i ≠ .reset) (hf : s.status.fault = false) :
    Passes i s ∨ Latched (exec i s) 11 s := by
  unfold exec
  cases i with
  | nop | ccPix => exact .inl ⟨rfl, rfl, fun h => nomatch h⟩
  | reset => exact absurd rfl hr
  | zzScat | idct2d | lsClamp =>
    exact (command_checked hf).imp_left fun ho => passes_of_manual ho rfl rfl rfl
  | brInit | scanStart =>
    refine (command_checked hf).imp_left fun ho => passes_of_manual ?_ rfl rfl rfl
    exact (Bool.and_eq_true_iff.1 ho).1
  | ccRun =>
    refine (command_checked hf).imp_left fun ho => passes_of_manual ?_ rfl rfl rfl
    exact (Bool.and_eq_true_iff.1 (Bool.and_eq_true_iff.1 ho).1).1
  | htLoad | qtLoad | dqMul | blkRecon =>
    refine (command_checked hf).imp_left fun ho => ?_
    obtain ⟨hw, hm⟩ := Bool.and_eq_true_iff.1 ho
    exact passes_of_manual hm hw rfl rfl
  | upRun comp =>
    refine (command_checked hf).imp_left fun ho => ?_
    obtain ⟨hw, hm⟩ := Bool.and_eq_true_iff.1 (Bool.and_eq_true_iff.1 (Bool.and_eq_true_iff.1 ho).1).1
    exact passes_of_manual hm hw rfl rfl
  | brBit | brAlign | edRst =>
    exact (command_checked hf).imp_left fun ho => passes_of_manualStream ho rfl rfl
  | brBits | htDec | edRcvx | edDc | edAc | edBlock =>
    refine (command_checked hf).imp_left fun ho => ?_
    obtain ⟨hw, hm⟩ := Bool.and_eq_true_iff.1 ho
    exact passes_of_manualStream hm hw rfl
  | edScan =>
    refine (command_checked hf).imp_left fun ho => passes_of_scan ?_ rfl rfl rfl
    exact ho
  | edMcu | scanEnd =>
    refine (command_checked hf).imp_left fun ho => passes_of_scan ?_ rfl rfl rfl
    exact (Bool.and_eq_true_iff.1 ho).1

/-- RESET, which makes no checks, passes those of its row in every state. -/
theorem latched_of_not_passes (hf : s.status.fault = false) (hp : ¬ Passes i s) : Latched (exec i s) 11 s := by
  refine (exec_passes_or_latched ?_ hf).resolve_left hp
  rintro rfl
  exact hp ⟨rfl, rfl, fun h => nomatch h⟩

/-- A word that is no command latches `ProtocolFault`. -/
theorem access_write_illegal {w : Word} (hw : ¬ LegalWord w) (hf : s.status.fault = false) :
    Latched (access s (.write 0 w)) 11 s := by
  have hx : access s (.write 0 w) = runWord w s := step_write_cmd rfl
  rw [hx, runWord]
  split
  · next i hd => exact absurd (exists_decode_iff.1 ⟨i, hd⟩) hw
  · rw [rejectWord, if_neg (by simp [hf])]
    exact latched_faultCommand .protocolFault s

/-- Settles O4: the legal words are those that decode, and the operand check is one of those of R65. -/
theorem illegalWordsLatchProtocolFault : Obligations.IllegalWordsLatchProtocolFault := by
  refine fun w => ⟨fun hw => ?_, fun hw s hf => access_write_illegal hw hf, fun i s hi hf => ?_⟩
  · obtain ⟨i, hd⟩ := exists_decode_iff.2 hw
    exact ⟨i, (decode_eq_ok_iff.1 hd).1, hd⟩
  · exact latched_of_not_passes hf fun hp => by simp [hp.operands] at hi

/-- In scan mode the listed commands are all that are accepted (R64). -/
theorem mem_of_acceptedIn_scan (h : acceptedIn true i = true) :
    i ∈ [.nop, .reset, .ccPix, .edMcu, .edScan, .scanEnd] := by
  unfold acceptedIn at h
  split at h <;> simp_all

/-- A command without checks whose pseudocode cannot raise does what it says. -/
theorem command_unchecked {f : State → State} (hf : s.status.fault = false)
    (ht : command (fun _ => true) (fun s => .ok () (f s)) s = .next t) : t = f s := by
  rw [command_ok (t := f s) hf rfl rfl] at ht
  cases ht
  rfl

/-- Settles O12: the first three clauses are checks of R65 that fail; NOP and CC.PIX have none, RESET clears the fault. -/
theorem commandsInTheWrongModeLatchProtocolFault : Obligations.CommandsInTheWrongModeLatchProtocolFault := by
  refine ⟨fun i s ⟨hf, hs⟩ hi => ?_, fun i s ⟨hf, hs⟩ hi => ?_, fun i s ⟨hf, _⟩ hb hi => ?_, fun i s t hf hi ht => ?_⟩
  · refine latched_of_not_passes hf fun hp => hi (mem_of_acceptedIn_scan ?_)
    have hm := hp.mode
    rwa [hs] at hm
  · refine latched_of_not_passes hf fun hp => ?_
    have hm := hp.mode
    rw [hs] at hm
    simp only [List.mem_cons, List.not_mem_nil, or_false] at hi
    rcases hi with rfl | rfl | rfl <;> cases hm
  · refine latched_of_not_passes hf fun hp => ?_
    have hn : needsCursor i = true := by
      simp only [List.mem_cons, List.not_mem_nil, or_false] at hi
      rcases hi with (rfl | rfl | rfl) | ⟨_, rfl⟩ | ⟨_, _, rfl⟩ | ⟨_, rfl⟩ | ⟨_, rfl | rfl | rfl⟩ <;> rfl
    exact absurd (hb.symm.trans (hp.cursor hn)) Bool.false_ne_true
  · simp only [List.mem_cons, List.not_mem_nil, or_false] at hi
    unfold exec at ht
    rcases hi with rfl | rfl | rfl
    · rwa [command_unchecked (f := id) hf ht]
    · cases ht
      rfl
    · rwa [command_unchecked hf ht]

end Sys2Proof.Proofs
end

section
namespace Sys2Proof.Proofs

open Sys2Proof.Machine Sys2Proof.Spec Sys2Proof.Laws

variable {s t : State} {c : Fin 4} {rest : List Bool}

/-! ### Commands that decode one component and report a value -/

theorem componentOk_fieldOf (c : Fin 4) : componentOk (fieldOf c) = true :=
  decide_eq_true (by rw [toNat_fieldOf (by omega)]; omega)

theorem componentIndex_fieldOf (c : Fin 4) : componentIndex (fieldOf c) = c :=
  Fin.ext ((componentIndex_val (componentOk_fieldOf c)).trans (toNat_fieldOf (by omega)))

theorem component_check (c : Fin 4) (h : Streaming s) : (componentOk (fieldOf c) && s.manualStream) = true := by
  obtain ⟨_, hs, hb⟩ := h
  simp [componentOk_fieldOf, State.manualStream, manual_iff.2 hs, hb]

section
variable {α : Type} {ok : State → Bool} {run : State → Res State α} {word : α → Word}

/-- A command that writes its value to `RESULT`. -/
theorem command_result_ok {v : α} (hf : s.status.fault = false) (ho : ok s = true) (hr : run s = .ok v t) :
    command ok (fun s => (run s).bind fun v t => .ok () (setResult (word v) t)) s = .next (setResult (word v) t) :=
  command_ok hf ho (by rw [hr]; rfl)

theorem command_result_raised {k : FaultKind} (hf : s.status.fault = false) (ho : ok s = true)
    (hr : run s = .raised k t) :
    Latched (command ok (fun s => (run s).bind fun v t => .ok () (setResult (word v) t)) s) k.code t := by
  rw [command_raised (k := k) (t := t) hf ho (by rw [hr]; rfl)]
  exact latched_faultCommand k t

end

theorem exec_edDc (c : Fin 4) (s : State) : exec (.edDc (fieldOf c)) s =
    command (fun s => componentOk (fieldOf c) && s.manualStream)
      (fun s => (decodeDc c s).bind fun v t => .ok () (setResult (BitVec.ofInt 32 v) t)) s := by
  rw [exec, execEdDc, componentIndex_fieldOf]

theorem exec_edDc_ok {v : Int} (h : Streaming s) (hd : decodeDc c s = .ok v t) :
    exec (.edDc (fieldOf c)) s = .next (setResult (BitVec.ofInt 32 v) t) := by
  rw [exec_edDc]
  exact command_result_ok h.1 (component_check c h) hd

theorem exec_edDc_raised {k : FaultKind} (h : Streaming s) (hd : decodeDc c s = .raised k t) :
    Latched (exec (.edDc (fieldOf c)) s) k.code t := by
  rw [exec_edDc]
  exact command_result_raised h.1 (component_check c h) hd

theorem exec_edAc (c : Fin 4) (s : State) : exec (.edAc (fieldOf c)) s =
    command (fun s => componentOk (fieldOf c) && s.manualStream)
      (fun s => (decodeAc c s).bind fun k t => .ok () (setResult (BitVec.ofNat 32 k) t)) s := by
  rw [exec, execEdAc, componentIndex_fieldOf]

theorem exec_edAc_ok {k : Nat} (h : Streaming s) (hd : decodeAc c s = .ok k t) :
    exec (.edAc (fieldOf c)) s = .next (setResult (BitVec.ofNat 32 k) t) := by
  rw [exec_edAc]
  exact command_result_ok h.1 (component_check c h) hd

theorem exec_edAc_raised {k : FaultKind} (h : Streaming s) (hd : decodeAc c s = .raised k t) :
    Latched (exec (.edAc (fieldOf c)) s) k.code t := by
  rw [exec_edAc]
  exact command_result_raised h.1 (component_check c h) hd

/-! ### ED.DC (R133) -/

section
variable {td : HuffTable}

/-- A sum that leaves 16 bits is raised once the difference's bits are taken. -/
theorem decodeDc_out_of_range {cb : CodedBlock} {d : Int}
    (hh : s.tables.huff 0 (slotOfId s.setup.comp[c].td) = some td) (ht : td.Built) (hd : cb.difference td = some d)
    (hfit : ¬ Fits16 (s.walk.pred[c].toInt + d)) (hs : bitsOf s = cb.dcBits td ++ rest) :
    ∃ r, decodeDc c s = .raised .rangeFault { s with stream := r } ∧
      Delivers s.inBuf s.stream (cb.dcBits td) rest r := by
  have hout : s.walk.pred[c].toInt + d < -32768 ∨ 32767 < s.walk.pred[c].toInt + d := by omega
  unfold CodedBlock.difference at hd
  split at hd
  · next h =>
    obtain ⟨ha, h11, hx⟩ := h
    cases hd
    rw [CodedBlock.dcBits, List.append_assoc] at hs
    obtain ⟨r1, h1, hd1⟩ := decodeSymbol_code (inBuf_len_lt s) ht ha hs
    obtain ⟨r2, h2, hd2⟩ := receiveExtend_bits (inBuf_len_lt s) hx hd1.after
    refine ⟨r2, ?_, hd1.trans hd2⟩
    simp only [decodeDc, hh, h1, onStream_ok, bind_ok]
    rw [if_neg (by omega), show State.inBuf { s with stream := r1 } = s.inBuf from rfl, h2, onStream_ok, bind_ok]
    exact if_pos hout
  · simp at hd

/-- A symbol above 11 is no category (R73). -/
theorem decodeDc_bad_symbol {code : Code} (hh : s.tables.huff 0 (slotOfId s.setup.comp[c].td) = some td)
    (ht : td.Built) (hc : code.Assigned td) (h11 : 11 < (code.symbol td).toNat) (hs : bitsOf s = code.bits td ++ rest) :
    ∃ r, decodeDc c s = .raised .invalidHuffmanCode { s with stream := r } ∧
      Delivers s.inBuf s.stream (code.bits td) rest r := by
  obtain ⟨r, h1, hd⟩ := decodeSymbol_code (inBuf_len_lt s) ht hc hs
  refine ⟨r, ?_, hd⟩
  rw [decodeDc, hh, h1, onStream_ok, bind_ok, if_pos h11]

end

/-- Settles O32: each way `decode_dc` can end, with what it has taken of the stream. -/
theorem edDcDecodesOneDcValue : Obligations.EdDcDecodesOneDcValue := by
  refine ⟨fun s c td cb d rest hst hh ht hd hs => ⟨fun hfit => ?_, fun hfit => ?_⟩, fun s c hst =>
    ⟨fun hh => ?_, fun td hh ht => ⟨fun taken rest hl hs hno => ?_, fun hl hno => ?_⟩, fun td code rest hh ht hc hs =>
      ⟨fun h11 => ?_, fun h11 hl => ?_⟩⟩⟩
  · obtain ⟨r, h, hdel⟩ := decodeDc_coded hh ht hd hfit hs
    exact ⟨r, exec_edDc_ok hst h, hdel.took⟩
  · obtain ⟨r, h, hdel⟩ := decodeDc_out_of_range hh ht hd hfit hs
    exact ⟨r, exec_edDc_raised hst h, hdel.took⟩
  · exact exec_edDc_raised hst (decodeDc_no_symbol (r := s.stream) (by rw [hh]; rfl))
  · obtain ⟨r, h, hdel⟩ := decodeSymbol_reject (inBuf_len_lt s) hl hs hno
    exact ⟨r, exec_edDc_raised hst (decodeDc_no_symbol (by rw [hh]; exact h)), hdel.took⟩
  · obtain ⟨r, h, he⟩ := decodeSymbol_short (inBuf_len_lt s) hl hno
    exact ⟨r, exec_edDc_raised hst (decodeDc_no_symbol (by rw [hh]; exact h)), he⟩
  · obtain ⟨r, h, hdel⟩ := decodeDc_bad_symbol hh ht hc h11 hs
    exact ⟨r, exec_edDc_raised hst h, hdel.took⟩
  · obtain ⟨r, h, he⟩ := decodeDc_short hh ht hc h11 hs hl
    exact ⟨r, exec_edDc_raised hst h, he⟩

/-! ### ED.AC (R135) -/

section
variable {ta : HuffTable} {k : Nat} {f : Block (BitVec 16)}

/-- A legal AC part leaves `COEF[0]` and ends within the block. -/
theorem coefficients_bounds {cb : CodedBlock} {g : Block (BitVec 16)} (h : cb.coefficients ta f = some (k, g)) :
    g[0] = f[0] ∧ 1 ≤ k ∧ k ≤ 64 := by
  have he : expandAc ta cb.ac 1 (dcOnly f) = some (k, g) := by
    unfold CodedBlock.coefficients at h
    split at h
    · next he _ =>
      split at h
      · rwa [← h]
      · simp at h
    · next he _ =>
      split at h
      · rwa [← h]
      · simp at h
    · simp at h
  obtain ⟨h1, h64, h0⟩ := expandAc_bounds le_rfl (by omega) he
  exact ⟨h0.trans (Vector.getElem_set_self _), h1, h64⟩

/-- Settles O33: the AC part of a coded block, decoded. -/
theorem edAcDecodesTheCodedCoefficients : Obligations.EdAcDecodesTheCodedCoefficients := by
  intro s c ta cb k f rest hst hh ht hc hs
  obtain ⟨h0, h1, h64⟩ := coefficients_bounds hc
  obtain ⟨r, h, hdel⟩ := decodeAc_coded hh ht hc hs
  exact ⟨h0, h1, h64, r, exec_edAc_ok hst h, hdel.took⟩

/-- The checks on an AC symbol, the size before the position. -/
theorem acStep_bad_symbol {sym : Byte}
    (h : 11 < sizeField sym ∨ (sizeField sym = 0 ∧ runField sym ≠ 0 ∧ runField sym ≠ 15)) :
    acStep sym k = .fault .invalidHuffmanCode := by
  simp only [acStep, (acFields sym).1, (acFields sym).2]
  rcases h with h | ⟨h0, hr0, hr15⟩
  · rw [if_neg (by omega), if_pos h]
  · rw [if_pos h0, if_neg hr0, if_neg hr15]

theorem acStep_overflow {sym : Byte}
    (h : (sizeField sym = 0 ∧ runField sym = 15 ∧ 49 ≤ k) ∨
      (1 ≤ sizeField sym ∧ sizeField sym ≤ 11 ∧ 63 < k + runField sym)) :
    acStep sym k = .fault .blockOverflow := by
  simp only [acStep, (acFields sym).1, (acFields sym).2]
  rcases h with ⟨h0, hr15, hk⟩ | ⟨h1, h11, hk⟩
  · rw [if_pos h0, if_neg (by omega), if_pos hr15, if_pos (by omega)]
  · rw [if_neg (by omega), if_neg (by omega), dif_neg (by omega)]

theorem decodeAc_eq {slot : Option HuffTable} (hh : s.tables.huff 1 (slotOfId s.setup.comp[c].ta) = slot) :
    decodeAc c s = decodeAcFrom slot (64 - 1) 1 (clearAc s) := by
  rw [decodeAc, hh]
  exact decodeAcFrom_fuel _ (by omega) (by omega) _

/-- `decode_ac` where the slot was never loaded: `COEF[1..63]` have been cleared. -/
theorem decodeAc_no_table (hh : s.tables.huff 1 (slotOfId s.setup.comp[c].ta) = none) :
    decodeAc c s = .raised .undefinedTableReference (clearAc s) :=
  (decodeAc_eq hh).trans (decodeAcFrom_no_symbol (r := s.stream) (by omega) rfl)

/-- Behind legal tokens ED.AC stands at position `k` of its loop, in a state `u` with the coefficients so far; a fault of
the loop from there is the command's. -/
theorem edAc_behind_tokens {toks : List AcToken} (hst : Streaming s)
    (hh : s.tables.huff 1 (slotOfId s.setup.comp[c].ta) = some ta) (ht : ta.Built)
    (he : expandAc ta toks 1 (dcOnly s.buf.coef) = some (k, f)) (hs : bitsOf s = tokensBits ta toks ++ rest) :
    ∃ u : State, u.inBuf = s.inBuf ∧ Delivers s.inBuf s.stream (tokensBits ta toks) rest u.stream ∧
      ∀ {kind : FaultKind} {r : Stream}, decodeAcFrom (some ta) (64 - k) k u = .raised kind { u with stream := r } →
        Latched (exec (.edAc (fieldOf c)) s) kind.code { s with stream := r, buf := { s.buf with coef := f } } := by
  obtain ⟨r, h, hdel⟩ := decodeAcFrom_tokens ht (s := clearAc s) le_rfl (by omega) he hs
  exact ⟨{ s with stream := r, buf := { s.buf with coef := f } }, rfl, hdel,
    fun hr => exec_edAc_raised hst (((decodeAc_eq hh).trans h).trans hr)⟩

/-- The loop of `decode_ac` where a symbol fails its checks. -/
theorem decodeAcFrom_rejects (ht : ta.Built) {code : Code} (hc : code.Assigned ta) (hk : k ≤ 63) {kind : FaultKind}
    (hstep : acStep (code.symbol ta) k = .fault kind) (hs : streamBits s.inBuf s.stream = code.bits ta ++ rest) :
    ∃ r, decodeAcFrom (some ta) (64 - k) k s = .raised kind { s with stream := r } ∧
      Delivers s.inBuf s.stream (code.bits ta) rest r := by
  obtain ⟨fuel, hfuel⟩ : ∃ f, 64 - k = f + 1 := ⟨63 - k, by omega⟩
  obtain ⟨r, h, hdel⟩ := decodeSymbol_code (inBuf_len_lt s) ht hc hs
  refine ⟨r, ?_, hdel⟩
  rw [hfuel, decodeAcFrom, if_neg (by omega), h, onStream_ok, bind_ok, hstep]

end

/-- Settles O34: behind legal tokens, each way the loop of `decode_ac` can fail on what is left of the stream. -/
theorem edAcRejectsBadSymbolsAndOverflow : Obligations.EdAcRejectsBadSymbolsAndOverflow := by
  refine ⟨fun s c hst hh => exec_edAc_raised hst (decodeAc_no_table hh), ?_⟩
  intro s c ta toks k f left hst hh ht he hk hs
  obtain ⟨u, hu, hd1, latched⟩ := edAc_behind_tokens hst hh ht he hs
  rw [← hu] at hd1 ⊢
  have hs1 := hd1.after
  have hb := inBuf_len_lt u
  refine ⟨fun code rest hc hl => ?_, fun taken rest hlen hl hno => ?_, fun hlen hno => ?_⟩
  · rw [hl] at hs1 hd1
    refine ⟨fun h => ?_, fun h => ?_, fun ⟨hlo, hhi, hr, hlen⟩ => ?_⟩
    · obtain ⟨r2, h2, hd2⟩ := decodeAcFrom_rejects ht hc hk (acStep_bad_symbol h) hs1
      exact ⟨r2, latched h2, (hd1.trans hd2).took⟩
    · obtain ⟨r2, h2, hd2⟩ := decodeAcFrom_rejects ht hc hk (acStep_overflow h) hs1
      exact ⟨r2, latched h2, (hd1.trans hd2).took⟩
    · obtain ⟨r2, h2, hend⟩ := decodeAcFrom_short ht hc hs1 hlo hhi hr hlen
      exact ⟨r2, latched h2, hend⟩
  · rw [hl] at hs1 hd1
    obtain ⟨r2, h2, hd2⟩ := decodeSymbol_reject hb hlen hs1 hno
    exact ⟨r2, latched (decodeAcFrom_no_symbol hk h2), (hd1.trans hd2).took⟩
  · rw [← hs1] at hlen hno
    obtain ⟨r2, h2, hend⟩ := decodeSymbol_short hb hlen hno
    exact ⟨r2, latched (decodeAcFrom_no_symbol hk h2), hend⟩

end Sys2Proof.Proofs
end

section
namespace Sys2Proof.Proofs

open Sys2Proof.Machine Sys2Proof.Spec Sys2Proof.Laws

variable {s : State} {n : Nat}

/-! ### The checks of the stream commands -/

theorem manualStream_of_streaming (h : Streaming s) : s.manualStream = true := by
  obtain ⟨_, hs, hb⟩ := h
  simp [State.manualStream, manual_iff.2 hs, hb]

theorem bitCount_check (h : Streaming s) (hn : n ≤ 16) : (bitCountOk (fieldOf n) && s.manualStream) = true := by
  simp [bitCountOk, toNat_fieldOf (show n < 256 by omega), hn, manualStream_of_streaming h]

theorem category_check (h : Streaming s) (hn : n ≤ 11) : (categoryOk (fieldOf n) && s.manualStream) = true := by
  simp [categoryOk, toNat_fieldOf (show n < 256 by omega), hn, manualStream_of_streaming h]

/-- Without a cursor a command that needs bits latches `ProtocolFault` (R65 check 4). -/
theorem latched_of_no_cursor {i : Instr} (h : Manual s) (hb : s.stream.brv = false) (hi : needsCursor i = true) :
    Latched (exec i s) 11 s :=
  latched_of_not_passes h.1 fun hp => absurd (hb.symm.trans (hp.cursor hi)) Bool.false_ne_true

/-! ### BR.INIT and BR.ALIGN (R97, R100) -/

theorem exec_brInit (s : State) :
    exec .brInit s = command (fun s => s.manual && s.argInBuffer) (fun s => .ok () (startStream s)) s := rfl

/-- Settles O23: BR.INIT is `startStream` where `ARG` lies in the buffer, and its check fails where it does not. -/
theorem brInitStartsAStream : Obligations.BrInitStartsAStream := by
  refine ⟨by decide, fun s ⟨hf, hs⟩ => ⟨fun ha => ⟨InputWatch.reset, ?_⟩, fun ha => ?_⟩⟩
  · rw [exec_brInit]
    exact command_ok hf (by simp [manual_iff.2 hs, State.argInBuffer, ha]) rfl
  · rw [exec_brInit]
    exact (command_checked hf).resolve_left (by simp [State.argInBuffer, ha])

theorem exec_brAlign (s : State) :
    exec .brAlign s = command State.manualStream (fun s => .ok () { s with stream := alignStream s.stream }) s := rfl

/-- Settles O26: BR.ALIGN is `align()` where a cursor has been set. -/
theorem brAlignDropsTheRestOfTheByte : Obligations.BrAlignDropsTheRestOfTheByte := by
  refine ⟨by decide, fun s h => ?_, fun s h hb => latched_of_no_cursor h hb rfl⟩
  rw [exec_brAlign]
  exact command_ok h.1 (manualStream_of_streaming h) rfl

/-! ### Reports of a request for bits (R98, R99) -/

/-- The marker report of R66 as a number. -/
theorem markerReport_eq_ofNat (c : Byte) : markerReport c = BitVec.ofNat 32 (0x80000000 + c.toNat) := by
  have hc := c.isLt
  apply BitVec.eq_of_toNat_eq
  rw [markerReport, BitVec.toNat_or, BitVec.toNat_setWidth, BitVec.toNat_ofNat, BitVec.toNat_ofNat,
    Nat.mod_eq_of_lt (by omega), Nat.mod_eq_of_lt (by omega), Nat.mod_eq_of_lt (by omega)]
  exact (Nat.two_pow_add_eq_or_of_lt (i := 31) (by omega) 1).symm

section
variable {ok : State → Bool} {run : State → BitResult Nat × Stream} {r : Stream}

theorem command_reportBits_got {v : Nat} (hf : s.status.fault = false) (ho : ok s = true) (hr : run s = (.got v, r)) :
    command ok (fun s => reportBits s (run s)) s = .next { s with stream := r, result := BitVec.ofNat 32 v } :=
  command_ok hf ho (by rw [hr]; rfl)

theorem command_reportBits_marker (hf : s.status.fault = false) (ho : ok s = true) (hr : run s = (.marker, r)) :
    command ok (fun s => reportBits s (run s)) s =
      .next { s with stream := r, result := BitVec.ofNat 32 (0x80000000 + r.markc.toNat) } := by
  rw [← markerReport_eq_ofNat]
  exact command_ok hf ho (by rw [hr]; rfl)

theorem command_reportBits_endOfData (hf : s.status.fault = false) (ho : ok s = true) (hr : run s = (.endOfData, r)) :
    Latched (command ok (fun s => reportBits s (run s)) s) 8 { s with stream := r } := by
  rw [command_raised (k := .unexpectedEndOfStream) (t := { s with stream := r }) hf ho (by rw [hr]; rfl)]
  exact latched_faultCommand _ _

end

/-! ### BR.BIT (R98) -/

section
variable {b : Input} {r r' : Stream}

/-! One equation for each case of `fetch_byte()` (R91, R92). -/

theorem fetchByte_marked (hm : r.markf = true) : fetchByte b r = (.marker, r) := if_pos hm

section
variable (hm : r.markf = false)
include hm

theorem fetchByte_past_end (hl : b.len ≤ r.pos.toNat) : fetchByte b r = (.endOfData, r) := by
  simp [fetchByte, hm, hl]

theorem fetchByte_plain (hl : r.pos.toNat < b.len) (hb : b.byte r.pos.toNat ≠ 0xFF) :
    fetchByte b r = (.got (), { r with cur := b.byte r.pos.toNat, cnt := 8, pos := r.pos + 1 }) := by
  rw [fetchByte, if_neg (by simp [hm]), if_neg (by omega), if_pos hb]

/-- A last byte `0xFF`. -/
theorem fetchByte_cut_escape (hb : b.byte r.pos.toNat = 0xFF) (hl : b.len = r.pos.toNat + 1) :
    fetchByte b r = (.endOfData, r) := by
  rw [fetchByte, if_neg (by simp [hm]), if_neg (by omega), if_neg (not_not.2 hb), if_pos (by omega)]

theorem fetchByte_stuffed (hb : b.byte r.pos.toNat = 0xFF) (hl : r.pos.toNat + 1 < b.len)
    (h0 : b.byte (r.pos.toNat + 1) = 0x00) :
    fetchByte b r = (.got (), { r with cur := 0xFF, cnt := 8, pos := r.pos + 2 }) := by
  rw [fetchByte, if_neg (by simp [hm]), if_neg (by omega), if_neg (not_not.2 hb), if_neg (by omega), if_pos h0]

theorem fetchByte_meets_marker (hb : b.byte r.pos.toNat = 0xFF) (hl : r.pos.toNat + 1 < b.len)
    (h0 : b.byte (r.pos.toNat + 1) ≠ 0x00) :
    fetchByte b r = (.marker, { r with markf := true, markc := b.byte (r.pos.toNat + 1) }) := by
  rw [fetchByte, if_neg (by simp [hm]), if_neg (by omega), if_neg (not_not.2 hb), if_neg (by omega), if_neg h0]

end

/-- A bit held in `CUR` (R93). -/
theorem nextBit_held (n : Fin 8) (hc : r.cnt.val = n.val + 1) :
    nextBit b r = (.got (r.cur.getLsbD n.val), { r with cnt := ⟨n.val, by omega⟩ }) := by
  have h0 : r.cnt ≠ 0 := fun h => by simp [h] at hc
  simp [nextBit, h0, deliverBit, hc]

/-- The first bit of a byte just fetched. -/
theorem nextBit_fetched {x : Bool} (hc : r.cnt = 0) (hf : fetchByte b r = (.got (), r')) (h8 : r'.cnt = 8)
    (hx : r'.cur.getLsbD 7 = x) : nextBit b r = (.got x, { r' with cnt := 7 }) := by
  simp [nextBit, hc, hf, deliverBit, h8, ← hx]

theorem nextBit_marker (hc : r.cnt = 0) (hf : fetchByte b r = (.marker, r')) : nextBit b r = (.marker, r') := by
  rw [nextBit, if_pos hc, hf]

theorem nextBit_endOfData (hc : r.cnt = 0) (hf : fetchByte b r = (.endOfData, r')) :
    nextBit b r = (.endOfData, r') := by
  rw [nextBit, if_pos hc, hf]

end

theorem exec_brBit (s : State) : exec .brBit s = command State.manualStream (fun s =>
    reportBits s ((nextBit s.inBuf s.stream).1.map Bool.toNat, (nextBit s.inBuf s.stream).2)) s := rfl

section
variable {r : Stream} (h : Streaming s)
include h

theorem exec_brBit_got {x : Bool} (hn : nextBit s.inBuf s.stream = (.got x, r)) :
    exec .brBit s = .next { s with stream := r, result := if x then 1 else 0 } := by
  have hx : (if x then 1 else 0 : Word) = BitVec.ofNat 32 x.toNat := by cases x <;> rfl
  rw [exec_brBit, hx]
  exact command_reportBits_got h.1 (manualStream_of_streaming h) (by rw [hn]; rfl)

theorem exec_brBit_marker (hn : nextBit s.inBuf s.stream = (.marker, r)) :
    exec .brBit s = .next { s with stream := r, result := BitVec.ofNat 32 (0x80000000 + r.markc.toNat) } := by
  rw [exec_brBit]
  exact command_reportBits_marker h.1 (manualStream_of_streaming h) (by rw [hn]; rfl)

theorem exec_brBit_endOfData (hn : nextBit s.inBuf s.stream = (.endOfData, r)) :
    Latched (exec .brBit s) 8 { s with stream := r } := by
  rw [exec_brBit]
  exact command_reportBits_endOfData h.1 (manualStream_of_streaming h) (by rw [hn]; rfl)

end

/-- Settles O24: a held bit, or each case of `fetch_byte()`. -/
theorem brBitDeliversTheNextBit : Obligations.BrBitDeliversTheNextBit := by
  refine ⟨by decide, fun s h hb => latched_of_no_cursor h hb rfl, fun s h =>
    ⟨fun n hn => exec_brBit_got h (nextBit_held n hn), fun hc hm => ?_, fun hc hm =>
      ⟨fun hl => ?_, fun hl hb => ?_, fun hb hl => ?_, fun hb hl => ⟨fun h0 => ?_, fun h0 => ?_⟩⟩⟩⟩
  · exact exec_brBit_marker h (nextBit_marker hc (fetchByte_marked hm))
  · exact exec_brBit_endOfData h (nextBit_endOfData hc (fetchByte_past_end hm hl))
  · exact exec_brBit_got h (nextBit_fetched hc (fetchByte_plain hm hl hb) rfl rfl)
  · exact exec_brBit_endOfData h (nextBit_endOfData hc (fetchByte_cut_escape hm hb hl))
  · exact exec_brBit_got (x := true) h (nextBit_fetched hc (fetchByte_stuffed hm hb hl h0) rfl
      (show (0xFF : Byte).getLsbD 7 = true by decide))
  · exact exec_brBit_marker h (nextBit_marker hc (fetchByte_meets_marker hm hb hl h0))

/-! ### BR.BITS (R99) -/

theorem exec_brBits (hn : n ≤ 16) (s : State) : exec (.brBits (fieldOf n)) s =
    command (fun s => bitCountOk (fieldOf n) && s.manualStream)
      (fun s => reportBits s (nextBits s.inBuf n s.stream)) s := by
  rw [exec, execBrBits, toNat_fieldOf (by omega)]

/-- Fewer than `n` bits, ended by a marker (R94). -/
theorem nextBits_marker {b : Input} (hb : b.len < 2 ^ 32) {r : Stream} (hl : (streamBits b r).length < n)
    (hm : r.markf = true ∨ streamEnd b r + 1 < b.len) :
    ∃ r', nextBits b n r = (.marker, r') ∧ streamBits b r' = [] ∧ r'.markf = true ∧
      r'.markc = if r.markf then r.markc else b.byte (streamEnd b r + 1) := by
  obtain ⟨hnil, hmark, -⟩ := nextBitsFrom_end hb 0 hl
  obtain ⟨hx, hmf, hmc⟩ := hmark hm
  exact ⟨_, Prod.ext hx rfl, hnil, hmf, hmc⟩

/-- Fewer than `n` bits, ended by the end of the data (R94). -/
theorem nextBits_endOfData {b : Input} (hb : b.len < 2 ^ 32) {r : Stream} (hl : (streamBits b r).length < n)
    (hm : r.markf = false) (he : b.len ≤ streamEnd b r + 1) :
    ∃ r', nextBits b n r = (.endOfData, r') ∧ streamBits b r' = [] ∧ r'.markf = false := by
  obtain ⟨hnil, -, hend⟩ := nextBitsFrom_end hb 0 hl
  obtain ⟨hx, hmf⟩ := hend hm he
  exact ⟨_, Prod.ext hx rfl, hnil, hmf⟩

/-- Settles O25: each outcome of `next_bits(n)`. -/
theorem brBitsTakesTheNextBitsAsOneValue : Obligations.BrBitsTakesTheNextBitsAsOneValue := by
  intro s n h hn
  have hb := inBuf_len_lt s
  have ho := bitCount_check h hn
  rw [exec_brBits hn, show (0 : Byte) = fieldOf 0 from rfl, exec_brBits (Nat.zero_le 16)]
  refine ⟨command_reportBits_got h.1 (bitCount_check h (Nat.zero_le 16)) rfl, fun taken rest hs hl => ?_,
    fun hl hm => ?_, fun hl hm he => ?_⟩
  · subst hl
    obtain ⟨r, hr, hd⟩ := nextBits_append hb hs
    exact ⟨r, command_reportBits_got h.1 ho hr, hd.took⟩
  · obtain ⟨r, hr, hmet⟩ := nextBits_marker hb hl hm
    exact ⟨r, command_reportBits_marker h.1 ho hr, hmet⟩
  · obtain ⟨r, hr, hend⟩ := nextBits_endOfData hb hl hm he
    exact ⟨r, command_reportBits_endOfData h.1 ho hr, hend⟩

/-! ### ED.RCVX (R132) -/

theorem exec_edRcvx (hn : n ≤ 11) (s : State) : exec (.edRcvx (fieldOf n)) s =
    command (fun s => categoryOk (fieldOf n) && s.manualStream) (fun s =>
      ((receiveExtend s.inBuf n s.stream).onStream s).bind fun v t => .ok () (setResult (BitVec.ofInt 32 v) t)) s := by
  rw [exec, execEdRcvx, toNat_fieldOf (by omega)]
  rfl

theorem exec_edRcvx_ok {v : Int} {r : Stream} (h : Streaming s) (hn : n ≤ 11)
    (hr : receiveExtend s.inBuf n s.stream = .ok v r) :
    exec (.edRcvx (fieldOf n)) s = .next { s with stream := r, result := BitVec.ofInt 32 v } := by
  rw [exec_edRcvx hn]
  exact command_result_ok (v := v) (t := { s with stream := r }) h.1 (category_check h hn) (by rw [hr]; rfl)

theorem exec_edRcvx_raised {k : FaultKind} {r : Stream} (h : Streaming s) (hn : n ≤ 11)
    (hr : receiveExtend s.inBuf n s.stream = .raised k r) :
    Latched (exec (.edRcvx (fieldOf n)) s) k.code { s with stream := r } := by
  rw [exec_edRcvx hn]
  exact command_result_raised h.1 (category_check h hn) (by rw [hr]; rfl)

/-- `receive_extend` of the next bits (R131). -/
theorem receiveExtend_append {b : Input} (hb : b.len < 2 ^ 32) {r : Stream} {taken rest : List Bool}
    (hs : streamBits b r = taken ++ rest) :
    ∃ r', receiveExtend b taken.length r = .ok (extend (bitsValue taken) taken.length) r' ∧
      Delivers b r taken rest r' := by
  obtain ⟨r', hr, hd⟩ := needBits_append hb hs
  exact ⟨r', by rw [receiveExtend, hr, map_ok], hd⟩

/-- Settles O31: `receive_extend` of the next bits, or of too few. -/
theorem edRcvxSignExtendsTheNextBits : Obligations.EdRcvxSignExtendsTheNextBits := by
  intro s n h hn
  have hb := inBuf_len_lt s
  refine ⟨fun taken rest hl hs => ?_, fun hl => ?_⟩
  · subst hl
    obtain ⟨r, hr, hd⟩ := receiveExtend_append hb hs
    exact ⟨r, exec_edRcvx_ok h hn hr, hd.took⟩
  · obtain ⟨r, hr, hend⟩ := receiveExtend_short hb hl
    exact ⟨r, exec_edRcvx_raised h hn hr, hend⟩

end Sys2Proof.Proofs
end

section
namespace Sys2Proof.Proofs

open Sys2Proof.Machine Sys2Proof.Spec Sys2Proof.Laws

variable {s t : State} {c : Fin 4}

/-! ### ED.BLOCK (R138) -/

theorem exec_edBlock (c : Fin 4) (s : State) : exec (.edBlock (fieldOf c)) s =
    command (fun s => componentOk (fieldOf c) && s.manualStream)
      (fun s => (decodeBlock c s).bind fun k t => .ok () (setResult (BitVec.ofNat 32 k) t)) s := by
  rw [exec, execEdBlock, componentIndex_fieldOf]

theorem exec_edBlock_ok {k : Nat} (h : Streaming s) (hd : decodeBlock c s = .ok k t) :
    exec (.edBlock (fieldOf c)) s = .next (setResult (BitVec.ofNat 32 k) t) := by
  rw [exec_edBlock]
  exact command_result_ok h.1 (component_check c h) hd

theorem exec_edBlock_raised {k : FaultKind} (h : Streaming s) (hd : decodeBlock c s = .raised k t) :
    Latched (exec (.edBlock (fieldOf c)) s) k.code t := by
  rw [exec_edBlock]
  exact command_result_raised h.1 (component_check c h) hd

/-- A value that fits a signed 16-bit register is held exactly (R12). -/
theorem toInt_ofInt_of_fits16 {v : Int} (h : Fits16 v) : (BitVec.ofInt 16 v).toInt = v :=
  toInt_ofInt_of_fits (n := 16) h.1 (Int.lt_add_one_of_le h.2) (by omega)

/-- Settles O35: `decode_block` of a coded block, whole or cut. -/
theorem edBlockDecodesTheCodedBlock : Obligations.EdBlockDecodesTheCodedBlock := by
  intro s c td ta cb d k f rest h hd htd ha hta hdiff hfit hc
  refine ⟨fun hs => ⟨?_, ?_⟩, fun hne hs => ?_⟩
  · rw [(coefficients_bounds hc).1, Vector.getElem_set_self, toInt_ofInt_of_fits16 hfit]
  · obtain ⟨r, hr, hdel⟩ := decodeBlock_coded hd ha htd hta hdiff hfit hc hs
    exact ⟨r, exec_edBlock_ok h hr, hdel.took⟩
  · obtain ⟨r, pred, coef, hr, hend⟩ := decodeBlock_truncated hd ha htd hta hdiff hfit hc hne hs
    exact ⟨r, pred, coef, exec_edBlock_raised h hr, hend⟩

/-! ### What the stream commands leave unchanged -/

/-- `t` is `s` but for the stream, the fault registers, `FAULT` and `RESULT`, with the predictors and counters and the
record of changes of `IN` as given. -/
def StreamFrame (s t : State) (walk : Walk) (watch : InputWatch) : Prop :=
  t = { s with
    stream := t.stream, status := { s.status with fault := t.status.fault }, err := t.err, errpos := t.errpos
    result := t.result, draws := t.draws, walk := walk, watch := watch }

section
variable {walk : Walk} {watch : InputWatch}

theorem StreamFrame.faultCommand (h : StreamFrame s t walk watch) (k : FaultKind) :
    StreamFrame s (faultCommand k t) walk watch := congrArg (Machine.faultCommand k) h

theorem StreamFrame.setResult (h : StreamFrame s t walk watch) (v : Word) :
    StreamFrame s (setResult v t) walk watch := congrArg (Machine.setResult v) h

end

/-- A command keeps what a fault keeps and its pseudocode leaves. -/
theorem command_leaves {P : State → Prop} {ok : State → Bool} {body : State → Res State Unit}
    (ht : command ok body s = .next t) (h0 : P s) (hf : ∀ k u, P u → P (faultCommand k u)) (hb : Leaves P (body s)) :
    P t := by
  rcases command_cases ht with ⟨_, rfl⟩ | ⟨_, _, rfl⟩ | ⟨_, _, hbt⟩ | ⟨_, _, k, u, hbt, rfl⟩
  · exact h0
  · exact hf _ _ h0
  · rwa [hbt] at hb
  · rw [hbt] at hb
    exact hf k u hb

/-- The frame of a command that only reads the stream. -/
abbrev Reads (s t : State) : Prop := StreamFrame s t s.walk s.watch

/-- The frame of a command that starts the stream or takes a restart. -/
abbrev Restarts (s t : State) : Prop := StreamFrame s t { t.walk with mcuidx := s.walk.mcuidx } t.watch

theorem command_reads {ok : State → Bool} {body : State → Res State Unit} (ht : command ok body s = .next t)
    (hb : Leaves (Reads s) (body s)) : Reads s t :=
  command_leaves ht rfl (fun k _ h => h.faultCommand k) hb

theorem command_restarts {ok : State → Bool} {body : State → Res State Unit} (ht : command ok body s = .next t)
    (hb : Leaves (Restarts s) (body s)) : Restarts s t :=
  command_leaves ht rfl (fun k _ h => h.faultCommand k) hb

theorem reportBits_reads (s : State) (p : BitResult Nat × Stream) : Leaves (Reads s) (reportBits s p) := by
  obtain ⟨_ | _ | _, r⟩ := p <;> exact rfl

/-- A run on the stream, then its value to `RESULT`. -/
theorem onStream_result_reads {α : Type} (s : State) (r : Res Stream α) (f : α → Word) :
    Leaves (Reads s) ((r.onStream s).bind fun v t => .ok () (setResult (f v) t)) :=
  (leaves_onStream r fun _ => rfl).bind fun _ _ h => h.setResult _

theorem restartSync_restarts (s : State) : Leaves (Restarts s) (restartSync s) := by
  cases hm : restartMarkerAt s.inBuf s.stream.pos.toNat s.walk.rstexp with
  | true => rw [restartSync_ok hm]; exact rfl
  | false => rw [restartSync_missing hm]; exact rfl

/-- Settles O57: the frames of `Reads` and `Restarts`; BR.INIT alone touches the record. -/
theorem streamCommandsFrame : Obligations.StreamCommandsFrame := by
  refine fun i s t ht => ⟨fun hi => ?_, fun hi => ?_, ?_⟩
  · change Reads s t
    unfold exec at ht
    simp only [List.mem_cons, List.not_mem_nil, or_false] at hi
    rcases hi with (rfl | rfl) | ⟨n, rfl⟩ | ⟨cl, id, rfl⟩ | ⟨n, rfl⟩
    · exact command_reads ht (reportBits_reads s _)
    · exact command_reads ht rfl
    · exact command_reads ht (reportBits_reads s _)
    · exact command_reads ht (onStream_result_reads s _ _)
    · exact command_reads ht (onStream_result_reads s _ _)
  · change Restarts s t
    unfold exec at ht
    simp only [List.mem_cons, List.not_mem_nil, or_false] at hi
    rcases hi with rfl | rfl
    · exact command_restarts ht rfl
    · exact command_restarts ht ((restartSync_restarts s).bind fun _ _ h => h.setResult _)
  · rintro rfl
    exact exec_sameWatch (by simp [touchesWatch]) ht

end Sys2Proof.Proofs
end

section
namespace Sys2Proof.Proofs

open Sys2Proof.Machine Sys2Proof.Spec Sys2Proof.Laws

variable {s : State} {cl : Fin 2} {id : Fin 16}

/-! ### The codes of a table (R111, R115) -/

/-- Settles O29: the codes of a longer length lie behind those of a shorter one, as `code_prefix` has it. -/
theorem noCodeIsAPrefixOfAnother : Obligations.NoCodeIsAPrefixOfAnother :=
  fun _ _ _ ht hc hc' hp => code_prefix ht hc hc' hp

/-! ### HT.DEC (R116, R117) -/

theorem classIndex_val {cl : Byte} (h : classOk cl = true) : (classIndex cl).val = cl.toNat := by
  simp only [classOk, decide_eq_true_eq] at h
  exact Nat.mod_eq_of_lt (by omega)

theorem classOk_fieldOf (cl : Fin 2) : classOk (fieldOf cl) = true :=
  decide_eq_true (by rw [toNat_fieldOf (by omega)]; omega)

theorem classIndex_fieldOf (cl : Fin 2) : classIndex (fieldOf cl) = cl :=
  Fin.ext ((classIndex_val (classOk_fieldOf cl)).trans (toNat_fieldOf (by omega)))

theorem exec_htDec (cl : Fin 2) (id : Fin 16) (s : State) : exec (.htDec (fieldOf cl) (fieldOf id)) s =
    command (fun s => classOk (fieldOf cl) && tableIdOk (fieldOf id) && s.manualStream) (fun s =>
      ((decodeSymbol s.inBuf (s.tables.huff cl id) s.stream).onStream s).bind fun sym t =>
        .ok () (setResult (sym.setWidth 32) t)) s := by
  rw [exec, execHtDec, classIndex_fieldOf, slotIndex_fieldOf]
  rfl

theorem htDec_check (cl : Fin 2) (id : Fin 16) (h : Streaming s) :
    (classOk (fieldOf cl) && tableIdOk (fieldOf id) && s.manualStream) = true := by
  rw [classOk_fieldOf, tableIdOk_fieldOf, manualStream_of_streaming h]
  rfl

theorem exec_htDec_ok {sym : Byte} {r : Stream} (h : Streaming s)
    (hr : decodeSymbol s.inBuf (s.tables.huff cl id) s.stream = .ok sym r) :
    exec (.htDec (fieldOf cl) (fieldOf id)) s = .next { s with stream := r, result := sym.setWidth 32 } := by
  rw [exec_htDec]
  exact command_result_ok (v := sym) (t := { s with stream := r }) h.1 (htDec_check cl id h) (by rw [hr]; rfl)

theorem exec_htDec_raised {k : FaultKind} {r : Stream} (h : Streaming s)
    (hr : decodeSymbol s.inBuf (s.tables.huff cl id) s.stream = .raised k r) :
    Latched (exec (.htDec (fieldOf cl) (fieldOf id)) s) k.code { s with stream := r } := by
  rw [exec_htDec]
  exact command_result_raised h.1 (htDec_check cl id h) (by rw [hr]; rfl)

/-- Settles O28: the outcomes of `decode_symbol` in an empty slot, and in a built table on a code, on sixteen bits that
begin with no code, and on fewer. -/
theorem htDecDecodesExactlyTheAssignedCodes : Obligations.HtDecDecodesExactlyTheAssignedCodes := by
  refine fun s cl id h => ⟨fun hn => ?_, fun table ht hbuilt => ?_⟩
  · exact exec_htDec_raised (k := .undefinedTableReference) h (by rw [hn]; rfl)
  have hb := inBuf_len_lt s
  refine ⟨fun code rest ha hs => ?_, fun taken rest hl hs hno => ?_, fun hl hno => ?_⟩
  · obtain ⟨r, hr, hd⟩ := decodeSymbol_code hb hbuilt ha hs
    exact ⟨r, exec_htDec_ok h (ht ▸ hr), hd.took⟩
  · obtain ⟨r, hr, hd⟩ := decodeSymbol_reject hb hl hs hno
    exact ⟨r, exec_htDec_raised h (ht ▸ hr), hd.took⟩
  · obtain ⟨r, hr, hend⟩ := decodeSymbol_short hb hl hno
    exact ⟨r, exec_htDec_raised h (ht ▸ hr), hend⟩

end Sys2Proof.Proofs
end

section
namespace Sys2Proof.Proofs

open Sys2Proof.Machine Sys2Proof.Spec Sys2Proof.Laws

variable {s : State} {cl : Fin 2} {id : Fin 16}

/-! ### The definition HT.LOAD reads (R74, R113) -/

section
variable (b : Input) (a : Nat)

theorem getElem_countsAt (l : Fin 16) : (countsAt b a)[l] = b.byte (a + l.val) := by
  simp only [countsAt, Fin.getElem_fin, Vector.getElem_ofFn]

theorem symbolCount_countsAt :
    symbolCount (countsAt b a) = ((List.range 16).map fun l => (b.byte (a + l)).toNat).sum := by
  rw [symbolCount, countList, countsAt, Vector.toList_ofFn, List.ofFn_eq_map, List.map_map,
    ← List.map_coe_finRange_eq_range, List.map_map]
  rfl

theorem length_symbolsAt (n : Nat) : (symbolsAt b a n).length = n := by
  rw [symbolsAt, List.length_map, List.length_range]

theorem getElem?_symbolsAt {n j : Nat} (h : j < n) : (symbolsAt b a n)[j]? = some (b.byte (a + 16 + j)) := by
  rw [symbolsAt, List.getElem?_map, List.getElem?_range h, Option.map_some]

end

/-- The checks of R113 in their order, and the table `build` makes. -/
theorem readDefinition_eq_some_iff {b : Input} {a : Nat} {t : HuffTable} : readDefinition b a = some t ↔
    a + 16 ≤ b.len ∧ symbolCount (countsAt b a) ≤ 256 ∧ a + 16 + symbolCount (countsAt b a) ≤ b.len ∧
      buildTable (countsAt b a) (symbolsAt b a (symbolCount (countsAt b a))) = some t := by
  unfold readDefinition
  split_ifs with h16 hn hs
  · simp [Nat.not_le.2 h16]
  · simp [Nat.not_le.2 hn]
  · simp [Nat.not_le.2 hs]
  · simp [Nat.not_lt.1 h16, Nat.not_lt.1 hn, Nat.not_lt.1 hs]

/-! ### The canonical table (R112) -/

/-- The counts of lengths 1, 2, … are `L 0, L 1, …`. -/
def CountsAre (counts : Vector Byte 16) (L : Nat → Nat) : Prop := ∀ i, (h : i < 16) → (counts[i]).toNat = L i

section
variable {t : HuffTable} {L : Nat → Nat} (hc : CanonicalRows t) (hL : CountsAre t.counts L)
include hc hL

theorem first_eq_firstCode (i : Nat) (h : i < 16) : t.first[i] = firstCode L i := by
  induction i with
  | zero => exact hc.firstZero
  | succ i ih => rw [hc.firstSucc i h, ih (by omega), hL i (by omega), firstCode]

theorem offset_eq_firstIndex (i : Nat) (h : i < 16) : t.offset[i] = firstIndex L i := by
  induction i with
  | zero => exact hc.offsetZero
  | succ i ih => rw [hc.offsetSucc i h, ih (by omega), hL i (by omega), firstIndex]

end

/-- `build` makes a table exactly where no length has more codes than are left for it (R113 check 4). -/
theorem exists_buildTable_iff {counts : Vector Byte 16} {L : Nat → Nat} (hL : CountsAre counts L) (sym : List Byte) :
    (∃ t, buildTable counts sym = some t) ↔ ∀ i < 16, firstCode L i + L i ≤ 2 ^ (i + 1) := by
  have hget : ∀ i < 16, (countList counts).getD i 0 = L i := fun i h => (countList_getD counts h).trans (hL i h)
  constructor
  · rintro ⟨t, ht⟩ i hi
    obtain ⟨rfl, -, -, hc⟩ := buildTable_canonical ht
    have hroom := hc.room i hi
    rwa [first_eq_firstCode hc hL i hi, hL i hi] at hroom
  · intro hroom
    obtain ⟨rows, hr⟩ := buildRows_total (counts := countList counts) (l := 1) (code := 0) (k := 0) (firstCode L)
      rfl
      (fun i hi => by rw [hget i (by rw [countList_length] at hi; omega), firstCode])
      (fun i hi => by
        rw [countList_length] at hi
        rw [hget i hi, Nat.add_comm 1 i]
        exact hroom i hi)
    exact ⟨_, by rw [buildTable, hr]; rfl⟩

theorem countsAt_countsAre (b : Input) (a : Nat) : CountsAre (countsAt b a) fun l => (b.byte (a + l)).toNat :=
  fun i h => congrArg BitVec.toNat (getElem_countsAt b a ⟨i, h⟩)

/-! ### HT.LOAD (R114) -/

theorem exec_htLoad (cl : Fin 2) (id : Fin 16) (s : State) : exec (.htLoad (fieldOf cl) (fieldOf id)) s =
    command (fun s => classOk (fieldOf cl) && tableIdOk (fieldOf id) && s.manual) (loadHuffman cl id) s := by
  rw [exec, execHtLoad, classIndex_fieldOf, slotIndex_fieldOf]

theorem htLoad_check (cl : Fin 2) (id : Fin 16) (h : Manual s) :
    (classOk (fieldOf cl) && tableIdOk (fieldOf id) && s.manual) = true := by
  rw [classOk_fieldOf, tableIdOk_fieldOf, manual_iff.2 h.2]
  rfl

theorem exec_htLoad_some {t : HuffTable} (h : Manual s) (ht : readDefinition s.tableBuf s.arg.toNat = some t) :
    exec (.htLoad (fieldOf cl) (fieldOf id)) s =
      .next { s with tables := s.tables.setHuff cl id t, result := BitVec.ofNat 32 (16 + t.nsym) } := by
  rw [exec_htLoad]
  exact command_ok h.1 (htLoad_check cl id h) (by rw [loadHuffman, ht]; rfl)

theorem exec_htLoad_none (h : Manual s) (hn : readDefinition s.tableBuf s.arg.toNat = none) :
    Latched (exec (.htLoad (fieldOf cl) (fieldOf id)) s) 3 s := by
  rw [exec_htLoad, command_raised (k := .malformedSegment) (t := s) h.1 (htLoad_check cl id h)
    (by rw [loadHuffman, hn])]
  exact latched_faultCommand _ _

/-- Settles O27: a definition that passes the checks of R113 is the table R112 makes of its bytes, in its slot; one that
fails any of them is no table. -/
theorem htLoadBuildsTheCanonicalTable : Obligations.HtLoadBuildsTheCanonicalTable := by
  refine ⟨fun cl id => ?_, fun s cl id h => ?_⟩
  · rw [encode, commandWord_eq_ofNat, toNat_fieldOf (by omega), toNat_fieldOf (by omega)]
    rfl
  intro L nsym valid
  have hL : CountsAre (countsAt s.tableBuf s.arg.toNat) L := countsAt_countsAre _ _
  have hn : symbolCount (countsAt s.tableBuf s.arg.toNat) = nsym := symbolCount_countsAt _ _
  have hbuild := exists_buildTable_iff hL (symbolsAt s.tableBuf s.arg.toNat nsym)
  refine ⟨fun ⟨h16, h256, hlen, hroom⟩ => ?_, fun hv => ?_⟩
  · obtain ⟨table, ht⟩ := hbuild.2 hroom
    have hread : readDefinition s.tableBuf s.arg.toNat = some table :=
      readDefinition_eq_some_iff.2 (by rw [hn]; exact ⟨h16, h256, hlen, ht⟩)
    obtain ⟨hcounts, hsym, hns, hcan⟩ := buildTable_canonical ht
    rw [hn] at hns
    have hLt : CountsAre table.counts L := hcounts ▸ hL
    refine ⟨_, table, exec_htLoad_some h hread, huff_setHuff_same _ _ _ _, hns, ?_, fun l => ?_, fun j hj => ?_,
      fun cl' id' hne => huff_setHuff_other _ _ ?_, rfl, ?_⟩
    · rw [hsym, length_symbolsAt]
    · exact ⟨hLt l l.isLt, first_eq_firstCode hcan hLt l l.isLt, offset_eq_firstIndex hcan hLt l l.isLt⟩
    · rw [hsym, getElem?_symbolsAt _ _ hj]
    · rw [← not_and_or, ← Prod.mk_inj]
      exact hne
    · rw [hns]
  · refine exec_htLoad_none h (Option.eq_none_iff_forall_ne_some.2 fun table hread => hv ?_)
    obtain ⟨h16, h256, hlen, ht⟩ := readDefinition_eq_some_iff.1 hread
    rw [hn] at h256 hlen ht
    exact ⟨h16, h256, hlen, hbuild.1 ⟨table, ht⟩⟩

end Sys2Proof.Proofs
end

section
namespace Sys2Proof.Proofs

open Sys2Proof.Machine Sys2Proof.Laws

variable {s t : State}

/-! ### What the table, block-decode and reconstruction commands leave unchanged -/

/-- `t` is `s` but for the fault registers, `FAULT` and `RESULT`, with the tables, stream, predictors and counters, and
buffers as given. -/
def OnlyBesides (s t : State) (tables : Tables) (stream : Stream) (walk : Walk) (buf : Buffers) : Prop :=
  t = { s with
    tables := tables, stream := stream, walk := walk, buf := buf
    status := { s.status with fault := t.status.fault }, err := t.err, errpos := t.errpos, result := t.result
    draws := t.draws }

section
variable {tables : Tables} {stream : Stream} {walk : Walk} {buf : Buffers}

theorem OnlyBesides.faultCommand (h : OnlyBesides s t tables stream walk buf) (k : FaultKind) :
    OnlyBesides s (faultCommand k t) tables stream walk buf := by
  obtain rfl : t.stream = stream := congrArg State.stream h
  exact congrArg (Machine.faultCommand k) h

theorem OnlyBesides.setResult (h : OnlyBesides s t tables stream walk buf) (v : Word) :
    OnlyBesides s (setResult v t) tables stream walk buf := congrArg (Machine.setResult v) h

end

/-- A command keeps what a fault keeps and its pseudocode, where the checks pass, leaves. -/
theorem command_leaves_checked {P : State → Prop} {ok : State → Bool} {body : State → Res State Unit}
    (ht : command ok body s = .next t) (h0 : P s) (hf : ∀ k u, P u → P (faultCommand k u))
    (hb : ok s = true → Leaves P (body s)) : P t := by
  cases ho : ok s with
  | true => exact command_leaves ht h0 hf (hb ho)
  | false =>
    rcases command_cases ht with ⟨_, rfl⟩ | ⟨_, _, rfl⟩ | ⟨_, ho', _⟩ | ⟨_, ho', _⟩
    · exact h0
    · exact hf _ _ h0
    all_goals exact absurd (ho.symm.trans ho') Bool.false_ne_true

/-! ### HT.LOAD and QT.LOAD: one slot -/

theorem slotIndex_val {id : Byte} (h : tableIdOk id = true) : (slotIndex id).val = id.toNat := by
  simp only [tableIdOk, decide_eq_true_eq] at h
  exact Nat.mod_eq_of_lt (by omega)

/-- `t` is `s` but for the Huffman slot the operands name, the fault registers, `FAULT` and `RESULT`. -/
def HuffSlotFrame (cl id : Byte) (s t : State) : Prop :=
  OnlyBesides s t { s.tables with ht := t.tables.ht } s.stream s.walk s.buf ∧
  ∀ (cl' : Fin 2) (id' : Fin 16), (cl'.val, id'.val) ≠ (cl.toNat, id.toNat) →
    t.tables.huff cl' id' = s.tables.huff cl' id'

theorem loadHuffman_frame {cl id : Byte} (hc : classOk cl = true) (hi : tableIdOk id = true) (s : State) :
    Leaves (HuffSlotFrame cl id s) (loadHuffman (classIndex cl) (slotIndex id) s) := by
  unfold loadHuffman
  split
  · exact ⟨rfl, fun _ _ _ => rfl⟩
  · refine ⟨rfl, fun cl' id' hne => huff_setHuff_other _ _ ?_⟩
    rw [← not_and_or]
    rintro ⟨rfl, rfl⟩
    exact hne (by rw [classIndex_val hc, slotIndex_val hi])

theorem exec_htLoad_frame {cl id : Byte} (ht : exec (.htLoad cl id) s = .next t) : HuffSlotFrame cl id s t := by
  unfold exec at ht
  refine command_leaves_checked ht ⟨rfl, fun _ _ _ => rfl⟩ (fun k _ h => ⟨h.1.faultCommand k, h.2⟩) fun ho => ?_
  obtain ⟨hc, hi⟩ := Bool.and_eq_true_iff.1 (Bool.and_eq_true_iff.1 ho).1
  exact loadHuffman_frame hc hi s

/-- `t` is `s` but for the quantizer slot the operand names, the fault registers, `FAULT` and `RESULT`. -/
def QuantSlotFrame (id : Byte) (s t : State) : Prop :=
  OnlyBesides s t { s.tables with qt := t.tables.qt } s.stream s.walk s.buf ∧
  ∀ id' : Fin 16, id'.val ≠ id.toNat → t.tables.quant id' = s.tables.quant id'

theorem loadQuant_frame {id : Byte} (hi : tableIdOk id = true) (wide : Bool) (s : State) :
    Leaves (QuantSlotFrame id s) (loadQuant wide (slotIndex id) s) := by
  unfold loadQuant
  split
  · exact ⟨rfl, fun _ _ => rfl⟩
  · exact ⟨rfl, fun id' hne => quant_setQuant_other _ _ fun he => hne (by rw [he, slotIndex_val hi])⟩

theorem exec_qtLoad_frame {prec id : Byte} (ht : exec (.qtLoad prec id) s = .next t) : QuantSlotFrame id s t := by
  unfold exec at ht
  refine command_leaves_checked ht ⟨rfl, fun _ _ => rfl⟩ (fun k _ h => ⟨h.1.faultCommand k, h.2⟩) fun ho => ?_
  exact loadQuant_frame (Bool.and_eq_true_iff.1 (Bool.and_eq_true_iff.1 ho).1).2 _ s

/-! ### ED.DC, ED.AC and ED.BLOCK: the stream, `COEF`, one predictor -/

theorem Coding.onlyBesides {c : Fin 4} (h : Coding c s t) :
    OnlyBesides s t s.tables t.stream { s.walk with pred := t.walk.pred } { s.buf with coef := t.buf.coef } := by
  rw [OnlyBesides, h.only]

/-- `t` is `s` but for the stream, `COEF`, the predictor the operand names, the fault registers, `FAULT` and
`RESULT`. -/
def DecodeFrame (comp : Byte) (s t : State) : Prop :=
  OnlyBesides s t s.tables t.stream { s.walk with pred := t.walk.pred } { s.buf with coef := t.buf.coef } ∧
  ∀ c : Fin 4, c.val ≠ comp.toNat → t.walk.pred[c] = s.walk.pred[c]

/-- A command that decodes for one component and reports a value has the frame. -/
theorem command_decodeFrame {α : Type} {comp : Byte} {run : State → Res State α} {word : α → Word}
    (ht : command (fun s => componentOk comp && s.manualStream)
      (fun s => (run s).bind fun v t => .ok () (setResult (word v) t)) s = .next t)
    (hr : Leaves (Coding (componentIndex comp) s) (run s)) : DecodeFrame comp s t := by
  refine command_leaves_checked ht ⟨rfl, fun _ _ => rfl⟩ (fun k _ h => ⟨h.1.faultCommand k, h.2⟩) fun ho => ?_
  have hv := componentIndex_val (Bool.and_eq_true_iff.1 ho).1
  refine Leaves.bind (P := DecodeFrame comp s) (hr.mono fun u h => ⟨Coding.onlyBesides h, fun c hc => ?_⟩)
    fun _ _ h => ⟨h.1.setResult _, h.2⟩
  exact h.pred c fun he => hc (by rw [he, hv])

/-- ED.DC writes no coefficient but `COEF[0]` (R133). -/
theorem exec_edDc_coef {comp : Byte} (ht : exec (.edDc comp) s = .next t) :
    ∀ k : Fin 64, k ≠ 0 → t.buf.coef[k] = s.buf.coef[k] := by
  unfold exec at ht
  refine command_leaves (P := fun u => ∀ k : Fin 64, k ≠ 0 → u.buf.coef[k] = s.buf.coef[k]) ht (fun _ _ => rfl)
    (fun _ _ h => h) ?_
  exact (decodeDc_coef _ s).bind fun _ _ h => h

/-- `t` is `s` but for the stream, `COEF[1..63]`, the fault registers, `FAULT` and `RESULT`. -/
def AcFrame (s t : State) : Prop :=
  OnlyBesides s t s.tables t.stream s.walk { s.buf with coef := t.buf.coef } ∧ t.buf.coef[0] = s.buf.coef[0]

theorem exec_edAc_frame {comp : Byte} (ht : exec (.edAc comp) s = .next t) : AcFrame s t := by
  unfold exec at ht
  refine command_leaves ht ⟨rfl, rfl⟩ (fun k _ h => ⟨h.1.faultCommand k, h.2⟩) ?_
  refine Leaves.bind (P := AcFrame s) ((Leaves.and (decodeAc_coding _ s) (decodeAc_keeps _ s)).mono ?_)
    fun _ _ h => ⟨h.1.setResult _, h.2⟩
  rintro u ⟨hc, hw, h0⟩
  have h := Coding.onlyBesides hc
  rw [hw] at h
  exact ⟨h, h0⟩

/-! ### The reconstruction commands: the buffers after `COEF` -/

/-- `t` is `s` but for the buffers as given, the fault registers, `FAULT` and `RESULT`. -/
abbrev BuffersFrame (s t : State) (buf : Buffers) : Prop := OnlyBesides s t s.tables s.stream s.walk buf

/-- A command whose pseudocode changes the buffers, or raises, has the frame; `part` puts the buffers that stay back
to what they were. -/
theorem command_buffersFrame {ok : State → Bool} {body : State → Res State Unit} (part : Buffers → Buffers)
    (ht : command ok body s = .next t) (h0 : part s.buf = s.buf)
    (hb : Leaves (fun u => BuffersFrame s u (part u.buf)) (body s)) : BuffersFrame s t (part t.buf) :=
  command_leaves (P := fun u => BuffersFrame s u (part u.buf)) ht (by rw [h0]; exact rfl)
    (fun k _ h => h.faultCommand k) hb

theorem multiplyBy_frame (id : Fin 16) (s : State) :
    Leaves (fun u => BuffersFrame s u { s.buf with deq := u.buf.deq }) (multiplyBy id s) := by
  unfold multiplyBy
  split <;> exact rfl

theorem buffersFrame_of_coef {f : Buffers} (h : f.coef = s.buf.coef) :
    BuffersFrame s { s with buf := f } { f with coef := s.buf.coef } := by
  rw [← h]
  exact rfl

theorem reconstructed_coef (f : Buffers) (q : Block (BitVec 16)) : (f.reconstructed q).coef = f.coef := by
  simp only [Buffers.reconstructed, Buffers.shifted, Buffers.transformed, Buffers.scattered, Buffers.dequantized]

theorem recon_frame (c : Fin 4) (s : State) :
    Leaves (fun u => BuffersFrame s u { u.buf with coef := s.buf.coef }) (recon c s) := by
  unfold recon
  split
  · exact rfl
  · exact buffersFrame_of_coef (reconstructed_coef s.buf _)

/-- Settles O58: the frame of each command. -/
theorem manualCommandsFrame : Obligations.ManualCommandsFrame := by
  intro i s t ht
  unfold exec at ht
  refine ⟨?_, ?_, ?_, ?_, ?_, ?_, ?_, ?_, ?_, ?_⟩
  · rintro cl id rfl
    exact exec_htLoad_frame ht
  · rintro prec id rfl
    exact exec_qtLoad_frame ht
  · rintro comp (rfl | rfl)
    · exact command_decodeFrame ht (decodeDc_coding _ s)
    · exact command_decodeFrame ht (decodeBlock_coding _ s)
  · rintro comp rfl
    exact exec_edDc_coef ht
  · rintro comp rfl
    exact exec_edAc_frame ht
  · rintro id rfl
    exact command_buffersFrame (fun f => { s.buf with deq := f.deq }) ht rfl (multiplyBy_frame _ s)
  · rintro rfl
    exact command_buffersFrame (fun f => { s.buf with nat := f.nat }) ht rfl rfl
  · rintro rfl
    exact command_buffersFrame (fun f => { s.buf with acc := f.acc }) ht rfl rfl
  · rintro rfl
    exact command_buffersFrame (fun f => { s.buf with tile := f.tile }) ht rfl rfl
  · rintro comp rfl
    exact command_buffersFrame (fun f => { f with coef := s.buf.coef }) ht rfl (recon_frame _ s)

end Sys2Proof.Proofs
end

section
namespace Sys2Proof.Proofs

open Sys2Proof.Machine Sys2Proof.Spec Sys2Proof.Laws

/-! ### Sign extension (R130) -/

section
variable {v n : Nat}

/-- The lower half of a category holds its negative values. -/
theorem extend_lower_half (h : v < 2 ^ n) : extend v (n + 1) = (v : Int) - (2 ^ (n + 1) - 1) := by
  rw [extend, if_neg (Nat.succ_ne_zero n), Nat.add_sub_cancel, if_pos h]

/-- The upper half holds its positive values. -/
theorem extend_upper_half (h : 2 ^ n ≤ v) : extend v (n + 1) = v := by
  rw [extend, if_neg (Nat.succ_ne_zero n), Nat.add_sub_cancel, if_neg (Nat.not_lt.2 h)]

theorem two_pow_succ_int (n : Nat) : (2 : Int) ^ (n + 1) = 2 * ((2 ^ n : Nat) : Int) := by
  push_cast
  ring

/-- A category of `n + 1` bits, in its two halves. -/
theorem extend_range (hv : v < 2 ^ (n + 1)) :
    (v < 2 ^ n → -(2 ^ (n + 1) - 1) ≤ extend v (n + 1) ∧ extend v (n + 1) ≤ -2 ^ n) ∧
    (2 ^ n ≤ v → 2 ^ n ≤ extend v (n + 1) ∧ extend v (n + 1) ≤ 2 ^ (n + 1) - 1) := by
  rw [pow_succ] at hv
  rw [two_pow_succ_int, show (2 : Int) ^ n = ((2 ^ n : Nat) : Int) by push_cast; rfl]
  refine ⟨fun h => ?_, fun h => ?_⟩
  · rw [extend_lower_half h, two_pow_succ_int]
    omega
  · rw [extend_upper_half h]
    omega

/-- The encoder's map: a negative value of the category `s` is sent as its distance from `−(2^s − 1)`. -/
theorem extend_encoded {x : Int} (hlo : 2 ^ n ≤ |x|) (hhi : |x| ≤ 2 ^ (n + 1) - 1) :
    extend (if 0 < x then x else x + 2 ^ (n + 1) - 1).toNat (n + 1) = x := by
  have hp : 0 < 2 ^ n := Nat.two_pow_pos n
  rw [show (2 : Int) ^ n = ((2 ^ n : Nat) : Int) by push_cast; rfl] at hlo
  rw [two_pow_succ_int] at hhi ⊢
  split_ifs with hx
  · rw [abs_of_pos hx] at hlo
    rw [extend_upper_half (by omega)]
    omega
  · rw [abs_of_nonpos (by omega)] at hlo hhi
    rw [extend_lower_half (by omega), two_pow_succ_int]
    omega

end

/-- Settles O30: the two halves of a category, and the encoder's map into each. -/
theorem extendUndoesTheEncodersMap : Obligations.ExtendUndoesTheEncodersMap := by
  refine ⟨fun v s hs _ hv => ?_, fun v => rfl, fun s x hs _ hlo hhi => ?_⟩
  · obtain ⟨n, rfl⟩ := Nat.exists_eq_add_of_le' hs
    obtain ⟨hl, hu⟩ := extend_range hv
    exact ⟨fun h => ⟨extend_lower_half h, hl h⟩, fun h => ⟨extend_upper_half h, hu h⟩⟩
  · obtain ⟨n, rfl⟩ := Nat.exists_eq_add_of_le' hs
    exact extend_encoded hlo hhi

end Sys2Proof.Proofs
end

section
namespace Sys2Proof.Proofs

open Sys2Proof.Machine Sys2Proof.Spec Sys2Proof.Laws

variable {s t : State} {c : Fin 4}

/-! ### ED.BLOCK as two commands (R138) -/

/-- What `RESULT` holds does not matter to `decode_ac`. -/
theorem decodeAc_setResult_ok {k : Nat} (h : decodeAc c s = .ok k t) (v : Word) :
    decodeAc c (setResult v s) = .ok k (setResult v t) := by
  rw [decodeAc] at h
  exact (decodeAcFrom_setResult _ 64 1 v (clearAc s)).trans (by simp only [setResult_tables, setResult_setup, h])

theorem decodeAc_setResult_raised {k : FaultKind} (h : decodeAc c s = .raised k t) (v : Word) :
    decodeAc c (setResult v s) = .raised k (setResult v t) := by
  rw [decodeAc] at h
  exact (decodeAcFrom_setResult _ 64 1 v (clearAc s)).trans (by simp only [setResult_tables, setResult_setup, h])

/-- A DC value is decoded in the mode it began in, with its cursor. -/
theorem decodeDc_streaming {d : Int} (h : Streaming s) (hd : decodeDc c s = .ok d t) : Streaming t := by
  have hc := decodeDc_coding c s
  rw [hd, leaves_ok] at hc
  have hst := hc.decoding.status
  exact ⟨hst ▸ h.1, hst ▸ h.2.1, hc.moved.brv.trans h.2.2⟩

/-- The next state of a command whose pseudocode, before its value goes to `RESULT`, raises. -/
theorem command_result_fault {α : Type} {ok : State → Bool} {run : State → Res State α} {word : α → Word}
    {k : FaultKind} (hf : s.status.fault = false) (ho : ok s = true) (hr : run s = .raised k t) :
    command ok (fun s => (run s).bind fun v t => .ok () (setResult (word v) t)) s = .next (faultCommand k t) :=
  command_raised hf ho (by rw [hr]; rfl)

/-- The AC part of ED.BLOCK, after a DC part that ended in `t` and whose value may stand in `RESULT`. -/
theorem exec_edBlock_of_dc {d : Int} (h : Streaming s) (hd : decodeDc c (clearCoef s) = .ok d t) (v : Word) :
    exec (.edBlock (fieldOf c)) s = exec (.edAc (fieldOf c)) (setResult v t) := by
  have hst : Streaming t := decodeDc_streaming (s := clearCoef s) h hd
  have ht : Streaming (setResult v t) := hst
  have hb : decodeBlock c s = decodeAc c t := by rw [decodeBlock, hd, bind_ok]
  rw [exec_edBlock, exec_edAc]
  cases ha : decodeAc c t with
  | ok k u =>
    rw [command_result_ok h.1 (component_check c h) (hb.trans ha),
      command_result_ok ht.1 (component_check c ht) (decodeAc_setResult_ok ha v)]
    rfl
  | raised k u =>
    rw [command_result_fault h.1 (component_check c h) (hb.trans ha),
      command_result_fault ht.1 (component_check c ht) (decodeAc_setResult_raised ha v)]
    rfl

/-- Settles O36: where the DC part raises so does ED.BLOCK; else both go on with the AC part. -/
theorem edBlockIsDcThenAc : Obligations.EdBlockIsDcThenAc := by
  intro s t c h ht
  have h0 : Streaming (clearCoef s) := h
  change exec (.edDc (fieldOf c)) (clearCoef s) = .next t at ht
  cases hd : decodeDc c (clearCoef s) with
  | ok d u =>
    rw [exec_edDc_ok h0 hd] at ht
    cases ht
    rw [if_neg (by simp [(decodeDc_streaming h0 hd).1]), exec_edBlock_of_dc h hd]
  | raised k u =>
    rw [exec_edDc, command_result_fault h0.1 (component_check c h0) hd] at ht
    cases ht
    rw [if_pos (by simp), exec_edBlock]
    exact command_result_fault h.1 (component_check c h) (by rw [decodeBlock, hd, bind_raised])

/-! ### The commands of a list -/

theorem execAll_cons_of_next {i : Instr} (h : exec i s = .next t) (is : List Instr) :
    execAll (i :: is) s = execAll is t := by
  rw [execAll, h]

/-! ### Predictors (R139) -/

section
variable {td : HuffTable} {rest : List Bool}

/-- `t` is a state in which ED.DC goes on from `s` with the same table, `rest` left and the predictor moved by `d`. -/
structure MovedBy (c : Fin 4) (d : Int) (rest : List Bool) (s t : State) : Prop where
  streaming : Streaming t
  table : t.tables.huff 0 (slotOfId t.setup.comp[c].td) = s.tables.huff 0 (slotOfId s.setup.comp[c].td)
  pred : t.walk.pred[c].toInt = s.walk.pred[c].toInt + d
  bits : bitsOf t = rest
  others : ∀ c' : Fin 4, c' ≠ c → t.walk.pred[c'] = s.walk.pred[c']

/-- One coded difference. -/
theorem exec_edDc_movedBy {cb : CodedBlock} {d : Int} (h : Streaming s)
    (hh : s.tables.huff 0 (slotOfId s.setup.comp[c].td) = some td) (ht : td.Built) (hd : cb.difference td = some d)
    (hfit : Fits16 (s.walk.pred[c].toInt + d)) (hs : bitsOf s = cb.dcBits td ++ rest) :
    ∃ t, exec (.edDc (fieldOf c)) s = .next t ∧ MovedBy c d rest s t := by
  obtain ⟨r, hr, hdel⟩ := decodeDc_coded hh ht hd hfit hs
  refine ⟨_, exec_edDc_ok h hr, ⟨h.1, h.2.1, hdel.brv.trans h.2.2⟩, rfl, ?_, hdel.after,
    (storeDc_coding c _ _).pred⟩
  simp only [setResult_walk, storeDc_walk, Fin.getElem_fin, Vector.getElem_set_self]
  exact toInt_ofInt_of_fits16 hfit

/-- Differences one after the other. -/
theorem execAll_edDc_movedBy {cbs : List CodedBlock} {ds : List Int} (h : Streaming s)
    (hh : s.tables.huff 0 (slotOfId s.setup.comp[c].td) = some td) (ht : td.Built)
    (hd : cbs.map (fun cb => cb.difference td) = ds.map some)
    (hfit : ∀ n ≤ ds.length, Fits16 (s.walk.pred[c].toInt + (ds.take n).sum))
    (hs : bitsOf s = cbs.flatMap (fun cb => cb.dcBits td) ++ rest) :
    ∃ t, execAll (List.replicate cbs.length (.edDc (fieldOf c))) s = .next t ∧ MovedBy c ds.sum rest s t := by
  induction cbs generalizing s ds with
  | nil =>
    obtain rfl : ds = [] := List.map_eq_nil_iff.1 hd.symm
    exact ⟨s, rfl, h, rfl, by simp, hs, fun _ _ => rfl⟩
  | cons cb cbs ih =>
    cases ds with
    | nil => cases hd
    | cons d ds =>
      rw [List.map_cons, List.map_cons, List.cons.injEq] at hd
      rw [List.flatMap_cons, List.append_assoc] at hs
      obtain ⟨t, he, hm⟩ := exec_edDc_movedBy h hh ht hd.1 (by simpa using hfit 1 (by simp)) hs
      obtain ⟨u, hu, hm'⟩ := ih hm.streaming (hm.table.trans hh) hd.2 (fun n hn => by
        rw [hm.pred, add_assoc]
        exact hfit (n + 1) (Nat.succ_le_succ hn)) hm.bits
      refine ⟨u, (execAll_cons_of_next he _).trans hu, hm'.streaming, hm'.table.trans hm.table, ?_, hm'.bits,
        fun c' hc => (hm'.others c' hc).trans (hm.others c' hc)⟩
      rw [hm'.pred, hm.pred, add_assoc, List.sum_cons]

end

/-- Settles O37, by induction on the differences. -/
theorem predictorIsTheSumOfDifferences : Obligations.PredictorIsTheSumOfDifferences := by
  intro s c td cbs ds rest h hh ht hd hfit hs
  obtain ⟨t, he, hm⟩ := execAll_edDc_movedBy h hh ht hd hfit hs
  exact ⟨t, he, hm.pred, hm.bits, hm.others⟩

end Sys2Proof.Proofs
end

section
namespace Sys2Proof.Proofs

open Sys2Proof.Machine Sys2Proof.Spec Sys2Proof.Laws

/-! ### The blocks of an MCU (R142) -/

/-- The blocks of one component: row by row. -/
def blocksOfComp (u : Setup) (mx my : Nat) (c : Fin 4) : List (Fin 4 × Nat × Nat) :=
  (List.range (u.vOf c)).flatMap fun v =>
    (List.range (u.hOf c)).map fun h => (c, mx * u.hOf c + h, my * u.vOf c + v)

theorem mcuBlocks_eq_flatMap (u : Setup) (mx my : Nat) :
    u.mcuBlocks mx my = u.comps.flatMap (blocksOfComp u mx my) := rfl

section
variable {u : Setup} {mx my : Nat}

theorem fst_of_mem_blocksOfComp {c : Fin 4} {blk : Fin 4 × Nat × Nat} (h : blk ∈ blocksOfComp u mx my c) :
    blk.1 = c := by
  simp only [blocksOfComp, List.mem_flatMap, List.mem_map] at h
  obtain ⟨_, _, _, _, rfl⟩ := h
  rfl

/-- Counting through `rows` rows of `cols` is counting to their product. -/
theorem range_rows {α : Type} (f : Nat → Nat → α) (rows cols : Nat) :
    ((List.range rows).flatMap fun r => (List.range cols).map fun k => f k r) =
      (List.range (rows * cols)).map fun n => f (n % cols) (n / cols) := by
  induction rows with
  | zero => simp
  | succ rows ih =>
    rw [List.range_succ, List.flatMap_append, ih, Nat.succ_mul, List.range_add, List.map_append]
    congr 1
    rw [List.flatMap_singleton, List.map_map]
    refine List.map_congr_left fun k hk => ?_
    rw [List.mem_range] at hk
    have hm : (rows * cols + k) % cols = k := by rw [Nat.mul_add_mod', Nat.mod_eq_of_lt hk]
    have hd : (rows * cols + k) / cols = rows := by
      rw [Nat.mul_comm, Nat.mul_add_div (by omega), Nat.div_eq_of_lt hk, Nat.add_zero]
    rw [Function.comp, hm, hd]

/-- A list without repetitions, each element replaced by nothing but one. -/
theorem flatMap_ite_of_nodup {α β : Type} [DecidableEq α] {l : List α} (h : l.Nodup) (a : α) (f : α → List β) :
    (l.flatMap fun x => if x = a then f x else []) = if a ∈ l then f a else [] := by
  induction l with
  | nil => rfl
  | cons x l ih =>
    obtain ⟨hx, hl⟩ := List.nodup_cons.1 h
    rw [List.flatMap_cons, ih hl]
    by_cases he : x = a
    · subst he
      simp [hx]
    · simp [he, Ne.symm he]

/-- The blocks of component `c` among those of another. -/
theorem filter_blocksOfComp (c c' : Fin 4) :
    (blocksOfComp u mx my c').filter (fun blk => blk.1 = c) = if c' = c then blocksOfComp u mx my c' else [] := by
  split_ifs with h
  · exact List.filter_eq_self.2 fun blk hb => by simp [fst_of_mem_blocksOfComp hb, h]
  · exact List.filter_eq_nil_iff.2 fun blk hb => by simp [fst_of_mem_blocksOfComp hb, h]

theorem filter_mcuBlocks (c : Fin 4) :
    (u.mcuBlocks mx my).filter (fun blk => blk.1 = c) =
      if c.val < u.numComps then blocksOfComp u mx my c else [] := by
  have hn : u.comps.Nodup := (List.nodup_finRange 4).filter _
  rw [mcuBlocks_eq_flatMap, List.filter_flatMap]
  simp only [filter_blocksOfComp, flatMap_ite_of_nodup hn, mem_comps]

theorem mcuBlocks_sorted : ((u.mcuBlocks mx my).map fun blk => blk.1.val).Pairwise (· ≤ ·) := by
  have hc : u.comps.Pairwise (· ≤ ·) := (List.pairwise_le_finRange 4).filter _
  rw [List.pairwise_map, mcuBlocks_eq_flatMap, List.pairwise_flatMap]
  refine ⟨fun c _ => ?_, hc.imp fun hle x hx y hy => ?_⟩
  · refine List.pairwise_of_forall_mem_list fun x hx y hy => ?_
    rw [fst_of_mem_blocksOfComp hx, fst_of_mem_blocksOfComp hy]
  · rw [fst_of_mem_blocksOfComp hx, fst_of_mem_blocksOfComp hy]
    exact hle

end

/-- Settles O39: the list of each component, in the order of the components. -/
theorem mcuBlocksStandInScanOrder : Obligations.McuBlocksStandInScanOrder := by
  intro u mx my _ hx hy
  refine ⟨fun c => ?_, mcuBlocks_sorted, fun blk hb => (mcuBlocks_inside hx hy hb).2⟩
  rw [filter_mcuBlocks, blocksOfComp, range_rows fun h v => (c, mx * u.hOf c + h, my * u.vOf c + v)]

end Sys2Proof.Proofs
end

section
namespace Sys2Proof.Proofs

open Sys2Proof.Machine Sys2Proof.Spec Sys2Proof.Laws

variable {s t : State}

/-! ### Modes -/

/-- In scan mode the commands of manual mode latch `ProtocolFault` (R64). -/
theorem latched_of_scanning {i : Instr} (h : Scanning s) (hi : acceptedIn true i = false) : Latched (exec i s) 11 s :=
  latched_of_not_passes h.1 fun hp => by
    have hm := hp.mode
    rw [h.2, hi] at hm
    cases hm

/-- In manual mode the commands of scan mode latch `ProtocolFault` (R64). -/
theorem latched_of_manual {i : Instr} (h : Manual s) (hi : acceptedIn false i = false) : Latched (exec i s) 11 s :=
  latched_of_not_passes h.1 fun hp => by
    have hm := hp.mode
    rw [h.2, hi] at hm
    cases hm

/-- The state with the cursor aligned (R95). -/
abbrev aligned (s : State) : State := { s with stream := { s.stream with cnt := 0 } }

/-! ### ED.RST (R140, R141) -/

theorem restartMarkerAt_iff {b : Input} {pos : Nat} {m : BitVec 3} : restartMarkerAt b pos m = true ↔
    pos + 1 < b.len ∧ b.byte pos = 0xFF ∧ (b.byte (pos + 1)).toNat = 0xD0 + m.toNat := by
  simp [restartMarkerAt, and_assoc]

theorem exec_edRst (s : State) : exec .edRst s = command State.manualStream
    (fun s => (restartSync s).bind fun m t => .ok () (setResult (m.setWidth 32) t)) s := rfl

/-- `RSTEXP` goes from 7 to 0. -/
theorem rstexp_succ (m : BitVec 3) : m + 1 = BitVec.ofNat 3 ((m.toNat + 1) % 8) :=
  BitVec.eq_of_toNat_eq (by simp)

/-- Settles O38: the two outcomes of `restart_sync()`, and the checks of the command. -/
theorem edRstConsumesTheExpectedMarker : Obligations.EdRstConsumesTheExpectedMarker := by
  refine ⟨by decide, fun s h => ?_, fun s h => ⟨fun hm => ?_, fun hm => ?_⟩⟩
  · rcases h with ⟨hman, hb⟩ | hscan
    · exact latched_of_no_cursor hman hb rfl
    · exact latched_of_scanning hscan rfl
  · rw [← rstexp_succ, BitVec.ofNat_toNat, exec_edRst]
    exact command_result_ok h.1 (manualStream_of_streaming h) (restartSync_ok (restartMarkerAt_iff.2 hm))
  · rw [exec_edRst]
    exact command_result_raised h.1 (manualStream_of_streaming h)
      (restartSync_missing (Bool.eq_false_iff.2 (mt restartMarkerAt_iff.1 hm)))

/-! ### SCAN.END (R146) -/

theorem exec_scanEnd (s : State) : exec .scanEnd s =
    command (fun s => s.status.scan && decide (s.walk.mcuidx.toNat = s.setup.nmcu)) scanEndBody s := rfl

/-- The state SCAN.END leaves on a marker of the given code. -/
def scanEnded (s : State) (code : Byte) : State :=
  { s with
    stream := { s.stream with cnt := 0, markf := true, markc := code }
    status := { s.status with scan := false, done := true }
    result := code.setWidth 32, watch := { s.watch with ended := true } }

theorem scanEndBody_past_end (h : s.setup.inLen.toNat ≤ s.stream.pos.toNat + 1) :
    scanEndBody s = .raised .unexpectedEndOfStream (aligned s) := if_pos h

section
variable (h : s.stream.pos.toNat + 1 < s.setup.inLen.toNat)
include h

theorem scanEndBody_no_marker
    (hm : s.inBuf.byte s.stream.pos.toNat ≠ 0xFF ∨ s.inBuf.byte (s.stream.pos.toNat + 1) = 0x00) :
    scanEndBody s = .raised .malformedSegment (aligned s) :=
  (if_neg (Nat.not_le.2 h)).trans (if_pos hm)

theorem scanEndBody_marker (hff : s.inBuf.byte s.stream.pos.toNat = 0xFF)
    (h0 : s.inBuf.byte (s.stream.pos.toNat + 1) ≠ 0x00) :
    scanEndBody s = .ok () (scanEnded s (s.inBuf.byte (s.stream.pos.toNat + 1))) :=
  (if_neg (Nat.not_le.2 h)).trans (if_neg (not_or.2 ⟨not_not.2 hff, h0⟩))

end

/-- Settles O45: the three outcomes of SCAN.END, and its checks. -/
theorem scanEndRequiresAMarker : Obligations.ScanEndRequiresAMarker := by
  refine ⟨by decide, fun s h => latched_of_manual h rfl, fun s h => ⟨fun hne => ?_, fun heq => ?_⟩⟩
  · rw [exec_scanEnd]
    exact (command_checked h.1).resolve_left (by simp [hne])
  have ho : (s.status.scan && decide (s.walk.mcuidx.toNat = s.setup.nmcu)) = true := by simp [h.2, heq]
  rw [exec_scanEnd]
  refine ⟨fun hl => ?_, fun hl => ⟨fun hm => ?_, fun hff h0 => ⟨{ s.watch with ended := true }, ?_⟩⟩⟩
  · rw [command_raised h.1 ho (scanEndBody_past_end hl)]
    exact latched_faultCommand _ _
  · rw [command_raised h.1 ho (scanEndBody_no_marker hl hm)]
    exact latched_faultCommand _ _
  · rw [BitVec.ofNat_toNat]
    exact command_ok h.1 ho (scanEndBody_marker hl hff h0)

end Sys2Proof.Proofs
end

section
namespace Sys2Proof.Proofs

open Sys2Proof.Machine Sys2Proof.Spec Sys2Proof.Laws

variable {s t : State}

/-! ### ED.MCU (R143) -/

theorem exec_edMcu (s : State) : exec .edMcu s =
    command (fun s => s.status.scan && decide (s.walk.mcuidx.toNat < s.setup.nmcu)) mcuBody s := rfl

theorem edMcu_check (h : Scanning s) (hlt : s.walk.mcuidx.toNat < s.setup.nmcu) :
    (s.status.scan && decide (s.walk.mcuidx.toNat < s.setup.nmcu)) = true := by simp [h.2, hlt]

/-- How pseudocode ends a command whose checks have passed (R65 check 5). -/
def finish : Res State Unit → Host.Outcome State Fault Refusal
  | .ok () t => .next t
  | .raised k t => .next (faultCommand k t)

theorem command_passed {ok : State → Bool} (body : State → Res State Unit) (hf : s.status.fault = false)
    (ho : ok s = true) : command ok body s = finish (body s) := by
  cases hb : body s with
  | ok _ t => exact command_ok hf ho hb
  | raised k t => exact command_raised hf ho hb

theorem exec_edMcu_passed (h : Scanning s) (hlt : s.walk.mcuidx.toNat < s.setup.nmcu) :
    exec .edMcu s = finish (mcuBody s) := by
  rw [exec_edMcu]
  exact command_passed _ h.1 (edMcu_check h hlt)

theorem restartDue_iff : s.restartDue = true ↔ s.setup.ri ≠ 0 ∧ s.walk.mcucnt.toNat = s.setup.ri.toNat := by
  have hri : (s.setup.ri.setWidth 32).toNat = s.setup.ri.toNat := BitVec.toNat_setWidth_of_le (by omega)
  rw [State.restartDue, Bool.and_eq_true, bne_iff_ne, beq_iff_eq, ← BitVec.toNat_inj, hri]

theorem restartDue_eq_false (h : s.setup.ri = 0 ∨ s.walk.mcucnt.toNat ≠ s.setup.ri.toNat) : s.restartDue = false :=
  Bool.eq_false_iff.2 fun hd => by
    obtain ⟨hri, he⟩ := restartDue_iff.1 hd
    exact h.elim hri fun hne => hne he

/-- Decoding changes the stream, predictors, buffers and planes; then the MCU is counted. -/
theorem countMcu_of_decoding (h : Decoding s t) : countMcu t = { s with
    stream := t.stream
    walk := { s.walk with pred := t.walk.pred, mcucnt := s.walk.mcucnt + 1, mcuidx := s.walk.mcuidx + 1 }
    buf := t.buf, mem := { s.mem with plane := t.mem.plane }, result := s.walk.mcuidx + 1 } :=
  congrArg countMcu h.only

/-- Settles O40: an MCU decoded whole, or up to the block the data end in. -/
theorem edMcuDecodesTheCodedMcu : Obligations.EdMcuDecodesTheCodedMcu := by
  intro s m p rest h hlt hri hB
  have hr := restartDue_eq_false hri
  refine ⟨fun hp hs => ?_, fun before after blk k cb p' part hblks hp hk hp' hs hne hcut => ?_⟩
  · obtain ⟨t, hb, hdec, rfl, hd⟩ := mcuBody_coded hB hr hp hs
    refine ⟨t.stream, t.buf, ?_, hd.took⟩
    rw [exec_edMcu_passed h hlt, hb]
    exact congrArg _ (countMcu_of_decoding hdec)
  · obtain ⟨t, hb, hdec, hpl, hend⟩ := mcuBody_truncated hB hr hblks hp hk hp' hs hne hcut
    refine ⟨t.stream, t.walk.pred, t.buf, ?_, hend⟩
    rw [exec_edMcu_passed h hlt, hb, ← hpl, ← hdec.only]
    exact latched_faultCommand _ t

/-! ### The restart before an MCU (R140, R143) -/

section
variable (hd : s.restartDue = true)
include hd

/-- After a restart an MCU is decoded as from the state the restart leaves, in which none is due. -/
theorem mcuBody_of_restart (hm : restartMarkerAt s.inBuf s.stream.pos.toNat s.walk.rstexp = true) :
    mcuBody s = mcuBody (consumeRestart (aligned s)) := by
  have hnot : (consumeRestart (aligned s)).restartDue = false := restartDue_eq_false (.inr fun he =>
    (restartDue_iff.1 hd).1 (BitVec.eq_of_toNat_eq he.symm))
  have h1 : restartIfDue s = .ok () (consumeRestart (aligned s)) := by
    rw [restartIfDue, if_pos hd, restartSync_ok hm]
    rfl
  have h2 : restartIfDue (consumeRestart (aligned s)) = .ok () (consumeRestart (aligned s)) := by
    rw [restartIfDue, if_neg (by simp [hnot])]
  rw [mcuBody, mcuBody, h1, h2]

theorem mcuBody_of_missing_restart (hm : restartMarkerAt s.inBuf s.stream.pos.toNat s.walk.rstexp = false) :
    mcuBody s = .raised .restartSyncError (aligned s) := by
  rw [mcuBody, restartIfDue, if_pos hd, restartSync_missing hm]
  rfl

end

/-- Settles O41: with the interval used up the restart's two outcomes, else the check that fails. -/
theorem edMcuRestartsWhenTheIntervalIsUsedUp : Obligations.EdMcuRestartsWhenTheIntervalIsUsedUp := by
  refine ⟨by decide, fun s h => ⟨fun hle => ?_, fun hlt hri he => ?_⟩⟩
  · rw [exec_edMcu]
    exact (command_checked h.1).resolve_left (by simp [hle])
  have hd : s.restartDue = true := restartDue_iff.2 ⟨hri, he⟩
  refine ⟨fun hm => ?_, fun hm => ?_⟩
  · have ht : Scanning (consumeRestart (aligned s)) := h
    rw [exec_edMcu_passed h hlt, mcuBody_of_restart hd (restartMarkerAt_iff.2 hm)]
    exact (exec_edMcu_passed ht hlt).symm
  · rw [exec_edMcu_passed h hlt,
      mcuBody_of_missing_restart hd (Bool.eq_false_iff.2 (mt restartMarkerAt_iff.1 hm))]
    exact latched_faultCommand _ _

end Sys2Proof.Proofs
end

section
namespace Sys2Proof.Proofs

open Sys2Proof.Machine Sys2Proof.Spec Sys2Proof.Laws

variable {s t : State}

/-! ### ED.SCAN as a list of commands (R145) -/

/-- While faulted every command but RESET is ignored (R225). -/
theorem exec_faulted {i : Instr} (hi : i ≠ .reset) (hf : s.status.fault = true) : exec i s = .next s := by
  unfold exec
  cases i with
  | reset => exact absurd rfl hi
  | _ => exact command_faulted hf

theorem execAll_faulted {is : List Instr} (hr : .reset ∉ is) (hf : s.status.fault = true) :
    execAll is s = .next s := by
  induction is with
  | nil => rfl
  | cons i is ih =>
    obtain ⟨hi, his⟩ := not_or.1 (mt List.mem_cons.2 hr)
    rw [execAll_cons_of_next (exec_faulted (Ne.symm hi) hf), ih his]

/-- An MCU that ends goes on in the same mode and configuration, at the next number. -/
theorem mcuBody_next (h : Scanning s) (hlt : s.walk.mcuidx.toNat < s.setup.nmcu) (hb : mcuBody s = .ok () t) :
    Scanning t ∧ t.setup = s.setup ∧ t.walk.mcuidx.toNat = s.walk.mcuidx.toNat + 1 := by
  have hst := mcuBody_steady s
  rw [hb, leaves_ok] at hst
  refine ⟨⟨hst.status ▸ h.1, hst.status ▸ h.2⟩, hst.setup, ?_⟩
  obtain ⟨u, u', _, hw, hd, _, rfl⟩ := mcuBody_ok hb
  have hn := nmcu_le s.setup
  rw [countMcu_walk, (hw.trans hd.walking).mcuidx, BitVec.toNat_add]
  simp only [BitVec.ofNat_eq_ofNat, BitVec.toNat_ofNat]
  omega

/-- The commands for the MCUs that are left, then SCAN.END, do what the body of ED.SCAN does. -/
theorem execAll_mcus_scanEnd {n : Nat} (hi : s.Inv) (h : Scanning s)
    (hn : s.walk.mcuidx.toNat + n = s.setup.nmcu) :
    execAll (List.replicate n .edMcu ++ [.scanEnd]) s = finish ((mcus n s).bind fun _ t => scanEndBody t) := by
  induction n generalizing s with
  | zero =>
    obtain ⟨t, ht⟩ := exec_next .scanEnd s
    have hb : exec .scanEnd s = finish (scanEndBody s) := by
      rw [exec_scanEnd]
      exact command_passed _ h.1 (by simp [h.2, ← hn])
    rw [List.replicate_zero, List.nil_append, execAll_cons_of_next ht, mcus, bind_ok, ← hb, ht]
    rfl
  | succ n ih =>
    have hlt : s.walk.mcuidx.toNat < s.setup.nmcu := by omega
    have hk := mcuBody_keeps hi h.2 hlt
    have hx := exec_edMcu_passed h hlt
    rw [List.replicate_succ, List.cons_append, mcus]
    cases hb : mcuBody s with
    | ok _ t =>
      rw [hb] at hk hx
      obtain ⟨ht, hse, hid⟩ := mcuBody_next h hlt hb
      rw [execAll_cons_of_next hx, ih hk.1 ht (by rw [hse]; omega), bind_ok]
    | raised k t =>
      rw [hb] at hx
      rw [execAll_cons_of_next hx, execAll_faulted (by simp) rfl]
      rfl

theorem exec_edScan (s : State) : exec .edScan s = command (fun s => s.status.scan) scanBody s := rfl

/-- Settles O42: in scan mode at most `NMCU` MCUs have been decoded. -/
theorem edScanIsTheMcusThenScanEnd : Obligations.EdScanIsTheMcusThenScanEnd := by
  refine ⟨by decide, fun s h => latched_of_manual h rfl, fun s hi h => ?_⟩
  have hle := (hi.scanCounters h.2).2
  rw [exec_edScan, command_passed _ h.1 h.2, execAll_mcus_scanEnd hi h (by omega)]
  rfl

/-! ### A whole scan (R145, R148) -/

/-- Settles O43: the MCUs leave the cursor at the marker, where SCAN.END finds it. -/
theorem edScanDecodesTheWholeScan : Obligations.EdScanDecodesTheWholeScan := by
  intro s ms p rest hi h hri hn hp hs hl hend hff h0
  have hmax := nmcu_le s.setup
  obtain ⟨t, hm, rfl, hidx, -, -, -, honly, hd⟩ := mcus_coded hi.tablesBuilt hri (by omega) hp hs
  have hin : t.inBuf = s.inBuf := by rw [honly]; rfl
  have hlen : t.setup.inLen = s.setup.inLen := by rw [honly]
  have hpos : t.stream.pos.toNat = endOf s :=
    (pos_eq_streamEnd (b := s.inBuf) (by rw [hd.after]; exact hl)).trans hd.ends
  have hb := scanEndBody_marker (s := t) (by rw [hpos, hlen]; exact hend) (by rw [hpos, hin]; exact hff)
    (by rw [hpos, hin]; exact h0)
  rw [hin, hpos] at hb
  have hx : exec .edScan s = .next (scanEnded t (s.inBuf.byte (endOf s + 1))) := by
    rw [exec_edScan]
    refine command_ok h.1 h.2 ?_
    rw [scanBody, show s.setup.nmcu - s.walk.mcuidx.toNat = ms.length by omega, hm]
    exact hb
  refine ⟨(scanEnded t (s.inBuf.byte (endOf s + 1))).stream, t.walk, t.buf, { s.watch with ended := true },
    hx.trans (congrArg Host.Outcome.next ?_), hpos, rfl, rfl, rfl, rfl, by rw [hidx, hn]⟩
  exact congrArg (scanEnded · (s.inBuf.byte (endOf s + 1))) honly

end Sys2Proof.Proofs
end

section
namespace Sys2Proof.Proofs

open Sys2Proof.Machine Sys2Proof.Spec Sys2Proof.Laws

variable {s t u : State}

/-! ### What ED.MCU and ED.SCAN leave unchanged -/

/-- `t` is `s` but for what decoding MCUs and ending a scan may change. -/
def ScanFrame (s t : State) : Prop :=
  t = { s with
    stream := t.stream, walk := t.walk, buf := t.buf, mem := { s.mem with plane := t.mem.plane }
    status := { s.status with fault := t.status.fault, scan := t.status.scan, done := t.status.done }
    err := t.err, errpos := t.errpos, result := t.result, draws := t.draws, watch := t.watch }

theorem ScanFrame.refl (s : State) : ScanFrame s s := rfl

theorem ScanFrame.trans (h : ScanFrame s t) (h' : ScanFrame t u) : ScanFrame s u := by
  rw [ScanFrame, h] at h'
  exact h'

theorem ScanFrame.faultCommand (h : ScanFrame s t) (k : FaultKind) : ScanFrame s (faultCommand k t) :=
  congrArg (Machine.faultCommand k) h

theorem Walking.scanFrame (h : Walking s t) : ScanFrame s t := by
  have hw : t.walk = { t.walk with mcuidx := s.walk.mcuidx } := congrArg State.walk h.only
  have ho := h.only
  rw [← hw] at ho
  rw [ScanFrame, ho]

theorem countMcu_scanFrame (s : State) : ScanFrame s (countMcu s) := rfl

theorem mcuBody_scanFrame (s : State) : Leaves (ScanFrame s) (mcuBody s) := by
  cases hm : mcuBody s with
  | raised k u => exact Walking.scanFrame (mcuBody_raised hm)
  | ok _ u =>
    obtain ⟨t, t', _, hw, hd, _, rfl⟩ := mcuBody_ok hm
    exact (Walking.scanFrame (hw.trans hd.walking)).trans (countMcu_scanFrame t')

theorem mcus_scanFrame (n : Nat) (s : State) : Leaves (ScanFrame s) (mcus n s) := by
  induction n generalizing s with
  | zero => exact .refl s
  | succ n ih => exact (mcuBody_scanFrame s).bind fun _ t h => (ih t).mono fun _ => h.trans

/-- What SCAN.END leaves, whatever it finds: the cursor aligned, or the scan ended. -/
theorem scanEndBody_leaves (s : State) :
    Leaves (fun t => t = aligned s ∨ ∃ code, t = scanEnded s code) (scanEndBody s) := by
  rcases Nat.lt_or_ge (s.stream.pos.toNat + 1) s.setup.inLen.toNat with hl | hl
  · by_cases hm : s.inBuf.byte s.stream.pos.toNat ≠ 0xFF ∨ s.inBuf.byte (s.stream.pos.toNat + 1) = 0x00
    · rw [scanEndBody_no_marker hl hm]
      exact .inl rfl
    · obtain ⟨hff, h0⟩ := not_or.1 hm
      rw [scanEndBody_marker hl (not_not.1 hff) h0]
      exact .inr ⟨_, rfl⟩
  · rw [scanEndBody_past_end hl]
    exact .inl rfl

theorem scanBody_scanFrame (s : State) : Leaves (ScanFrame s) (scanBody s) := by
  refine (mcus_scanFrame _ s).bind fun _ t h => (scanEndBody_leaves t).mono ?_
  rintro u (rfl | ⟨code, rfl⟩)
  · exact h.trans (u := aligned t) rfl
  · exact h.trans (u := scanEnded t code) rfl

theorem McuReads.mono {ns ns' : Nat → Prop} (hns : ∀ n, ns n → ns' n) (h : McuReads ns s t) : McuReads ns' s t :=
  fun c a ha => h c a fun n hn => ha n (hns n hn)

/-- ED.SCAN writes the tiles of the MCUs that are left only (R145). -/
theorem scanBody_reads (s : State) :
    Leaves (McuReads (fun n => s.walk.mcuidx.toNat ≤ n ∧ n < s.setup.nmcu) s) (scanBody s) := by
  have hid := s.walk.mcuidx.isLt
  have hn := nmcu_le s.setup
  refine Leaves.bind (P := McuReads (fun n => s.walk.mcuidx.toNat ≤ n ∧ n < s.setup.nmcu) s)
    ((mcus_reads s _ (by omega)).mono fun t h => McuReads.mono (fun n hn => by omega) h) fun _ t h => ?_
  refine (scanEndBody_leaves t).mono ?_
  rintro u (rfl | ⟨code, rfl⟩) <;> exact h

/-- The MCUs a scan command decodes: number `MCUIDX`, or for ED.SCAN all from there on. -/
def DecodedMcus (i : Instr) (s : State) (n : Nat) : Prop :=
  s.walk.mcuidx.toNat ≤ n ∧ (i = .edMcu → n = s.walk.mcuidx.toNat) ∧ n < s.setup.nmcu

/-- `t` is `s` but for what the scan command may change, and in the planes for the tiles of the MCUs it decodes. -/
structure TileFrame (i : Instr) (s t : State) : Prop where
  frame : ScanFrame s t
  reads : McuReads (DecodedMcus i s) s t

theorem TileFrame.refl (i : Instr) (s : State) : TileFrame i s s := ⟨.refl s, fun _ _ _ => rfl⟩

theorem TileFrame.faultCommand {i : Instr} (h : TileFrame i s t) (k : FaultKind) : TileFrame i s (faultCommand k t) :=
  ⟨h.frame.faultCommand k, h.reads⟩

theorem exec_edMcu_tileFrame (ht : exec .edMcu s = .next t) : TileFrame .edMcu s t := by
  rw [exec_edMcu] at ht
  refine command_leaves_checked ht (.refl _ s) (fun k _ h => h.faultCommand k) fun ho => ?_
  have hlt := of_decide_eq_true (Bool.and_eq_true_iff.1 ho).2
  refine (Leaves.and (mcuBody_scanFrame s) (mcuBody_reads s)).mono fun u ⟨hf, hr⟩ => ⟨hf, McuReads.mono ?_ hr⟩
  rintro n rfl
  exact ⟨le_rfl, fun _ => rfl, hlt⟩

theorem exec_edScan_tileFrame (ht : exec .edScan s = .next t) : TileFrame .edScan s t := by
  rw [exec_edScan] at ht
  refine command_leaves ht (.refl _ s) (fun k _ h => h.faultCommand k) ?_
  exact (Leaves.and (scanBody_scanFrame s) (scanBody_reads s)).mono fun u ⟨hf, hr⟩ =>
    ⟨hf, McuReads.mono (fun n ⟨hle, hlt⟩ => ⟨hle, nofun, hlt⟩) hr⟩

/-- ED.MCU stays in its mode and sets no `DONE`. -/
theorem exec_edMcu_flags (ht : exec .edMcu s = .next t) :
    t.status.scan = s.status.scan ∧ t.status.done = s.status.done := by
  rw [exec_edMcu] at ht
  refine command_leaves (P := fun u => u.status.scan = s.status.scan ∧ u.status.done = s.status.done) ht ⟨rfl, rfl⟩
    (fun _ _ h => h) ((mcuBody_steady s).mono fun u h => ?_)
  rw [h.status]
  exact ⟨rfl, rfl⟩

/-- Settles O59: the frame of each of the two commands, with its reads of the planes. -/
theorem scanCommandsWriteOnlyTheirTiles : Obligations.ScanCommandsWriteOnlyTheirTiles := by
  intro i s t hi ht
  have htile : TileFrame i s t := by
    rcases hi with rfl | rfl
    · exact exec_edMcu_tileFrame ht
    · exact exec_edScan_tileFrame ht
  refine ⟨htile.frame, ?_, fun c a ha => htile.reads c a fun n ⟨hle, hone, hlt⟩ => ?_⟩
  · rintro rfl
    obtain ⟨hscan, hdone⟩ := exec_edMcu_flags ht
    exact ⟨hscan, hdone, exec_sameWatch (by simp [touchesWatch]) ht⟩
  · rintro ⟨c', bx, by'⟩ hblk rfl
    exact ha n hle hone hlt bx by' hblk

end Sys2Proof.Proofs
end

section
namespace Sys2Proof.Proofs

open Sys2Proof.Machine Sys2Proof.Spec Sys2Proof.Laws

variable {s t : State}

/-! ### What the commands at a scan's boundary and the output commands leave unchanged -/

/-- `t` is `s` but for the flags, the fault registers and `RESULT`, with the stream, predictors and counters, memories
and the record of changes of `IN` as given. -/
def BoundaryFrame (s t : State) (stream : Stream) (walk : Walk) (mem : Planes) (watch : InputWatch) : Prop :=
  t = { s with
    stream := stream, walk := walk, mem := mem, status := t.status, err := t.err, errpos := t.errpos
    result := t.result, draws := t.draws, watch := watch }

theorem BoundaryFrame.faultCommand {stream : Stream} {walk : Walk} {mem : Planes} {watch : InputWatch}
    (h : BoundaryFrame s t stream walk mem watch) (k : FaultKind) :
    BoundaryFrame s (faultCommand k t) stream walk mem watch := by
  obtain rfl : t.stream = stream := congrArg State.stream h
  exact congrArg (Machine.faultCommand k) h

/-! ### SCAN.START and SCAN.END -/

theorem exec_scanStart (s : State) :
    exec .scanStart s = command (fun s => s.manual && s.argInBuffer) scanStartBody s := rfl

theorem scanStartBody_frame (s : State) :
    Leaves (fun u => BoundaryFrame s u u.stream u.walk s.mem u.watch) (scanStartBody s) := by
  unfold scanStartBody
  split <;> exact rfl

theorem exec_scanStart_frame (ht : exec .scanStart s = .next t) :
    BoundaryFrame s t t.stream t.walk s.mem t.watch := by
  rw [exec_scanStart] at ht
  exact command_leaves (P := fun u => BoundaryFrame s u u.stream u.walk s.mem u.watch) ht rfl
    (fun k _ h => h.faultCommand k) (scanStartBody_frame s)

/-- The frame of SCAN.END. -/
structure EndFrame (s t : State) : Prop where
  frame : BoundaryFrame s t t.stream s.walk s.mem t.watch
  outv : t.status.outv = s.status.outv
  fullv : t.status.fullv = s.status.fullv

theorem exec_scanEnd_frame (ht : exec .scanEnd s = .next t) : EndFrame s t := by
  rw [exec_scanEnd] at ht
  refine command_leaves ht ⟨rfl, rfl, rfl⟩ (fun k _ ⟨hf, ho, hv⟩ => ⟨hf.faultCommand k, ho, hv⟩)
    ((scanEndBody_leaves s).mono ?_)
  rintro u (rfl | ⟨code, rfl⟩) <;> exact ⟨rfl, rfl, rfl⟩

/-! ### UP.RUN, CC.RUN and CC.PIX -/

/-- Without a new fault the fault registers and `RESULT` are as they were. -/
def FaultOnly (s t : State) : Prop :=
  t.status.fault = s.status.fault →
    t.err = s.err ∧ t.errpos = s.errpos ∧ t.result = s.result ∧ t.draws = s.draws

theorem faultCommand_faultOnly (hf : s.status.fault = false) (k : FaultKind) : FaultOnly s (faultCommand k t) :=
  fun h => by
    rw [hf] at h
    cases h

/-- A command whose pseudocode, where it ends, leaves those registers. -/
theorem command_faultOnly {ok : State → Bool} {body : State → Res State Unit} (ht : command ok body s = .next t)
    (hb : ∀ u, body s = .ok () u → FaultOnly s u) : FaultOnly s t := by
  rcases command_cases ht with ⟨_, rfl⟩ | ⟨hf, _, rfl⟩ | ⟨_, _, hbt⟩ | ⟨hf, _, k, u, _, rfl⟩
  · exact fun _ => ⟨rfl, rfl, rfl, rfl⟩
  · exact faultCommand_faultOnly hf _
  · exact hb t hbt
  · exact faultCommand_faultOnly hf k

/-- The frame of UP.RUN. -/
structure UpFrame (comp : Byte) (s t : State) : Prop where
  frame : BoundaryFrame s t s.stream s.walk { s.mem with full := t.mem.full } s.watch
  scan : t.status.scan = s.status.scan
  done : t.status.done = s.status.done
  outv : t.status.outv = s.status.outv
  others : ∀ c : Fin 4, c.val ≠ comp.toNat → t.mem.full[c] = s.mem.full[c] ∧ t.status.fullv[c] = s.status.fullv[c]
  reads : ∀ (c : Fin 4) (a : Nat), s.setup.w * s.setup.ht ≤ a → t.mem.full[c].read a = s.mem.full[c].read a

theorem upsample_frame {comp : Byte} (hc : componentOk comp = true) (s : State) :
    UpFrame comp s (upsample (componentIndex comp) s) where
  frame := rfl
  scan := rfl
  done := rfl
  outv := rfl
  others := fun c hne => by
    have hv : (componentIndex comp).val ≠ c.val := fun he => hne (by rw [← he, componentIndex_val hc])
    have hlt := (componentIndex comp).isLt
    exact ⟨Vector.getElem_set_ne hlt c.isLt hv, Vector.getElem_set_ne hlt c.isLt hv⟩
  reads := fun c a ha => by
    rw [Nat.mul_comm] at ha
    simp only [upsample_mem, Fin.getElem_fin, Vector.getElem_set]
    split
    · next he =>
      rw [Fin.ext he]
      exact upsample_read_other c s ha
    · rfl

theorem exec_upRun_frame {comp : Byte} (ht : exec (.upRun comp) s = .next t) : UpFrame comp s t ∧ FaultOnly s t := by
  rw [exec, execUpRun] at ht
  refine ⟨?_, command_faultOnly ht fun u hu => ?_⟩
  · refine command_leaves_checked ht ⟨rfl, rfl, rfl, rfl, fun _ _ => ⟨rfl, rfl⟩, fun _ _ _ => rfl⟩
      (fun k _ h => { h with frame := h.frame.faultCommand k }) fun ho => ?_
    exact upsample_frame (Bool.and_eq_true_iff.1 (Bool.and_eq_true_iff.1 (Bool.and_eq_true_iff.1 ho).1).1).1 s
  · cases hu
    exact fun _ => ⟨rfl, rfl, rfl, rfl⟩

/-- The frame of CC.RUN. -/
structure OutFrame (s t : State) : Prop where
  frame : BoundaryFrame s t s.stream s.walk { s.mem with out := t.mem.out } s.watch
  scan : t.status.scan = s.status.scan
  done : t.status.done = s.status.done
  fullv : t.status.fullv = s.status.fullv
  reads : ∀ a, (if s.setup.numComps = 1 then 1 else 3) * (s.setup.w * s.setup.ht) ≤ a →
    t.mem.out.read a = s.mem.out.read a

/-- CC.RUN writes no address past the pixels (R43). -/
theorem out_read_other (s : State) {a : Nat}
    (ha : (if s.setup.numComps = 1 then 1 else 3) * (s.setup.w * s.setup.ht) ≤ a) :
    (s.mem.out.writeAll (s.setup.pixels.flatMap (outCells s))).read a = s.mem.out.read a := by
  refine read_writeAll_other _ _ fun cell hc => ?_
  have hm := List.mem_map_of_mem (f := fun cell : Host.Cell => cell.1) hc
  rw [outCells_addresses, Nat.mul_comm s.setup.ht] at hm
  split_ifs at hm ha <;> rw [List.mem_range] at hm <;> omega

theorem assembleOutput_frame (s : State) : Leaves (OutFrame s) (assembleOutput s) := by
  unfold assembleOutput
  split
  · exact ⟨rfl, rfl, rfl, rfl, fun _ _ => rfl⟩
  · exact ⟨rfl, rfl, rfl, rfl, fun _ ha => out_read_other s ha⟩

theorem assembleOutput_faultOnly (h : assembleOutput s = .ok () t) : FaultOnly s t := by
  unfold assembleOutput at h
  split at h
  · cases h
  · cases h
    exact fun _ => ⟨rfl, rfl, rfl, rfl⟩

theorem exec_ccRun_frame (ht : exec .ccRun s = .next t) : OutFrame s t ∧ FaultOnly s t := by
  rw [exec, execCcRun] at ht
  exact ⟨command_leaves ht ⟨rfl, rfl, rfl, rfl, fun _ _ => rfl⟩
    (fun k _ h => { h with frame := h.frame.faultCommand k }) (assembleOutput_frame s),
    command_faultOnly ht fun _ => assembleOutput_faultOnly⟩

/-- CC.PIX makes no check and cannot raise. -/
theorem exec_ccPix_frame (ht : exec .ccPix s = .next t) : t = { s with result := t.result } := by
  rw [exec, execCcPix] at ht
  cases hf : s.status.fault with
  | true =>
    rw [command_faulted hf] at ht
    cases ht
    rfl
  | false =>
    rw [command_unchecked hf ht]
    rfl

/-- Settles O60: the frame of each of the five commands. -/
theorem scanBoundaryAndOutputCommandsFrame : Obligations.ScanBoundaryAndOutputCommandsFrame := by
  refine fun i s t ht => ⟨?_, ?_, ?_, ?_, ?_⟩
  · rintro rfl
    exact exec_scanStart_frame ht
  · rintro rfl
    have h := exec_scanEnd_frame ht
    exact ⟨h.frame, h.outv, h.fullv⟩
  · rintro comp rfl
    obtain ⟨h, hf⟩ := exec_upRun_frame ht
    exact ⟨h.frame, hf, h.scan, h.done, h.outv, fun c => ⟨h.others c, h.reads c⟩⟩
  · rintro rfl
    obtain ⟨h, hf⟩ := exec_ccRun_frame ht
    exact ⟨h.frame, hf, h.scan, h.done, h.fullv, h.reads⟩
  · rintro rfl
    exact exec_ccPix_frame ht

end Sys2Proof.Proofs
end

section
namespace Sys2Proof.Proofs

open Sys2Proof.Machine Sys2Proof.Spec Sys2Proof.Laws

variable {s t : State} {u : Setup}

/-! ### The checks of SCAN.START (R144) -/

theorem countOk_iff : u.countOk = true ↔ u.numComps ∈ [1, 3, 4] := by
  simp [Setup.countOk, or_assoc]

theorem factorsOk_iff : u.factorsOk = true ↔
    ∀ c : Fin 4, c.val < u.numComps → 1 ≤ u.hOf c ∧ u.hOf c ≤ 4 ∧ 1 ≤ u.vOf c ∧ u.vOf c ≤ 4 := by
  simp [Setup.factorsOk, mem_comps]

theorem ratiosOk_iff : u.ratiosOk = true ↔
    ∀ c : Fin 4, c.val < u.numComps → u.hMax % u.hOf c = 0 ∧ u.vMax % u.vOf c = 0 := by
  simp [Setup.ratiosOk, mem_comps]

theorem quantMissing_eq_false_iff : s.quantMissing = false ↔
    ∀ c : Fin 4, c.val < s.setup.numComps → s.tables.quant (slotOfId s.setup.comp[c].tq) ≠ none := by
  simp [State.quantMissing, mem_comps]

theorem huffMissing_eq_false_iff : s.huffMissing = false ↔
    ∀ c : Fin 4, c.val < s.setup.numComps → s.tables.huff 0 (slotOfId s.setup.comp[c].td) ≠ none ∧
      s.tables.huff 1 (slotOfId s.setup.comp[c].ta) ≠ none := by
  simp [State.huffMissing, mem_comps]

/-- A sum over the elements that pass a test. -/
theorem sum_map_filter {α : Type} (l : List α) (p : α → Prop) [DecidablePred p] (f : α → Nat) :
    ((l.filter fun x => p x).map f).sum = (l.map fun x => if p x then f x else 0).sum := by
  induction l with
  | nil => rfl
  | cons x l ih =>
    by_cases hx : p x
    · simp [hx, ih]
    · simp [hx, ih]

/-- The size of all planes: the components from `NCOMP` on have none. -/
theorem planesSize_eq_sum (u : Setup) : u.planesSize =
    ((List.finRange 4).map fun c => if c.val < u.numComps then u.planeW c * u.planeH c else 0).sum :=
  sum_map_filter _ _ _

theorem fits_iff {cap : Option Nat} : u.fits cap = true ↔
    ∀ n, cap = some n → u.planesSize ≤ n ∧ u.numComps * (u.w * u.ht) ≤ n ∧ u.outSize ≤ n := by
  cases cap with
  | none => simp [Setup.fits]
  | some n => simp [Setup.fits, and_assoc]

theorem check_passes {b : Bool} (h : b = true) : ¬ (!b) = true := by simp [h]

theorem check_fails {b : Bool} (h : ¬ b = true) : (!b) = true := by simpa using h

/-! One equation for each check that fails under those before it. -/

theorem scanProblem_proc (h : s.setup.proc ≠ 0) : s.scanProblem = some .unsupportedCodingProcess := if_pos h

section
variable (hproc : s.setup.proc = 0)
include hproc

theorem scanProblem_count (h : ¬ s.setup.countOk = true) : s.scanProblem = some .unsupportedComponentLayout := by
  rw [State.scanProblem, if_neg (not_not.2 hproc), if_pos (check_fails h)]

variable (hcount : s.setup.countOk = true)
include hcount

theorem scanProblem_dims (h : ¬ (s.setup.width ≠ 0 ∧ s.setup.height ≠ 0)) :
    s.scanProblem = some .malformedSegment := by
  rw [State.scanProblem, if_neg (not_not.2 hproc), if_neg (check_passes hcount), if_pos (or_iff_not_and_not.2 h)]

variable (hdims : s.setup.width ≠ 0 ∧ s.setup.height ≠ 0)
include hdims

theorem scanProblem_factors (h : ¬ s.setup.factorsOk = true) : s.scanProblem = some .malformedSegment := by
  rw [State.scanProblem, if_neg (not_not.2 hproc), if_neg (check_passes hcount), if_neg (not_or.2 hdims),
    if_pos (check_fails h)]

variable (hfactors : s.setup.factorsOk = true)
include hfactors

theorem scanProblem_ratios (h : ¬ s.setup.ratiosOk = true) :
    s.scanProblem = some .unsupportedComponentLayout := by
  rw [State.scanProblem, if_neg (not_not.2 hproc), if_neg (check_passes hcount), if_neg (not_or.2 hdims),
    if_neg (check_passes hfactors), if_pos (check_fails h)]

variable (hratios : s.setup.ratiosOk = true)
include hratios

/-- Of an accepted configuration the tables and the room are left to check. -/
theorem scanProblem_accepted : s.scanProblem =
    if s.quantMissing then some .undefinedTableReference
    else if s.huffMissing then some .undefinedTableReference
    else if !s.setup.fits s.memCap then some .protocolFault
    else none := by
  rw [State.scanProblem, if_neg (not_not.2 hproc), if_neg (check_passes hcount), if_neg (not_or.2 hdims),
    if_neg (check_passes hfactors), if_neg (check_passes hratios)]

theorem scanProblem_tables (h : ¬ (s.quantMissing = false ∧ s.huffMissing = false)) :
    s.scanProblem = some .undefinedTableReference := by
  rw [scanProblem_accepted hproc hcount hdims hfactors hratios]
  cases hq : s.quantMissing with
  | true => rfl
  | false =>
    have hh : s.huffMissing = true := eq_true_of_ne_false fun hh => h ⟨hq, hh⟩
    rw [hh]
    rfl

variable (hquants : s.quantMissing = false) (hhuffs : s.huffMissing = false)
include hquants hhuffs

theorem scanProblem_room (h : ¬ s.setup.fits s.memCap = true) : s.scanProblem = some .protocolFault := by
  rw [scanProblem_accepted hproc hcount hdims hfactors hratios, hquants, hhuffs]
  exact if_pos (check_fails h)

theorem scanProblem_eq_none (h : s.setup.fits s.memCap = true) : s.scanProblem = none := by
  rw [scanProblem_accepted hproc hcount hdims hfactors hratios, hquants, hhuffs]
  exact if_neg (check_passes h)

end

/-! ### SCAN.START (R144) -/

section
variable (h : Manual s) (ha : s.arg.toNat ≤ s.setup.inLen.toNat)
include h ha

theorem scanStart_check : (s.manual && s.argInBuffer) = true := by
  simp [manual_iff.2 h.2, State.argInBuffer, ha]

theorem exec_scanStart_problem {k : FaultKind} (hp : s.scanProblem = some k) :
    Latched (exec .scanStart s) k.code s := by
  rw [exec_scanStart, command_raised (k := k) (t := s) h.1 (scanStart_check h ha) (by rw [scanStartBody, hp])]
  exact latched_faultCommand k s

theorem exec_scanStart_enters (hp : s.scanProblem = none) : exec .scanStart s = .next (enterScan s) := by
  rw [exec_scanStart]
  exact command_ok h.1 (scanStart_check h ha) (by rw [scanStartBody, hp])

end

/-- Settles O44: the first check that fails is the problem found, and with none the scan is entered. -/
theorem scanStartChecksInOrder : Obligations.ScanStartChecksInOrder := by
  refine ⟨by decide, fun s h => latched_of_scanning h rfl, fun s h => ⟨fun hlt => ?_, fun ha => ?_⟩⟩
  · rw [exec_scanStart]
    exact (command_checked h.1).resolve_left (by simp [State.argInBuffer, hlt])
  simp only [← countOk_iff, ← factorsOk_iff, ← ratiosOk_iff, ← quantMissing_eq_false_iff, ← huffMissing_eq_false_iff,
    ← planesSize_eq_sum]
  refine ⟨fun hp => ?_, fun hp hc => ?_, fun hp hc hd => ?_, fun hp hc hd hf => ?_, fun hp hc hd hf hr => ?_,
    fun hp hc hd hf hr ht => ?_, fun hp hc hd hf hr hq hh hroom => ?_,
    fun hp hc hd hf hr hq hh hroom => ⟨InputWatch.reset, ?_⟩⟩
  · exact exec_scanStart_problem h ha (scanProblem_proc hp)
  · exact exec_scanStart_problem h ha (scanProblem_count hp hc)
  · exact exec_scanStart_problem h ha (scanProblem_dims hp hc hd)
  · exact exec_scanStart_problem h ha (scanProblem_factors hp hc hd hf)
  · exact exec_scanStart_problem h ha (scanProblem_ratios hp hc hd hf hr)
  · exact exec_scanStart_problem h ha (scanProblem_tables hp hc hd hf hr ht)
  · exact exec_scanStart_problem h ha (scanProblem_room hp hc hd hf hr hq hh (mt fits_iff.1 hroom))
  · exact exec_scanStart_enters h ha (scanProblem_eq_none hp hc hd hf hr hq hh (fits_iff.2 hroom))

end Sys2Proof.Proofs
end

section
namespace Sys2Proof.Proofs

open Sys2Proof.Machine Sys2Proof.Spec Sys2Proof.Laws

variable {s t : State} {c : Fin 4} {id : Fin 16} {q : Block (BitVec 16)}

/-! ### The commands of the block reconstructor in manual mode -/

theorem exec_dqMul (id : Fin 16) (s : State) : exec (.dqMul (fieldOf id)) s =
    command (fun s => tableIdOk (fieldOf id) && s.manual) (multiplyBy id) s := by
  rw [exec, execDqMul, slotIndex_fieldOf]

theorem dqMul_check (id : Fin 16) (h : Manual s) : (tableIdOk (fieldOf id) && s.manual) = true := by
  rw [tableIdOk_fieldOf, manual_iff.2 h.2]
  rfl

theorem exec_dqMul_some (h : Manual s) (hq : s.tables.quant id = some q) :
    exec (.dqMul (fieldOf id)) s = .next { s with buf := s.buf.dequantized q } := by
  rw [exec_dqMul]
  exact command_ok h.1 (dqMul_check id h) (by rw [multiplyBy, hq])

theorem exec_dqMul_none (h : Manual s) (hq : s.tables.quant id = none) :
    Latched (exec (.dqMul (fieldOf id)) s) 4 s := by
  rw [exec_dqMul, command_raised (k := .undefinedTableReference) (t := s) h.1 (dqMul_check id h)
    (by rw [multiplyBy, hq])]
  exact latched_faultCommand _ _

/-- A command that needs manual mode only and works on the buffers. -/
theorem command_manual_buffers (f : Buffers → Buffers) (h : Manual s) :
    command State.manual (fun s => .ok () { s with buf := f s.buf }) s = .next { s with buf := f s.buf } :=
  command_ok h.1 (manual_iff.2 h.2) rfl

theorem exec_zzScat (h : Manual s) : exec .zzScat s = .next { s with buf := s.buf.scattered } := by
  rw [exec, execZzScat]
  exact command_manual_buffers Buffers.scattered h

theorem exec_idct2d (h : Manual s) : exec .idct2d s = .next { s with buf := s.buf.transformed } := by
  rw [exec, execIdct2d]
  exact command_manual_buffers Buffers.transformed h

theorem exec_lsClamp (h : Manual s) : exec .lsClamp s = .next { s with buf := s.buf.shifted } := by
  rw [exec, execLsClamp]
  exact command_manual_buffers Buffers.shifted h

theorem exec_blkRecon (c : Fin 4) (s : State) : exec (.blkRecon (fieldOf c)) s =
    command (fun s => componentOk (fieldOf c) && s.manual) (recon c) s := by
  rw [exec, execBlkRecon, componentIndex_fieldOf]

theorem blkRecon_check (c : Fin 4) (h : Manual s) : (componentOk (fieldOf c) && s.manual) = true := by
  rw [componentOk_fieldOf, manual_iff.2 h.2]
  rfl

theorem exec_blkRecon_some (h : Manual s) (hq : s.tables.quant (slotOfId s.setup.comp[c].tq) = some q) :
    exec (.blkRecon (fieldOf c)) s = .next { s with buf := s.buf.reconstructed q } := by
  rw [exec_blkRecon]
  exact command_ok h.1 (blkRecon_check c h) (by rw [recon, hq])

theorem exec_blkRecon_none (h : Manual s) (hq : s.tables.quant (slotOfId s.setup.comp[c].tq) = none) :
    Latched (exec (.blkRecon (fieldOf c)) s) 4 s := by
  rw [exec_blkRecon, command_raised (k := .undefinedTableReference) (t := s) h.1 (blkRecon_check c h)
    (by rw [recon, hq])]
  exact latched_faultCommand _ _

/-! ### DQ.MUL (R161, R162) -/

/-- Settles O48: the product fits `DEQ`, so its quotient by the quantizer is the coefficient. -/
theorem dqMulMultipliesExactly : Obligations.DqMulMultipliesExactly := by
  refine ⟨fun id => ?_, fun s id h => ⟨exec_dqMul_none h, fun q hq => ⟨_, exec_dqMul_some h hq, fun i => ?_⟩⟩⟩
  · rw [encode, commandWord_eq_ofNat, toNat_fieldOf (by omega)]
    rfl
  · rw [dequantize_toInt]
    exact ⟨rfl, fun hne => ⟨Int.mul_ediv_cancel _ (Int.natCast_ne_zero.2 hne), Int.mul_emod_left _ _⟩⟩

/-! ### ZZ.SCAT (R163, R164) -/

/-- Where the zigzag goes from a row and column: along the anti-diagonal, upwards where `row + col` is even, and at an
edge of the block on to the next anti-diagonal (R163). -/
def zigzagStep (row col : Nat) : Nat :=
  if (row + col) % 2 = 0 then
    if col = 7 then 8 * (row + 1) + 7 else if row = 0 then col + 1 else 8 * (row - 1) + (col + 1)
  else if row = 7 then 8 * 7 + (col + 1) else if col = 0 then 8 * (row + 1) else 8 * (row + 1) + (col - 1)

/-- The table `ZZ` is the walk of `zigzagStep`. -/
theorem zz_succ (i : Fin 63) :
    (zz i.succ).val = zigzagStep ((zz i.castSucc).val / 8) ((zz i.castSucc).val % 8) := by
  revert i; decide

theorem zz_next {i j : Fin 64} (h : j.val = i.val + 1) :
    (zz j).val = zigzagStep ((zz i).val / 8) ((zz i).val % 8) := by
  have hi : i.val < 63 := by omega
  have hj : j = Fin.succ ⟨i.val, hi⟩ := Fin.ext h
  rw [hj]
  exact zz_succ ⟨i.val, hi⟩

/-- The scattered block is the one whose zigzag order was given (R164). -/
theorem scatter_eq_of_zigzag {deq natural : Block Word} (h : ∀ i : Fin 64, deq[i] = natural[zz i])
    (nat : Block Word) : scatter deq nat = natural := by
  have hget (j : Fin 64) : (scatter deq nat)[j] = natural[j] := by
    obtain ⟨i, rfl⟩ := zz_bijective.2 j
    exact (scatter_zz deq nat i).trans (h i)
  exact Vector.ext fun j hj => hget ⟨j, hj⟩

/-- Settles O49: `ZZ` is a walk over all positions, and `scatter` undoes it. -/
theorem zzScatUndoesTheZigzag : Obligations.ZzScatUndoesTheZigzag := by
  refine ⟨by decide, zz_bijective, rfl, rfl, rfl, rfl, fun i j hij => ⟨fun heven => ?_, fun hodd => ?_⟩,
    fun s h => latched_of_scanning h rfl, fun s h => ⟨_, exec_zzScat h, scatter_zz _ _, fun natural hn => ?_⟩⟩
  · rw [zz_next hij, zigzagStep, if_pos heven]
  · rw [zz_next hij, zigzagStep, if_neg (by omega)]
  · exact scatter_eq_of_zigzag hn _

/-! ### IDCT.2D (R166, R167) -/

/-- Row `u` of `K` is even or odd about its middle, as `u` is (R166). -/
theorem kernel_rev (u x : Fin 8) : kernel u x.rev = (-1) ^ u.val * kernel u x := by
  revert u x; decide

/-- Settles O50, with the list sums as the sums of the model. -/
theorem idctComputesTheExactSums : Obligations.IdctComputesTheExactSums := by
  unfold Obligations.IdctComputesTheExactSums
  simp only [sum_finRange]
  refine ⟨by decide, kernel_rev, kernel_bound, fun s h => latched_of_scanning h rfl,
    fun s h => ⟨_, exec_idct2d h, fun y x => ⟨idct2d_cell _ y x, ?_⟩⟩⟩
  rw [idct2d_toInt]
  exact idctCols_bound _ _

/-! ### LS.CLAMP (R168, R169) -/

theorem clamp_eq_max_min {lo hi : Int} (h : lo ≤ hi) (v : Int) : clamp lo hi v = max lo (min hi v) := by
  unfold clamp
  split_ifs <;> omega

theorem levelShift_toNat (a : Int) :
    ((levelShift a).toNat : Int) = max 0 (min 255 ((a + 2 ^ 25) / 2 ^ 26 + 128)) := by
  rw [levelShift, sampleByte_toNat, clamp_eq_max_min (by decide), add_comm 128]

/-- `⌊(a + 2^25) / 2^26⌋` is the integer nearest to `a / 2^26`, a tie going up (R168). -/
theorem nearest_bounds (a : Int) : 2 * ((a + 2 ^ 25) / 2 ^ 26) * 2 ^ 26 ≤ 2 * a + 2 ^ 26 ∧
    2 * a + 2 ^ 26 < 2 * ((a + 2 ^ 25) / 2 ^ 26 + 1) * 2 ^ 26 := by
  omega

theorem getElem_levelShiftAll (acc : Block (BitVec 64)) (i : Fin 64) :
    (levelShiftAll acc)[i] = levelShift acc[i].toInt := by
  simp [levelShiftAll]

/-- Settles O51: `ls` of each entry, from its nearest integer. -/
theorem lsClampRoundsShiftsAndClamps : Obligations.LsClampRoundsShiftsAndClamps := by
  refine ⟨by decide, fun s h => latched_of_scanning h rfl, fun s h => ⟨_, exec_lsClamp h, fun i => ?_⟩⟩
  obtain ⟨hle, hlt⟩ := nearest_bounds s.buf.acc[i].toInt
  refine ⟨_, hle, hlt, ?_⟩
  rw [getElem_levelShiftAll]
  exact levelShift_toNat _

/-! ### BLK.RECON (R170, R171) -/

theorem manual_buffers (h : Manual s) (b : Buffers) : Manual { s with buf := b } := h

theorem execAll_cons_next {i : Instr} (h : exec i s = .next t) (is : List Instr) :
    execAll (i :: is) s = execAll is t := by
  rw [execAll, h]

/-- The four commands in turn leave the buffers of `recon` (R170). -/
theorem execAll_recon (h : Manual s) (hq : s.tables.quant id = some q) :
    execAll [.dqMul (fieldOf id), .zzScat, .idct2d, .lsClamp] s = .next { s with buf := s.buf.reconstructed q } := by
  rw [execAll_cons_next (exec_dqMul_some h hq), execAll_cons_next (exec_zzScat (manual_buffers h _)),
    execAll_cons_next (exec_idct2d (manual_buffers h _)), execAll_cons_next (exec_lsClamp (manual_buffers h _)),
    execAll, Buffers.reconstructed]

/-- Settles O52: both ways lead to the buffers of `recon`, which keeps the coefficients. -/
theorem blkReconIsTheFourSteps : Obligations.BlkReconIsTheFourSteps :=
  fun s _ h => ⟨exec_blkRecon_none h, fun q hq =>
    ⟨(exec_blkRecon_some h hq).trans (execAll_recon h hq).symm, _, exec_blkRecon_some h hq,
      reconstructed_coef s.buf q⟩⟩

/-! ### A block of one DC coefficient (R174) -/

theorem sum8_eq_first {f : Fin 8 → Int} (h : ∀ u, u ≠ 0 → f u = 0) : sum8 f = f 0 := by
  simp [sum8, h]

theorem sum8_eq_zero {f : Fin 8 → Int} (h : ∀ u, f u = 0) : sum8 f = 0 := by
  simp [sum8, h]

theorem cell_eq_zero_iff {y x : Fin 8} : cell y x = 0 ↔ y = 0 ∧ x = 0 := by
  simp only [cell, Fin.ext_iff, Fin.val_zero]
  omega

/-- Row 0 of `K` is constant (R166). -/
theorem kernel_zero (x : Fin 8) : kernel 0 x = 2896 := by
  revert x; decide

/-- Where only `NAT[0]` is not 0, each sum is its one term (R174). -/
theorem idct2d_dc_only {nat : Block Word} (h : ∀ i : Fin 64, i ≠ 0 → nat[i].toInt = 0) (i : Fin 64) :
    ((idct2d nat)[i]).toInt = 8386816 * nat[(0 : Fin 64)].toInt := by
  have hterm (v u x : Fin 8) (hvu : ¬ (v = 0 ∧ u = 0)) : kernel u x * nat[cell v u].toInt = 0 := by
    rw [h _ (mt cell_eq_zero_iff.1 hvu), mul_zero]
  have hrow (v x : Fin 8) (hv : v ≠ 0) : (sum8 fun u => kernel u x * nat[cell v u].toInt) = 0 :=
    sum8_eq_zero fun u => hterm v u x fun hvu => hv hvu.1
  rw [← cell_rowOf_colOf i, idct2d_cell, sum8_eq_first fun v hv => by rw [hrow v _ hv, mul_zero],
    sum8_eq_first fun u hu => hterm 0 u _ fun hvu => hu hvu.2, kernel_zero, kernel_zero, ← mul_assoc]
  rfl

/-- The DC coefficient stays first in natural order, and the zeros stay zeros. -/
theorem scatter_dequantize_zero (coef q : Block (BitVec 16)) (nat : Block Word) :
    ((scatter (dequantize coef q) nat)[(0 : Fin 64)]).toInt =
      coef[(0 : Fin 64)].toInt * (q[(0 : Fin 64)].toNat : Int) := by
  rw [← dequantize_toInt]
  exact congrArg BitVec.toInt (scatter_zz _ _ 0)

theorem scatter_dequantize_dc_only {coef : Block (BitVec 16)} (h : ∀ i : Fin 64, i ≠ 0 → coef[i] = 0)
    (q : Block (BitVec 16)) (nat : Block Word) (j : Fin 64) (hj : j ≠ 0) :
    ((scatter (dequantize coef q) nat)[j]).toInt = 0 := by
  obtain ⟨i, rfl⟩ := zz_bijective.2 j
  have hi : i ≠ 0 := fun hi => hj (congrArg zz hi)
  rw [scatter_zz, dequantize_toInt, h i hi]
  exact zero_mul _

/-- Settles O53: each entry of `ACC` is the term of the DC coefficient. -/
theorem dcOnlyBlockGivesAFlatTile : Obligations.DcOnlyBlockGivesAFlatTile := by
  intro s t c q h hq hcoef ht i
  obtain rfl := Host.Outcome.next.inj ((exec_blkRecon_some h hq).symm.trans ht)
  rw [reconstructed_tile, tileOf, getElem_levelShiftAll, idct2d_dc_only (scatter_dequantize_dc_only hcoef q _),
    scatter_dequantize_zero, mul_assoc]
  rfl

end Sys2Proof.Proofs
end

section
namespace Sys2Proof.Proofs

open Sys2Proof.Machine Sys2Proof.Spec Sys2Proof.Laws

variable {s : State} {c : Fin 4}

/-! ### UP.RUN (R180, R181, R182) -/

theorem exec_upRun (c : Fin 4) (s : State) : exec (.upRun (fieldOf c)) s =
    command (fun s => s.manual && s.status.done && decide (c.val < s.setup.numComps))
      (fun s => .ok () (upsample c s)) s := by
  simp only [exec, execUpRun, componentOk_fieldOf, componentIndex_fieldOf, toNat_fieldOf (n := c) (by omega),
    Bool.true_and]

theorem exec_upRun_latched (h : Manual s) (hn : s.status.done = false ∨ s.setup.numComps ≤ c.val) :
    Latched (exec (.upRun (fieldOf c)) s) 11 s := by
  rw [exec_upRun]
  refine (command_checked h.1).resolve_left ?_
  rcases hn with hd | hc
  · simp [hd]
  · simp [hc]

theorem exec_upRun_done (h : Manual s) (hd : s.status.done = true) (hc : c.val < s.setup.numComps) :
    exec (.upRun (fieldOf c)) s = .next (upsample c s) := by
  rw [exec_upRun]
  exact command_ok h.1 (by rw [manual_iff.2 h.2, hd, decide_eq_true hc]; rfl) rfl

/-- Settles O54: the memory is that of `upsample`, which writes the pixels and nothing else. -/
theorem upRunReplicatesTheSamples : Obligations.UpRunReplicatesTheSamples := by
  refine fun s c h => ⟨exec_upRun_latched h, fun hd hc =>
    ⟨_, exec_upRun_done h hd hc, fun y x hy hx => ⟨upsample_read c s hy hx, fun ha => scaled_inside ha hc hx hy⟩,
      fun a ha => upsample_read_other c s ?_⟩⟩
  rwa [Nat.mul_comm]

/-! ### CC.RUN (R186, R187) -/

theorem exec_ccRun (s : State) :
    exec .ccRun s = command (fun s => s.manual && s.status.done && s.allFull) assembleOutput s := rfl

theorem allFull_iff : s.allFull = true ↔ ∀ c : Fin 4, c.val < s.setup.numComps → s.status.fullv[c] = true := by
  simp only [State.allFull, List.all_eq_true, mem_comps]

theorem ccRun_check (h : Manual s) (hd : s.status.done = true) (hf : s.allFull = true) :
    (s.manual && s.status.done && s.allFull) = true := by
  rw [manual_iff.2 h.2, hd, hf]
  rfl

theorem exec_ccRun_latched (h : Manual s) (hn : s.status.done = false ∨ ¬ s.allFull = true) :
    Latched (exec .ccRun s) 11 s := by
  rw [exec_ccRun]
  refine (command_checked h.1).resolve_left ?_
  rcases hn with hd | hf
  · simp [hd]
  · simp [hf]

theorem exec_ccRun_four (h : Manual s) (hd : s.status.done = true) (hf : s.allFull = true)
    (hn : s.setup.numComps = 4) : Latched (exec .ccRun s) 9 s := by
  rw [exec_ccRun, command_raised (k := .unsupportedComponentLayout) (t := s) h.1 (ccRun_check h hd hf)
    (by rw [assembleOutput, if_pos hn])]
  exact latched_faultCommand _ _

theorem exec_ccRun_output (h : Manual s) (hd : s.status.done = true) (hf : s.allFull = true)
    (hn : s.setup.numComps ≠ 4) : exec .ccRun s = .next { s with
      mem := { s.mem with out := s.mem.out.writeAll (s.setup.pixels.flatMap (outCells s)) }
      status := { s.status with outv := true } } := by
  rw [exec_ccRun]
  exact command_ok h.1 (ccRun_check h hd hf) (by rw [assembleOutput, if_neg hn])

/-- One component gives a gray sample for each pixel (R187). -/
theorem outCells_gray (hn : s.setup.numComps = 1) (y x : Nat) : outCells s (y, x) =
    [(pixelAddress s.setup.w y x, s.fullByte 0 (pixelAddress s.setup.w y x))] := if_pos hn

/-- Three components give R, G and B of each pixel, in this order (R43, R186). -/
theorem outCells_color (hn : s.setup.numComps ≠ 1) (y x : Nat) : outCells s (y, x) =
    let a := pixelAddress s.setup.w y x
    let rgb := ycc2rgb (s.fullByte 0 a) (s.fullByte 1 a) (s.fullByte 2 a)
    [(3 * a, rgb.1), (3 * a + 1, rgb.2.1), (3 * a + 2, rgb.2.2)] := if_neg hn

/-- Settles O55: each byte read lies in the group of cells of its pixel, and no group reaches past the pixels. -/
theorem ccRunAssemblesTheOutput : Obligations.CcRunAssemblesTheOutput := by
  refine ⟨by decide, fun s h => latched_of_scanning h rfl, fun s h => ?_⟩
  simp only [← allFull_iff]
  refine ⟨exec_ccRun_latched h, exec_ccRun_four h, fun hd hf hn =>
    ⟨_, exec_ccRun_output h hd hf (by omega), fun y x hy hx => ?_, fun a ha => out_read_other s ?_⟩⟩
  · have hread (cell : Host.Cell) (hc : cell ∈ outCells s (y, x)) := out_read s hy hx hc
    refine ⟨fun hn1 => ?_, fun hn3 => ?_⟩
    · rw [outCells_gray hn1] at hread
      simpa [pixelAddress] using hread
    · rw [outCells_color (by omega)] at hread
      simpa [pixelAddress] using hread
  · rcases hn with hn | hn <;> simpa [hn] using ha

/-! ### CC.PIX (R184, R185) -/

/-- The three fields of `ARG` that CC.PIX reads; the top byte is not one of them (R185). -/
theorem arg_fields {arg : Word} {y cb cr top : Byte}
    (h : arg.toNat = y.toNat + cb.toNat * 2 ^ 8 + cr.toNat * 2 ^ 16 + top.toNat * 2 ^ 24) :
    argY arg = y ∧ argCb arg = cb ∧ argCr arg = cr := by
  refine ⟨BitVec.eq_of_toNat_eq ?_, BitVec.eq_of_toNat_eq ?_, BitVec.eq_of_toNat_eq ?_⟩
  all_goals
    simp only [argY, argCb, argCr, BitVec.extractLsb'_toNat, Nat.shiftRight_eq_div_pow]
    omega

theorem packRgb_eq_ofNat (rgb : Byte × Byte × Byte) :
    packRgb rgb = BitVec.ofNat 32 (rgb.1.toNat + rgb.2.1.toNat * 2 ^ 8 + rgb.2.2.toNat * 2 ^ 16) := by
  apply BitVec.eq_of_toNat_eq
  simp only [packRgb, toNat_append_add, BitVec.ofNat_eq_ofNat, BitVec.toNat_ofNat]
  omega

theorem exec_ccPix (hf : s.status.fault = false) : exec .ccPix s =
    .next (setResult (packRgb (ycc2rgb (argY s.arg) (argCb s.arg) (argCr s.arg))) s) := by
  rw [exec, execCcPix]
  exact command_ok hf rfl rfl

/-- A channel of `ycc2rgb` given in millionths is rounded to the nearest integer, a tie going up, and clamped (R184). -/
theorem sampleByte_rounds (millionths : Int) : ∃ n : Int,
    2 * n * 1000000 ≤ 2 * millionths + 1000000 ∧ 2 * millionths + 1000000 < 2 * (n + 1) * 1000000 ∧
    ((sampleByte ((millionths + 500000) / 1000000)).toNat : Int) = max 0 (min 255 n) := by
  refine ⟨(millionths + 500000) / 1000000, by omega, by omega, ?_⟩
  rw [sampleByte_toNat, clamp_eq_max_min (by decide)]

/-- A whole number of millionths that is a byte stays that byte. -/
theorem sampleByte_whole (y : Byte) : sampleByte ((1000000 * (y.toNat : Int) + 500000) / 1000000) = y := by
  apply BitVec.eq_of_toNat_eq
  rw [← Int.natCast_inj, sampleByte_toNat, show (1000000 * (y.toNat : Int) + 500000) / 1000000 = y.toNat by omega,
    clamp_byte]

/-- Neutral chroma leaves the luma in all three channels (R184). -/
theorem ycc2rgb_neutral (y : Byte) : ycc2rgb y 128 128 = (y, y, y) := by
  simp [ycc2rgb, sampleByte_whole]

/-- Settles O56: the fields of `ARG` are the pixel, and each channel is rounded as `sampleByte_rounds` says. -/
theorem ccPixConvertsThePixelExactly : Obligations.CcPixConvertsThePixelExactly := by
  refine ⟨by decide, fun s y cb cr top hf harg => ?_, fun y cb cr =>
    ⟨sampleByte_rounds _, sampleByte_rounds _, sampleByte_rounds _, ycc2rgb_neutral y⟩⟩
  obtain ⟨hy, hcb, hcr⟩ := arg_fields harg
  rw [exec_ccPix hf, hy, hcb, hcr, packRgb_eq_ofNat]
  rfl

end Sys2Proof.Proofs
end

section
namespace Sys2Proof.Proofs

open Sys2Proof.Machine Sys2Proof.Spec Sys2Proof.Laws

/-! ### NOP (R200) -/

/-- Ignored while faulted, and with nothing to do otherwise. -/
theorem exec_nop (s : State) : exec .nop s = .next s := by
  rw [exec, execNop]
  cases hf : s.status.fault with
  | true => exact command_faulted hf
  | false => exact command_ok hf rfl rfl

/-- The only legal word with `op = 0` is the encoding of NOP (R61). -/
theorem eq_zero_of_legalWord {w : Word} (hop : w.toNat / 2 ^ 24 = 0) (hw : LegalWord w) : w = 0 := by
  obtain ⟨hc, m, n, hmax, ha, hb⟩ := hw
  rw [hop] at hmax
  obtain ⟨rfl, rfl⟩ : 0 = m ∧ 0 = n := by simpa [operandMax] using hmax
  have hz : w.toNat = 0 := by omega
  exact BitVec.eq_of_toNat_eq hz

/-- Settles O11: `exec_nop`, and a word with `op = 0` other than NOP's is no command. -/
theorem nopChangesNothing : Obligations.NopChangesNothing :=
  ⟨exec_nop, by decide, fun _ _ hop h0 hf => access_write_illegal (fun hw => h0 (eq_zero_of_legalWord hop hw)) hf⟩

end Sys2Proof.Proofs
end

section
namespace Sys2Proof.Proofs

open Sys2Proof.Machine Sys2Proof.Laws

variable {α β : Type} {i : Instr} {s t : State}

/-! ### What a command that raises leaves (R224) -/

/-- A run from `s` that ends leaves `FAULT` alone; one that raises does so with a kind the block raises, and with the
flags and `BRV` as they were in `s`. -/
def RaisesUnchanged (s : State) : Res State α → Prop
  | .ok _ t => t.status.fault = s.status.fault
  | .raised k t => k ≠ .notAJpeg ∧ t.status = s.status ∧ t.stream.brv = s.stream.brv

theorem raisesUnchanged_of_steady {r : Res State α} (h : Leaves (Steady s) r) (hk : BlockKind r) :
    RaisesUnchanged s r := by
  cases r with
  | ok _ t => exact congrArg Status.fault (leaves_ok.1 h).status
  | raised k t => exact ⟨hk, (leaves_raised.1 h).status, (leaves_raised.1 h).brv⟩

/-- A steady run, then one from the state it left. -/
theorem raisesUnchanged_bind {r : Res State α} {f : α → State → Res State β} (h : Leaves (Steady s) r)
    (hk : BlockKind r) (hf : ∀ a t, RaisesUnchanged t (f a t)) : RaisesUnchanged s (r.bind f) := by
  cases r with
  | raised k t => exact ⟨hk, (leaves_raised.1 h).status, (leaves_raised.1 h).brv⟩
  | ok a t =>
    obtain ⟨_, _, _, hst, hb⟩ := leaves_ok.1 h
    have ht := hf a t
    rw [bind_ok]
    unfold RaisesUnchanged at ht ⊢
    rwa [hst, hb] at ht

/-- A steady run, then its value to `RESULT`. -/
theorem raisesUnchanged_result {r : Res State α} (h : Leaves (Steady s) r) (hk : BlockKind r) (f : α → Word) :
    RaisesUnchanged s (r.bind fun v t => .ok () (setResult (f v) t)) :=
  raisesUnchanged_bind h hk fun _ _ => rfl

theorem steady_of_coding {c : Fin 4} {r : Res State α} (h : Leaves (Coding c s) r) : Leaves (Steady s) r :=
  h.mono fun _ hc => steady_of_walking hc.decoding.walking

theorem reportBits_raisesUnchanged {p : BitResult Nat × Stream} (h : p.2.brv = s.stream.brv) :
    RaisesUnchanged s (reportBits s p) := by
  obtain ⟨_ | _ | _, r⟩ := p
  · exact rfl
  · exact rfl
  · exact ⟨by simp, rfl, h⟩

theorem loadHuffman_raisesUnchanged (cl : Fin 2) (id : Fin 16) (s : State) :
    RaisesUnchanged s (loadHuffman cl id s) := by
  unfold loadHuffman
  split
  · exact ⟨by simp, rfl, rfl⟩
  · exact rfl

theorem loadQuant_raisesUnchanged (wide : Bool) (id : Fin 16) (s : State) :
    RaisesUnchanged s (loadQuant wide id s) := by
  unfold loadQuant
  split
  · exact ⟨by simp, rfl, rfl⟩
  · exact rfl

theorem multiplyBy_raisesUnchanged (id : Fin 16) (s : State) : RaisesUnchanged s (multiplyBy id s) := by
  unfold multiplyBy
  split
  · exact ⟨by simp, rfl, rfl⟩
  · exact rfl

theorem assembleOutput_raisesUnchanged (s : State) : RaisesUnchanged s (assembleOutput s) := by
  unfold assembleOutput
  split
  · exact ⟨by simp, rfl, rfl⟩
  · exact rfl

theorem scanStartBody_raisesUnchanged (s : State) : RaisesUnchanged s (scanStartBody s) := by
  unfold scanStartBody
  split
  · next k hk => exact ⟨scanProblem_kind hk, rfl, rfl⟩
  · exact rfl

theorem scanEndBody_raisesUnchanged (s : State) : RaisesUnchanged s (scanEndBody s) := by
  unfold scanEndBody
  simp only
  split_ifs
  · exact ⟨by simp, rfl, rfl⟩
  · exact ⟨by simp, rfl, rfl⟩
  · exact rfl

theorem mcus_kind (n : Nat) (s : State) : BlockKind (mcus n s) := by
  induction n generalizing s with
  | zero => exact True.intro
  | succ n ih => exact (mcuBody_kind s).bind fun _ t => ih t

/-- Every command but RESET checks, then runs pseudocode that raises in this way. -/
theorem exec_raisesUnchanged (hi : i ≠ .reset) (s : State) :
    ∃ ok body, exec i s = command ok body s ∧ RaisesUnchanged s (body s) := by
  unfold exec
  cases i with
  | reset => exact absurd rfl hi
  | nop | brInit | brAlign | zzScat | idct2d | lsClamp | upRun | ccPix => exact ⟨_, _, rfl, rfl⟩
  | brBit => exact ⟨_, _, rfl, reportBits_raisesUnchanged (nextBit_moved (inBuf_len_lt s) _).brv⟩
  | brBits n => exact ⟨_, _, rfl, reportBits_raisesUnchanged (nextBitsFrom_moved (inBuf_len_lt s) _ 0 _).brv⟩
  | htLoad => exact ⟨_, _, rfl, loadHuffman_raisesUnchanged _ _ s⟩
  | htDec =>
    exact ⟨_, _, rfl, raisesUnchanged_result (steady_of_coding (decodeSymbol_coding 0 s _))
      (decodeSymbol_kind _ _ _).onStream _⟩
  | qtLoad => exact ⟨_, _, rfl, loadQuant_raisesUnchanged _ _ s⟩
  | edRcvx =>
    exact ⟨_, _, rfl, raisesUnchanged_result (steady_of_coding (receiveExtend_coding 0 s _))
      (receiveExtend_kind _ _ _).onStream _⟩
  | edDc =>
    exact ⟨_, _, rfl, raisesUnchanged_result (steady_of_coding (decodeDc_coding _ s)) (decodeDc_kind _ s) _⟩
  | edAc =>
    exact ⟨_, _, rfl, raisesUnchanged_result (steady_of_coding (decodeAc_coding _ s)) (decodeAcFrom_kind _ _ _ _) _⟩
  | edBlock =>
    exact ⟨_, _, rfl, raisesUnchanged_result (steady_of_coding (decodeBlock_coding _ s)) (decodeBlock_kind _ s) _⟩
  | edRst =>
    exact ⟨_, _, rfl, raisesUnchanged_result ((restartSync_walking s).mono fun _ => steady_of_walking)
      (restartSync_kind s) _⟩
  | edMcu => exact ⟨_, _, rfl, raisesUnchanged_of_steady (mcuBody_steady s) (mcuBody_kind s)⟩
  | edScan =>
    exact ⟨_, _, rfl, raisesUnchanged_bind (mcus_steady _ s) (mcus_kind _ s) fun _ => scanEndBody_raisesUnchanged⟩
  | scanStart => exact ⟨_, _, rfl, scanStartBody_raisesUnchanged s⟩
  | scanEnd => exact ⟨_, _, rfl, scanEndBody_raisesUnchanged s⟩
  | dqMul => exact ⟨_, _, rfl, multiplyBy_raisesUnchanged _ s⟩
  | blkRecon =>
    exact ⟨_, _, rfl, raisesUnchanged_of_steady ((recon_decoding _ s).mono fun _ h => steady_of_walking h.1.walking)
      (recon_kind _ s)⟩
  | ccRun => exact ⟨_, _, rfl, assembleOutput_raisesUnchanged s⟩

/-- A command that enters the faulted state latched a fault, of a check or of its pseudocode. -/
theorem command_faulting {ok : State → Bool} {body : State → Res State Unit} (hx : command ok body s = .next t)
    (hb : RaisesUnchanged s (body s)) (hf : s.status.fault = false) (ht : t.status.fault = true) :
    ∃ k u, t = faultCommand k u ∧ k ≠ .notAJpeg ∧ u.status = s.status ∧ u.stream.brv = s.stream.brv := by
  rcases command_cases hx with ⟨hs, _⟩ | ⟨_, _, rfl⟩ | ⟨_, _, hbt⟩ | ⟨_, _, k, u, hbt, rfl⟩
  · exact absurd (hf.symm.trans hs) Bool.false_ne_true
  · exact ⟨.protocolFault, s, rfl, by simp, rfl, rfl⟩
  · rw [hbt] at hb
    exact absurd (hf.symm.trans (hb.symm.trans ht)) Bool.false_ne_true
  · rw [hbt] at hb
    exact ⟨k, u, rfl, hb⟩

/-- Settles O7: RESET clears `FAULT`, and what every other command latches is its fault in the state it had reached. -/
theorem raisedFaultIsLatchedWithTheCursor : Obligations.RaisedFaultIsLatchedWithTheCursor := by
  intro i s t hx hf ht
  by_cases hi : i = .reset
  · subst hi
    cases hx
    exact absurd ht Bool.false_ne_true
  · obtain ⟨ok, body, he, hb⟩ := exec_raisesUnchanged hi s
    obtain ⟨k, u, rfl, hk, hst, hbrv⟩ := command_faulting (he.symm.trans hx) hb hf ht
    obtain ⟨hlo, hhi⟩ := code_bounds hk
    exact ⟨rfl, hlo, hhi, by rw [faultCommand_status, hst], hbrv⟩

end Sys2Proof.Proofs
end

section
namespace Sys2Proof.Proofs

open Sys2Proof.Machine Sys2Proof.Spec Sys2Proof.Laws

variable {s : State}

/-! ### Accesses while faulted (R225) -/

theorem runWord_faulted (hf : s.status.fault = true) {w : Word} (hw : w ≠ encode .reset) : runWord w s = .next s := by
  unfold runWord
  split
  · next i hd =>
    refine exec_faulted ?_ hf
    rintro rfl
    exact hw (decode_ok hd)
  · rw [rejectWord, if_pos hf]

theorem writeReg_faulted (hf : s.status.fault = true) (r : Reg) (w : Word) : writeReg r w s = s := if_pos hf

theorem hostWrite_faulted (hf : s.status.fault = true) {offset : Word} (hlt : offset.toNat < 0x1000) (w : Word) :
    hostWrite offset w s = .next s := by
  unfold hostWrite
  rw [writeReg_faulted hf, if_neg (by simp [offsetExists, hlt]), ite_self]

/-- A register with a defined value reads it with a fault latched too. -/
theorem readReg_defined {r : Reg} (hr : r.definedWhenFaulted = true) (s : State) :
    readReg r s = { s with rdata := regValue s r } := if_neg (by simp [hr])

/-- A read of a register touches the host's side only. -/
theorem readReg_hostSide (r : Reg) (s : State) : ∃ v n, readReg r s = { s with rdata := v, draws := n } := by
  unfold readReg
  split
  · exact ⟨_, _, rfl⟩
  · exact ⟨_, s.draws, rfl⟩

/-- While faulted none of the block's memories can be read yet. -/
theorem spaceReady_faulted (hf : s.status.fault = true) {space : Space} (hs : space ≠ .input) :
    s.spaceReady space = false := by
  cases space with
  | input => exact absurd rfl hs
  | plane | full | out => simp [State.spaceReady, hf]

/-- Settles O6: what each kind of access does in a faulted state. -/
theorem faultedStateIgnoresAccesses : Obligations.FaultedStateIgnoresAccesses := by
  intro s hf
  refine ⟨fun w hw => ?_, fun offset w h0 hlt => ?_, ?_, ?_, ?_, fun offset hlt hal _ _ _ => ?_, fun space a hs => ?_⟩
  · rw [← runWord_faulted hf hw]
    exact step_write_cmd rfl
  · rw [← hostWrite_faulted hf hlt w]
    simp only [access, step, nextAccess, HostAccess.commandWord, if_neg h0, hostAccess]
  · exact (access_read (n := 0x04) (by decide) (by decide) s).trans (congrArg _ (readReg_defined (r := .status) rfl s))
  · exact (access_read (n := 0x08) (by decide) (by decide) s).trans (congrArg _ (readReg_defined (r := .err) rfl s))
  · exact (access_read (n := 0x0C) (by decide) (by decide) s).trans (congrArg _ (readReg_defined (r := .errpos) rfl s))
  · obtain ⟨v, n, hr⟩ := readReg_hostSide (regAt offset.toNat) s
    refine ⟨v, n, ?_⟩
    rw [← hr, ← access_read hlt hal, BitVec.ofNat_toNat, BitVec.setWidth_eq]
  · exact ⟨_, _, access_readMemory_early (spaceReady_faulted hf hs) a⟩

end Sys2Proof.Proofs
end

section
namespace Sys2Proof.Proofs

open Sys2Proof.Machine Sys2Proof.Spec Sys2Proof.Laws

variable {s : State}

/-! ### Reset (R250, R251) -/

/-- The reset values of the model are those of R26, which fixes none for the buffers and the memories. -/
theorem atReset_of_parts {t : State} (hstatus : t.status = Status.reset)
    (hresults : t.err = 0 ∧ t.errpos = 0 ∧ t.result = 0 ∧ t.arg = 0) (hsetup : t.setup = Setup.reset)
    (hstream : t.stream = Stream.reset) (hwalk : t.walk = Walk.reset) (htables : t.tables = Tables.reset) :
    AtReset t where
  flags := by simp [hstatus, Status.reset]
  results := hresults
  setup := by simp [hsetup, Setup.reset]
  comp c := by simp [hsetup, Setup.reset]
  proc := by simp [hsetup, Setup.reset]
  reader := by simp [hstream, Stream.reset]
  counters := by simp [hwalk, Walk.reset]
  pred c := by simp [hwalk, Walk.reset]
  huffs cl id := by simp [htables, Tables.reset, Tables.huff]
  quants id := by simp [htables, Tables.reset, Tables.quant]

theorem reset_atReset : AtReset State.reset := atReset_of_parts rfl ⟨rfl, rfl, rfl, rfl⟩ rfl rfl rfl rfl

theorem resetBlock_atReset (s : State) : AtReset (resetBlock s) :=
  atReset_of_parts rfl ⟨rfl, rfl, rfl, rfl⟩ rfl rfl rfl rfl

theorem exec_reset (s : State) : exec .reset s = .next (resetBlock s) := rfl

theorem step_hardReset {rest : List HostAccess} (h : s.bus = .hardReset :: rest) :
    step s = .next (resetBlock { s with bus := rest }) := by
  rw [step, nextAccess, h]
  rfl

theorem step_write_reset {rest : List HostAccess} (h : s.bus = .write 0 (encode .reset) :: rest) :
    step s = .next (resetBlock { s with bus := rest }) := by
  rw [step_write_cmd h, runWord_ok (decode_eq_ok_iff.mpr ⟨rfl, rfl⟩), exec_reset]

theorem abandoned_iff_resetNext : s.abandoned = true ↔ ResetNext s := by
  refine ⟨fun h => ?_, ResetNext.abandoned⟩
  unfold State.abandoned at h
  split at h
  · next rest hb => exact ⟨rest, .inl hb⟩
  · next offset w rest hb =>
    simp only [Bool.and_eq_true, beq_iff_eq] at h
    obtain ⟨rfl, rfl⟩ := h
    exact ⟨rest, .inr hb⟩
  all_goals exact absurd h Bool.false_ne_true

theorem step_resetNext (h : ResetNext s) : ∃ rest, step s = .next (resetBlock { s with bus := rest }) := by
  obtain ⟨rest, hb | hb⟩ := h
  · exact ⟨rest, step_hardReset hb⟩
  · exact ⟨rest, step_write_reset hb⟩

/-- Settles O8: both resets, and so the step of an abandoned decode, answer `resetBlock`. -/
theorem resetGivesTheResetValues : Obligations.ResetGivesTheResetValues := by
  intro s
  refine ⟨⟨_, exec_reset s, resetBlock_atReset s, resetBlock_input s, resetBlock_memCap s, resetBlock_bus s⟩,
    step_hardReset rfl, reset_atReset, fun ha => ?_⟩
  obtain ⟨rest, hs⟩ := step_resetNext (abandoned_iff_resetNext.mp ha)
  exact ⟨_, hs, resetBlock_atReset _⟩

end Sys2Proof.Proofs
end
